-- ==== Sys2Proof/Word.lean ====
section
/-! DEFINITION. The bit vectors of the block: their widths, and the two bus levels (00_scope.md R7, R10, Table P). -/

namespace Sys2Proof

/-- A bus level or bit value: 0 dominant, 1 recessive (R10). -/
abbrev Level := BitVec 1

/-- A register word, a sample index or a field value: 32 bits (Table P: `SAMPLE_IDX_W`, `ACC_W`). -/
abbrev Word := BitVec 32

/-- A raw or logical bit index: 16 bits (Table P: `IDX_W`). -/
abbrev BitIdx := BitVec 16

/-- A byte address in the register space: 8 bits (Table P: `REG_ADDR_W`; R60). -/
abbrev RegAddr := BitVec 8

/-- One cycle's input as one word: the S beat in bits 43:42, the B command in bits 41:0 (R82). -/
abbrev CycleWord := BitVec 44

/-- The four bits of a FrameDecoder state code (R83). -/
abbrev FdCode := BitVec 4

/-- The dominant level (R10). -/
abbrev dominant : Level := 0#1

/-- The recessive level (R10). -/
abbrev recessive : Level := 1#1

end Sys2Proof
end

