-- ==== Sys2Proof/Syntax.lean ====
section
/-! DEFINITION. The rows of spec/opcode_table.json as one inductive type, one constructor a row, and one cycle's input (30_encoding.md R80 to R83). -/

namespace Sys2Proof

/-- The rows of the opcode table.
Format S rows are sample beats (R80), format B rows are the read or the write part of a bus command
(R81), format F rows are the FrameDecoder handlers, selected by `fd_state` (R83).
A write row carries `wdata`; an unmapped or misaligned access carries its address.
Bits a row ignores (the level of `NOS`, the address and data of `NOP`, the data of a read) are no operands. -/
inductive Instr where
  -- format S (R124)
  | smpD
  | smpR
  | nos
  -- format B, idle (R221)
  | nop
  -- format B, the fourteen registers (R223 to R237)
  | rdId
  | wrId (wdata : Word)
  | rdCtrl
  | wrCtrl (wdata : Word)
  | rdStatus
  | wrStatus (wdata : Word)
  | rdBitWidth
  | wrBitWidth (wdata : Word)
  | rdSpOffset
  | wrSpOffset (wdata : Word)
  | rdSampleIdx
  | wrSampleIdx (wdata : Word)
  | rdBitIdx
  | wrBitIdx (wdata : Word)
  | rdAnchorSample
  | wrAnchorSample (wdata : Word)
  | rdAnchorBit
  | wrAnchorBit (wdata : Word)
  | rdNextSp
  | wrNextSp (wdata : Word)
  | rdFrame
  | wrFrame (wdata : Word)
  | rdOffsets
  | wrOffsets (wdata : Word)
  | rdAcc
  | wrAcc (wdata : Word)
  | rdFieldStart
  | wrFieldStart (wdata : Word)
  -- format B, unmapped aligned addresses (R66)
  | rdUnmapped38 (addr : RegAddr)
  | wrUnmapped38 (addr : RegAddr) (wdata : Word)
  | rdUnmapped40 (addr : RegAddr)
  | wrUnmapped40 (addr : RegAddr) (wdata : Word)
  | rdUnmapped80 (addr : RegAddr)
  | wrUnmapped80 (addr : RegAddr) (wdata : Word)
  -- format B, misaligned addresses (R65)
  | rdMisaligned01 (addr : RegAddr)
  | wrMisaligned01 (addr : RegAddr) (wdata : Word)
  | rdMisaligned10 (addr : RegAddr)
  | wrMisaligned10 (addr : RegAddr) (wdata : Word)
  | rdMisaligned11 (addr : RegAddr)
  | wrMisaligned11 (addr : RegAddr) (wdata : Word)
  -- format F (R170 to R188, R83)
  | fdAwaitSof
  | fdSof
  | fdId
  | fdCtrl
  | fdLen
  | fdData
  | fdCrc
  | fdCrcDel
  | fdAck
  | fdAckDel
  | fdEof
  | fdReserved11
  | fdReserved12 (code : FdCode)
  deriving DecidableEq, Repr

/-- The words an instruction is encoded in: a cycle word for formats S and B (R82), the `fd_state`
code for format F (R83). -/
inductive RowWord where
  | cycle (word : CycleWord)
  | handler (code : FdCode)
  deriving DecidableEq, Repr

/-- One cycle's input `{rst, S, B}` (R221): the reset pin and the cycle word of R82. -/
structure CycleInput where
  rst : Bool
  word : CycleWord
  deriving DecidableEq, Repr

/-- The idle cycle: no reset, `NOS`, `NOP`. -/
def CycleInput.idle : CycleInput := ⟨false, 0#44⟩

end Sys2Proof
end

