-- ==== Sys2Proof/WellFormed.lean ====
section
/-! DEFINITION. Which terms of Instr stand for an encoding: the address of an unmapped or misaligned access lies in its row's class, and a reserved handler's code in its row's range (opcode_table.json; 20_memory.md R60, R65, R66; 30_encoding.md R83). -/

namespace Sys2Proof

/-- `addr[1:0]` (R65). -/
def addrLow (a : RegAddr) : BitVec 2 := a.extractLsb' 0 2

/-- The aligned addresses 0x38 and 0x3C. -/
def isUnmapped38 (a : RegAddr) : Bool := addrLow a == 0#2 && 0x38 ≤ a.toNat && a.toNat < 0x40

/-- The aligned addresses 0x40 to 0x7C. -/
def isUnmapped40 (a : RegAddr) : Bool := addrLow a == 0#2 && 0x40 ≤ a.toNat && a.toNat < 0x80

/-- The aligned addresses 0x80 to 0xFC. -/
def isUnmapped80 (a : RegAddr) : Bool := addrLow a == 0#2 && 0x80 ≤ a.toNat

/-- The operand checks of a row; a row without an address or code operand has none. -/
def Instr.wf : Instr → Bool
  | .rdUnmapped38 a => isUnmapped38 a
  | .wrUnmapped38 a _ => isUnmapped38 a
  | .rdUnmapped40 a => isUnmapped40 a
  | .wrUnmapped40 a _ => isUnmapped40 a
  | .rdUnmapped80 a => isUnmapped80 a
  | .wrUnmapped80 a _ => isUnmapped80 a
  | .rdMisaligned01 a => addrLow a == 1#2
  | .wrMisaligned01 a _ => addrLow a == 1#2
  | .rdMisaligned10 a => addrLow a == 2#2
  | .wrMisaligned10 a _ => addrLow a == 2#2
  | .rdMisaligned11 a => addrLow a == 3#2
  | .wrMisaligned11 a _ => addrLow a == 3#2
  | .fdReserved12 c => 12 ≤ c.toNat
  | .smpD | .smpR | .nos | .nop => true
  | .rdId | .wrId _ | .rdCtrl | .wrCtrl _ | .rdStatus | .wrStatus _ => true
  | .rdBitWidth | .wrBitWidth _ | .rdSpOffset | .wrSpOffset _ => true
  | .rdSampleIdx | .wrSampleIdx _ | .rdBitIdx | .wrBitIdx _ => true
  | .rdAnchorSample | .wrAnchorSample _ | .rdAnchorBit | .wrAnchorBit _ => true
  | .rdNextSp | .wrNextSp _ | .rdFrame | .wrFrame _ | .rdOffsets | .wrOffsets _ => true
  | .rdAcc | .wrAcc _ | .rdFieldStart | .wrFieldStart _ => true
  | .fdAwaitSof | .fdSof | .fdId | .fdCtrl | .fdLen | .fdData | .fdCrc => true
  | .fdCrcDel | .fdAck | .fdAckDel | .fdEof | .fdReserved11 => true

end Sys2Proof
end

