-- ==== Sys2Proof/Decode.lean ====
section
/-! DEFINITION. The decoder and the encoder: bit fields of the cycle word, the rows a word stands for, the handler row of an `fd_state` code, and the words of a row (30_encoding.md R80 to R83, R102, R103). -/

namespace Sys2Proof

/-! ### The fields of the cycle word (R80, R81 Table B, R82) -/

/-- `s_valid`, bit 43. -/
def CycleWord.sValid (w : CycleWord) : BitVec 1 := w.extractLsb' 43 1
/-- `s_level`, bit 42. -/
def CycleWord.sLevel (w : CycleWord) : Level := w.extractLsb' 42 1
/-- `we`, bit 41. -/
def CycleWord.we (w : CycleWord) : BitVec 1 := w.extractLsb' 41 1
/-- `re`, bit 40. -/
def CycleWord.re (w : CycleWord) : BitVec 1 := w.extractLsb' 40 1
/-- `addr`, bits 39:32. -/
def CycleWord.addr (w : CycleWord) : RegAddr := w.extractLsb' 32 8
/-- `wdata`, bits 31:0. -/
def CycleWord.wdata (w : CycleWord) : Word := w.extractLsb' 0 32

/-- The cycle word of given fields: `{s_valid, s_level, we, re, addr, wdata}` (R82). -/
def CycleWord.make (sValid : BitVec 1) (sLevel : Level) (we re : BitVec 1) (addr : RegAddr) (wdata : Word) :
    CycleWord :=
  (sValid ++ sLevel ++ we ++ re ++ addr ++ wdata : BitVec (1 + 1 + 1 + 1 + 8 + 32)).cast rfl

/-! ### Decoding -/

/-- The S row of a cycle word: `NOS` whatever the level when `s_valid = 0`, else `SMP.D` or `SMP.R` (R80). -/
def decodeBeat (w : CycleWord) : Instr :=
  if CycleWord.sValid w = 0#1 then .nos
  else if CycleWord.sLevel w = dominant then .smpD
  else .smpR

/-- The address classes of the opcode table: the fourteen registers of Table M, three classes of unmapped
aligned addresses, three of misaligned ones (R60, R65, R66, R69). -/
inductive AddrClass where
  | id
  | ctrl
  | status
  | bitWidth
  | spOffset
  | sampleIdx
  | bitIdx
  | anchorSample
  | anchorBit
  | nextSp
  | frame
  | offsets
  | acc
  | fieldStart
  | unmapped38
  | unmapped40
  | unmapped80
  | misaligned01
  | misaligned10
  | misaligned11
  deriving DecidableEq, Repr

/-- The class of an address: a misaligned class first, whatever the upper bits, then the mapped
registers, then the unmapped classes (R222). -/
def classOf (a : RegAddr) : AddrClass :=
  if addrLow a = 1#2 then .misaligned01
  else if addrLow a = 2#2 then .misaligned10
  else if addrLow a = 3#2 then .misaligned11
  else if a = 0x00#8 then .id
  else if a = 0x04#8 then .ctrl
  else if a = 0x08#8 then .status
  else if a = 0x0C#8 then .bitWidth
  else if a = 0x10#8 then .spOffset
  else if a = 0x14#8 then .sampleIdx
  else if a = 0x18#8 then .bitIdx
  else if a = 0x1C#8 then .anchorSample
  else if a = 0x20#8 then .anchorBit
  else if a = 0x24#8 then .nextSp
  else if a = 0x28#8 then .frame
  else if a = 0x2C#8 then .offsets
  else if a = 0x30#8 then .acc
  else if a = 0x34#8 then .fieldStart
  else if a.toNat < 0x40 then .unmapped38
  else if a.toNat < 0x80 then .unmapped40
  else .unmapped80

/-- The RD row of an address (R222). -/
def decodeReadAddr (a : RegAddr) : Instr :=
  match classOf a with
  | .id => .rdId
  | .ctrl => .rdCtrl
  | .status => .rdStatus
  | .bitWidth => .rdBitWidth
  | .spOffset => .rdSpOffset
  | .sampleIdx => .rdSampleIdx
  | .bitIdx => .rdBitIdx
  | .anchorSample => .rdAnchorSample
  | .anchorBit => .rdAnchorBit
  | .nextSp => .rdNextSp
  | .frame => .rdFrame
  | .offsets => .rdOffsets
  | .acc => .rdAcc
  | .fieldStart => .rdFieldStart
  | .unmapped38 => .rdUnmapped38 a
  | .unmapped40 => .rdUnmapped40 a
  | .unmapped80 => .rdUnmapped80 a
  | .misaligned01 => .rdMisaligned01 a
  | .misaligned10 => .rdMisaligned10 a
  | .misaligned11 => .rdMisaligned11 a

/-- The WR row of an address and its data (R237). -/
def decodeWriteAddr (a : RegAddr) (v : Word) : Instr :=
  match classOf a with
  | .id => .wrId v
  | .ctrl => .wrCtrl v
  | .status => .wrStatus v
  | .bitWidth => .wrBitWidth v
  | .spOffset => .wrSpOffset v
  | .sampleIdx => .wrSampleIdx v
  | .bitIdx => .wrBitIdx v
  | .anchorSample => .wrAnchorSample v
  | .anchorBit => .wrAnchorBit v
  | .nextSp => .wrNextSp v
  | .frame => .wrFrame v
  | .offsets => .wrOffsets v
  | .acc => .wrAcc v
  | .fieldStart => .wrFieldStart v
  | .unmapped38 => .wrUnmapped38 a v
  | .unmapped40 => .wrUnmapped40 a v
  | .unmapped80 => .wrUnmapped80 a v
  | .misaligned01 => .wrMisaligned01 a v
  | .misaligned10 => .wrMisaligned10 a v
  | .misaligned11 => .wrMisaligned11 a v

/-- The read part of a cycle word, present when `re = 1` (R81). -/
def decodeRead (w : CycleWord) : Option Instr :=
  if CycleWord.re w = 1#1 then some (decodeReadAddr (CycleWord.addr w)) else none

/-- The write part of a cycle word, present when `we = 1` (R81). -/
def decodeWrite (w : CycleWord) : Option Instr :=
  if CycleWord.we w = 1#1 then some (decodeWriteAddr (CycleWord.addr w) (CycleWord.wdata w)) else none

/-- The rows of the bus command that come before the sample step: its read row, or `NOP` when the
command is idle (R9, R81, R102). -/
def busRowsBefore (w : CycleWord) : List Instr :=
  match decodeRead w, decodeWrite w with
  | some rd, _ => [rd]
  | none, some _ => []
  | none, none => [.nop]

/-- The row of the bus command that comes after the sample step: its write row (R9, R81). -/
def busRowsAfter (w : CycleWord) : List Instr := (decodeWrite w).toList

/-- All rows a cycle word stands for, in the order in which R9 runs them. -/
def cycleRows (w : CycleWord) : List Instr := busRowsBefore w ++ decodeBeat w :: busRowsAfter w

/-- The handler row of an `fd_state` code (R83, Table F). -/
def decodeHandler (c : FdCode) : Instr :=
  match c.toNat with
  | 0 => .fdAwaitSof
  | 1 => .fdSof
  | 2 => .fdId
  | 3 => .fdCtrl
  | 4 => .fdLen
  | 5 => .fdData
  | 6 => .fdCrc
  | 7 => .fdCrcDel
  | 8 => .fdAck
  | 9 => .fdAckDel
  | 10 => .fdEof
  | 11 => .fdReserved11
  | _ => .fdReserved12 c

/-- The rows a word of either kind stands for. -/
def decodeRows : RowWord → List Instr
  | .cycle w => cycleRows w
  | .handler c => [decodeHandler c]

/-- The one row a cycle word is named after where a single row is asked for: the first active part in
the order of R9 (read, sample, write); of a wholly idle word `NOS` if its level bit is set, else `NOP`.
Log entry 9. -/
def principalRow (w : CycleWord) : Instr :=
  match decodeRead w, decodeBeat w, decodeWrite w with
  | some rd, _, _ => rd
  | none, .smpD, _ => .smpD
  | none, .smpR, _ => .smpR
  | none, _, some wr => wr
  | none, _, none => if CycleWord.sLevel w = recessive then .nos else .nop

/-- Why a number is no word of the opcode table. -/
inductive DecodeError where
  /-- Bits above the 44 of a cycle word are set (R103). -/
  | widerThanCycleWord
  /-- Bits above the 4 of an `fd_state` code are set (R83). -/
  | widerThanHandlerCode
  deriving DecidableEq, Repr

/-- The word a table number stands for: up to 8 bits an `fd_state` code, more a cycle word.
Total: every number decodes or is refused by name. Log entry 12. -/
def wordOfTable (nbits w : Nat) : Except DecodeError RowWord :=
  if nbits ≤ 8 then
    if w < 16 then .ok (.handler (BitVec.ofNat 4 w)) else .error .widerThanHandlerCode
  else
    if w < 2 ^ 44 then .ok (.cycle (BitVec.ofNat 44 w)) else .error .widerThanCycleWord

/-- The row a word is named after. -/
def rowOfWord : RowWord → Instr
  | .cycle w => principalRow w
  | .handler c => decodeHandler c

/-- The row the decoder reads from a table number of `nbits` bits. -/
def decodeTableWord (nbits w : Nat) : Option Instr :=
  match wordOfTable nbits w with
  | .ok rw => some (rowOfWord rw)
  | .error _ => none

/-! ### Encoding -/

/-- The word of a lone beat, the bus idle (R104: `SMP.D` 0b10, `SMP.R` 0b11, `NOS` 0b00). -/
def beatWord (sValid : BitVec 1) (sLevel : Level) : RowWord :=
  .cycle (CycleWord.make sValid sLevel 0#1 0#1 0#8 0#32)

/-- The word of a lone read (R104: `RD`). -/
def readWord (a : RegAddr) : RowWord := .cycle (CycleWord.make 0#1 0#1 0#1 1#1 a 0#32)

/-- The word of a lone write (R104: `WR`). -/
def writeWord (a : RegAddr) (v : Word) : RowWord := .cycle (CycleWord.make 0#1 0#1 1#1 0#1 a v)

/-- The word of a row, the other parts of its cycle idle (R80 to R83, Table A, Table F). -/
def encode : Instr → RowWord
  | .smpD => beatWord 1#1 0#1
  | .smpR => beatWord 1#1 1#1
  | .nos => beatWord 0#1 0#1
  | .nop => beatWord 0#1 0#1
  | .rdId => readWord 0x00#8
  | .wrId v => writeWord 0x00#8 v
  | .rdCtrl => readWord 0x04#8
  | .wrCtrl v => writeWord 0x04#8 v
  | .rdStatus => readWord 0x08#8
  | .wrStatus v => writeWord 0x08#8 v
  | .rdBitWidth => readWord 0x0C#8
  | .wrBitWidth v => writeWord 0x0C#8 v
  | .rdSpOffset => readWord 0x10#8
  | .wrSpOffset v => writeWord 0x10#8 v
  | .rdSampleIdx => readWord 0x14#8
  | .wrSampleIdx v => writeWord 0x14#8 v
  | .rdBitIdx => readWord 0x18#8
  | .wrBitIdx v => writeWord 0x18#8 v
  | .rdAnchorSample => readWord 0x1C#8
  | .wrAnchorSample v => writeWord 0x1C#8 v
  | .rdAnchorBit => readWord 0x20#8
  | .wrAnchorBit v => writeWord 0x20#8 v
  | .rdNextSp => readWord 0x24#8
  | .wrNextSp v => writeWord 0x24#8 v
  | .rdFrame => readWord 0x28#8
  | .wrFrame v => writeWord 0x28#8 v
  | .rdOffsets => readWord 0x2C#8
  | .wrOffsets v => writeWord 0x2C#8 v
  | .rdAcc => readWord 0x30#8
  | .wrAcc v => writeWord 0x30#8 v
  | .rdFieldStart => readWord 0x34#8
  | .wrFieldStart v => writeWord 0x34#8 v
  | .rdUnmapped38 a => readWord a
  | .wrUnmapped38 a v => writeWord a v
  | .rdUnmapped40 a => readWord a
  | .wrUnmapped40 a v => writeWord a v
  | .rdUnmapped80 a => readWord a
  | .wrUnmapped80 a v => writeWord a v
  | .rdMisaligned01 a => readWord a
  | .wrMisaligned01 a v => writeWord a v
  | .rdMisaligned10 a => readWord a
  | .wrMisaligned10 a v => writeWord a v
  | .rdMisaligned11 a => readWord a
  | .wrMisaligned11 a v => writeWord a v
  | .fdAwaitSof => .handler 0#4
  | .fdSof => .handler 1#4
  | .fdId => .handler 2#4
  | .fdCtrl => .handler 3#4
  | .fdLen => .handler 4#4
  | .fdData => .handler 5#4
  | .fdCrc => .handler 6#4
  | .fdCrcDel => .handler 7#4
  | .fdAck => .handler 8#4
  | .fdAckDel => .handler 9#4
  | .fdEof => .handler 10#4
  | .fdReserved11 => .handler 11#4
  | .fdReserved12 c => .handler c

/-- What part of a cycle a row is. -/
inductive Part where
  | beat
  | idleBus
  | read
  | write
  | handler
  deriving DecidableEq, Repr

/-- The part of a cycle each row is (30_encoding.md §1). -/
def partOf : Instr → Part
  | .smpD | .smpR | .nos => .beat
  | .nop => .idleBus
  | .rdId | .rdCtrl | .rdStatus | .rdBitWidth | .rdSpOffset | .rdSampleIdx | .rdBitIdx => .read
  | .rdAnchorSample | .rdAnchorBit | .rdNextSp | .rdFrame | .rdOffsets | .rdAcc | .rdFieldStart => .read
  | .rdUnmapped38 _ | .rdUnmapped40 _ | .rdUnmapped80 _ => .read
  | .rdMisaligned01 _ | .rdMisaligned10 _ | .rdMisaligned11 _ => .read
  | .wrId _ | .wrCtrl _ | .wrStatus _ | .wrBitWidth _ | .wrSpOffset _ | .wrSampleIdx _ => .write
  | .wrBitIdx _ | .wrAnchorSample _ | .wrAnchorBit _ | .wrNextSp _ | .wrFrame _ => .write
  | .wrOffsets _ | .wrAcc _ | .wrFieldStart _ => .write
  | .wrUnmapped38 _ _ | .wrUnmapped40 _ _ | .wrUnmapped80 _ _ => .write
  | .wrMisaligned01 _ _ | .wrMisaligned10 _ _ | .wrMisaligned11 _ _ => .write
  | .fdAwaitSof | .fdSof | .fdId | .fdCtrl | .fdLen | .fdData | .fdCrc => .handler
  | .fdCrcDel | .fdAck | .fdAckDel | .fdEof | .fdReserved11 | .fdReserved12 _ => .handler

/-- A row and the idle rows of the cycle it stands alone in, in the order of R9: what its own word is to
decode to. A handler row stands alone. -/
def withIdleParts (i : Instr) : List Instr :=
  match partOf i with
  | .beat => [.nop, i]
  | .idleBus => [i, .nos]
  | .read => [i, .nos]
  | .write => [.nos, i]
  | .handler => [i]

/-- A cycle word with its ignored bits cleared: the level of `NOS`, the data of a command that does
not write, the address of one that neither reads nor writes (R80, R81). -/
def CycleWord.canonical (w : CycleWord) : CycleWord :=
  CycleWord.make (CycleWord.sValid w)
    (if CycleWord.sValid w = 1#1 then CycleWord.sLevel w else 0#1)
    (CycleWord.we w) (CycleWord.re w)
    (if CycleWord.we w = 1#1 ∨ CycleWord.re w = 1#1 then CycleWord.addr w else 0#8)
    (if CycleWord.we w = 1#1 then CycleWord.wdata w else 0#32)

/-- Two parts of one cycle laid in one word: bits or-ed, since each row's word leaves the other parts
at 0 (R82; 95_test_vectors.md §9, P2). -/
def overlayRows : List Instr → CycleWord
  | [] => 0#44
  | i :: is =>
    match encode i with
    | .cycle w => w ||| overlayRows is
    | .handler _ => overlayRows is

end Sys2Proof
end

