-- ==== Sys2Proof/Config.lean ====
section
/-! DEFINITION. What the spec leaves to the platform: the one open parameter, `BUS_BYTE_ORDER` (00_scope.md R6 Table P; 92_eei_decisions.md D39). -/

namespace Sys2Proof

/-- The two byte orders a platform bridge may choose (D39). -/
inductive ByteOrder where
  | little
  | big
  deriving DecidableEq, Repr, Inhabited

/-- `BUS_BYTE_ORDER`, OPEN: the byte order of a byte-addressed bridge onto the word registers.
It has no body, so nothing can be proved of its value; no rule of the block reads it (R62, D39). Log entry 10. -/
opaque Config.busByteOrder : ByteOrder

end Sys2Proof
end

