-- ==== Sys2Proof/Machine/State.lean ====
section
/-! DEFINITION. The state of the block: Table S of 10_state.md (R22), the read-data port register and the list of coming cycle inputs; the output records (30_encoding.md R95 to R101); the reasons a step can stop; the state after power-on reset (70_reset_and_hazards.md R280). -/

namespace Sys2Proof.Machine

open Sys2Proof

/-- The BitSampler state (R25). -/
inductive BsState where
  | idle
  | sync
  deriving DecidableEq, Repr

/-- BitMark kinds (R97); code 3 is never emitted (I9). -/
inductive BitMarkKind where
  | ordinary
  | stuff
  | eod
  deriving DecidableEq, Repr

/-- FieldSpan kinds, in the order of their codes 0 to 15 (R99 Table K). -/
inductive FieldKind where
  | sof
  | id
  | fmt
  | rak
  | rw
  | rtr
  | rsv
  | brs
  | esi
  | len
  | data
  | crc
  | crcDel
  | ack
  | ackDel
  | eof
  deriving DecidableEq, Repr

/-- Warning codes 1 to 7 (R101 Table W); the other codes are never emitted (I9). -/
inductive WarningCode where
  | sofMismatch
  | idReserved
  | dlcClassic
  | crcDelDominant
  | notAcknowledged
  | ackDelDominant
  | eofDominant
  deriving DecidableEq, Repr

/-- A BitMark record (R96). -/
structure BitMark where
  kind : BitMarkKind
  value : Level
  raw : BitIdx
  log : BitIdx
  sample : Word
  start : Word
  stop : Word
  deriving DecidableEq, Repr

/-- A FieldSpan record (R98). -/
structure FieldSpan where
  kind : FieldKind
  start : Word
  stop : Word
  value : Word
  deriving DecidableEq, Repr

/-- A Warning record (R100). -/
structure Warning where
  code : WarningCode
  start : Word
  stop : Word
  deriving DecidableEq, Repr

/-- The state of the block: the elements of Table S, in its order and under its names, then `rdata`
and the model's own list of inputs. -/
structure State where
  /-- `en`: decoding enabled (R23, R224). -/
  en : Bool
  /-- `cfg_err`: sticky configuration error (R23, R252). -/
  cfgErr : Bool
  /-- `bit_width`: samples per bit, unsigned Q16.16 (R23, R226). -/
  bitWidth : Word
  /-- `sp_offset`: sample-point offset in a bit, unsigned Q16.16 (R23, R227). -/
  spOffset : Word
  /-- `anchor_s`: sample index of the last resynchronisation (R24). -/
  anchorS : Word
  /-- `anchor_b`: raw bit index of the last resynchronisation (R24). -/
  anchorB : BitIdx
  /-- `bs_state` (R25). -/
  bsState : BsState
  /-- `samp_idx`: index of the next accepted sample (R26). -/
  sampIdx : Word
  /-- `prev_level`: level of the last accepted sample (R27). -/
  prevLevel : Level
  /-- `raw_idx`: raw index of the bit being awaited (R28). -/
  rawIdx : BitIdx
  /-- `win`: the last five raw bits, newest in bit 0 (R29). -/
  win : BitVec 5
  /-- `log_idx`: logical index of the next logical bit (R30). -/
  logIdx : BitIdx
  /-- `fd_state`: the FrameDecoder state code, four bits as software reads them (R31, R83). -/
  fdState : FdCode
  /-- `acc`: the field accumulator (R32). -/
  acc : Word
  /-- `fld_start`: sample index of the current field's first bit (R33). -/
  fldStart : Word
  /-- `fmt`: 0 classic, 1 extended (R34, R174). -/
  fmt : BitVec 1
  /-- `ctrl4`: the four control bits, first bit in bit 3 (R34, R175). -/
  ctrl4 : BitVec 4
  /-- `dlc`: data length code (R34, R176). -/
  dlc : BitVec 4
  /-- `nbytes`: byte count `N` (R34, R176). -/
  nbytes : BitVec 7
  /-- `byte_cnt`: data bytes completed (R34, R180). -/
  byteCnt : BitVec 7
  /-- `crc_len`: CRC length `C` (R34, R178). -/
  crcLen : BitVec 5
  /-- `last_data`: `D`, logical index of the last data bit (R34, R178, R181). -/
  lastData : BitIdx
  /-- `out_bm`: the BitMark on its channel, `none` where `bm_valid = 0` (R238). -/
  outBm : Option BitMark
  /-- `out_fs`: the FieldSpan on its channel (R238). -/
  outFs : Option FieldSpan
  /-- `out_wn`: the Warning on its channel (R238). -/
  outWn : Option Warning
  /-- The registered `rdata` port (Table I, R220, R221). Log entry 8. -/
  rdata : Word
  /-- The coming cycle inputs, the next one first: the MODEL's own field for the input ports (R221).
  Log entry 1. -/
  inputs : List CycleInput
  deriving DecidableEq, Repr

/-- There are no faults: the block "has no trap", "no input encoding is illegal" and "no access
faults" (R253, R102). No constructor, so no step can end in one. -/
inductive Fault where
  deriving DecidableEq, Repr

/-- Why a step answers no next state. -/
inductive Refusal where
  /-- An instruction with no meaning in this model yet; raised by `exec` alone. Safe: nothing follows. -/
  | notModelled (mnemonic : String)
  /-- `fd_state` holds a reserved code 11 to 15 when a logical bit is to be dispatched on it; raised
  by the FD.reserved rows. "If a model's state holds one, it is outside the reachable set ..., and
  the model refuses it" (R83, I8). Safe: no run from reset reaches it, and nothing follows. -/
  | reservedFdState (code : FdCode)
  deriving DecidableEq, Repr

/-- The state after power-on reset, `ResetState` (R280, Table S column "rst"). -/
def State.reset : State where
  en := false
  cfgErr := false
  bitWidth := 0#32
  spOffset := 0#32
  anchorS := 0#32
  anchorB := 0#16
  bsState := .idle
  sampIdx := 0#32
  prevLevel := recessive
  rawIdx := 0#16
  win := 0#5
  logIdx := 0#16
  fdState := 0#4
  acc := 0#32
  fldStart := 0#32
  fmt := 0#1
  ctrl4 := 0#4
  dlc := 0#4
  nbytes := 0#7
  byteCnt := 0#7
  crcLen := 0#5
  lastData := 0#16
  outBm := none
  outFs := none
  outWn := none
  rdata := 0#32
  inputs := []

end Sys2Proof.Machine
end

