-- ==== Sys2Proof/Machine/Params.lean ====
section
/-! DEFINITION. The fixed numbers of the block: Table P (00_scope.md R6), Table F (30_encoding.md R83), Table M (20_memory.md R69) and the code tables of the output records (30_encoding.md R97, R99, R101). -/

namespace Sys2Proof.Machine

open Sys2Proof

/-- `ID_VALUE` (R223). -/
abbrev idValue : Word := 0x56414E01#32
/-- `MIN_BIT_WIDTH`, 1.0 sample per bit in Q16.16 (R252, D5). -/
abbrev minBitWidth : Word := 0x00010000#32
/-- `SOF_PATTERN` (R86, C1). -/
abbrev sofPattern : BitVec 10 := 0x03D#10
/-- `STUFF_EXEMPT`: raw indices up to this one are never stuff (R151). -/
abbrev stuffExempt : Nat := 10
/-- `STUFF_PERIOD` (R151). -/
abbrev stuffPeriod : Nat := 5
/-- The residue of a stuff position in its period (R151). -/
abbrev stuffResidue : Nat := 4
/-- The last logical index of SOF (R84 Table L). -/
abbrev sofLast : Nat := 9
/-- `ID_FIRST` (R87). -/
abbrev idFirst : Nat := 10
/-- The last logical index of the identifier (R87). -/
abbrev idLast : Nat := 23
/-- `CTRL_FIRST`, the format flag (R88). -/
abbrev ctrlFirst : Nat := 24
/-- The last control bit (R88). -/
abbrev ctrlLast : Nat := 27
/-- `LEN_FIRST` (R89). -/
abbrev lenFirst : Nat := 28
/-- The last bit of the length field (R89). -/
abbrev lenLast : Nat := 31
/-- `DATA_FIRST` (R90). -/
abbrev dataFirst : Nat := 32
/-- The last EOF bit counted from `E` (R93: EOF at `E + 4` to `E + 10`). -/
abbrev eofLastOffset : Nat := 10
/-- The first EOF bit counted from `E` (R93). -/
abbrev eofFirstOffset : Nat := 4

/-! ### FrameDecoder state codes (R83 Table F) -/

abbrev fdAwaitSofCode : FdCode := 0#4
abbrev fdSofCode : FdCode := 1#4
abbrev fdIdCode : FdCode := 2#4
abbrev fdCtrlCode : FdCode := 3#4
abbrev fdLenCode : FdCode := 4#4
abbrev fdDataCode : FdCode := 5#4
abbrev fdCrcCode : FdCode := 6#4
abbrev fdCrcDelCode : FdCode := 7#4
abbrev fdAckCode : FdCode := 8#4
abbrev fdAckDelCode : FdCode := 9#4
abbrev fdEofCode : FdCode := 10#4

/-! ### Register addresses (R69 Table M) -/

abbrev addrId : RegAddr := 0x00#8
abbrev addrCtrl : RegAddr := 0x04#8
abbrev addrStatus : RegAddr := 0x08#8
abbrev addrBitWidth : RegAddr := 0x0C#8
abbrev addrSpOffset : RegAddr := 0x10#8
abbrev addrSampleIdx : RegAddr := 0x14#8
abbrev addrBitIdx : RegAddr := 0x18#8
abbrev addrAnchorSample : RegAddr := 0x1C#8
abbrev addrAnchorBit : RegAddr := 0x20#8
abbrev addrNextSp : RegAddr := 0x24#8
abbrev addrFrame : RegAddr := 0x28#8
abbrev addrOffsets : RegAddr := 0x2C#8
abbrev addrAcc : RegAddr := 0x30#8
abbrev addrFieldStart : RegAddr := 0x34#8

/-! ### Codes of the output records -/

/-- The code of a BitMark kind (R97). -/
def bitMarkCode : BitMarkKind → BitVec 2
  | .ordinary => 0#2
  | .stuff => 1#2
  | .eod => 2#2

/-- The code of a FieldSpan kind (R99 Table K). -/
def fieldCode : FieldKind → BitVec 4
  | .sof => 0#4
  | .id => 1#4
  | .fmt => 2#4
  | .rak => 3#4
  | .rw => 4#4
  | .rtr => 5#4
  | .rsv => 6#4
  | .brs => 7#4
  | .esi => 8#4
  | .len => 9#4
  | .data => 10#4
  | .crc => 11#4
  | .crcDel => 12#4
  | .ack => 13#4
  | .ackDel => 14#4
  | .eof => 15#4

/-- The code of a warning (R101 Table W). -/
def warningCode : WarningCode → BitVec 4
  | .sofMismatch => 1#4
  | .idReserved => 2#4
  | .dlcClassic => 3#4
  | .crcDelDominant => 4#4
  | .notAcknowledged => 5#4
  | .ackDelDominant => 6#4
  | .eofDominant => 7#4

/-- The code of a BitSampler state (R25). -/
def bsCode : BsState → BitVec 1
  | .idle => 0#1
  | .sync => 1#1

end Sys2Proof.Machine
end

