-- ==== Sys2Proof/Machine/Operands.lean ====
section
/-! DEFINITION. The values an operation computes from its operands: sample points (40_sample_clock.md R120), stuff positions and the EOD window (41_destuffing.md R151, R154), bit-mark margins (30_encoding.md R96), the length and CRC tables (R91, R92), frame offsets (42_frame_decoder.md R171, R178), the host's configuration formulas (43_host_interface.md R241). -/

namespace Sys2Proof.Machine

open Sys2Proof

/-- One bit of a level, as a Bool flag in the register words. -/
def bitOf (b : Bool) : BitVec 1 := BitVec.ofBool b

/-! ### Sample clock -/

/-- `SP(b)` before its reduction: the exact sum of R120, floored. Log entry 6. -/
def spExact (anchorS : Word) (anchorB : BitIdx) (bitWidth spOffset : Word) (b : BitIdx) : Int :=
  (anchorS.toNat : Int) +
    ((bitWidth.toNat : Int) * ((b.toNat : Int) - (anchorB.toNat : Int)) + (spOffset.toNat : Int)) / 65536

/-- `SP(b)`, mod 2^32 (R120). -/
def samplePoint (anchorS : Word) (anchorB : BitIdx) (bitWidth spOffset : Word) (b : BitIdx) : Word :=
  BitVec.ofInt 32 (spExact anchorS anchorB bitWidth spOffset b)

/-- The whole samples of a Q16.16 value, `v >> 16` (R7, R94). -/
def wholeSamples (v : Word) : Word := v >>> 16

/-! ### De-stuffing -/

/-- A stuff position: `r > 10` and `r mod 5 = 4` (R151). -/
def isStuffPos (r : BitIdx) : Bool :=
  stuffExempt < r.toNat && r.toNat % stuffPeriod == stuffResidue

/-- The window with one more raw bit, newest in bit 0 (R150). -/
def shiftWindow (win : BitVec 5) (L : Level) : BitVec 5 := win.extractLsb' 0 4 ++ L

/-- The two newest raw bits are both 0 (R154). -/
def isEodWindow (win : BitVec 5) : Bool := win.extractLsb' 0 2 == 0#2

/-- The left end of a bit mark, `sample − (sp_offset >> 16)` mod 2^32 (R96). -/
def markStart (spOffset sample : Word) : Word := sample - wholeSamples spOffset

/-- The right end of a bit mark, `sample + ((bit_width − sp_offset mod 2^32) >> 16)` mod 2^32 (R96). -/
def markStop (bitWidth spOffset sample : Word) : Word := sample + wholeSamples (bitWidth - spOffset)

/-! ### Frame layout -/

/-- The byte count of a data length code, `DLC_TABLE` (R91 Table D). -/
def dlcTable (dlc : BitVec 4) : BitVec 7 :=
  match dlc.toNat with
  | 9 => 12#7
  | 10 => 16#7
  | 11 => 20#7
  | 12 => 24#7
  | 13 => 32#7
  | 14 => 48#7
  | 15 => 64#7
  | n => BitVec.ofNat 7 n

/-- The CRC length `C` of a format and byte count (R92 Table C, R178). -/
def crcLenOf (fmt : BitVec 1) (nbytes : BitVec 7) : BitVec 5 :=
  if fmt = 0#1 then 15#5 else if nbytes.toNat < 16 then 17#5 else 21#5

/-- `D = 31 + 8·N` (R178). -/
def lastDataOf (nbytes : BitVec 7) : BitIdx := BitVec.ofNat 16 (31 + 8 * nbytes.toNat)

/-- `E = D + C`, exact (R84, R171). -/
def crcEnd (lastData : BitIdx) (crcLen : BitVec 5) : Nat := lastData.toNat + crcLen.toNat

/-- Is `i` the first bit of a data byte or its last, by `(i − 32) mod 8`, exact (R171, R180). -/
def byteBit (i : BitIdx) : Int := ((i.toNat : Int) - 32) % 8

/-- Is `i` the first index of the field the FrameDecoder is in (R171)? The indices of the list of R171,
each taken in the state whose field it starts. Log entry 4. -/
def isFieldStart (fd : FdCode) (i lastData : BitIdx) (crcLen : BitVec 5) : Bool :=
  match fd.toNat with
  | 1 => i.toNat == 0
  | 2 => i.toNat == idFirst
  | 3 => i.toNat == ctrlFirst
  | 4 => i.toNat == lenFirst
  | 5 => byteBit i == 0
  | 6 => i.toNat == lastData.toNat + 1
  | 7 => i.toNat == crcEnd lastData crcLen + 1
  | 8 => i.toNat == crcEnd lastData crcLen + 2
  | 9 => i.toNat == crcEnd lastData crcLen + 3
  | 10 => i.toNat == crcEnd lastData crcLen + eofFirstOffset
  | _ => false

/-- `acc` with one more bit: `((acc << 1) | L) mod 2^32` (R171). -/
def shiftAcc (acc : Word) (L : Level) : Word := acc.extractLsb' 0 31 ++ L

/-- `acc[crc_len-1:0]` (R183). -/
def crcValue (acc : Word) (crcLen : BitVec 5) : Word :=
  BitVec.ofNat 32 (acc.toNat % 2 ^ crcLen.toNat)

/-- The span kind of control bit 25, 26 or 27 (R175). -/
def ctrlKind (fmt : BitVec 1) (i : BitIdx) : FieldKind :=
  if fmt = 0#1 then
    if i.toNat = 25 then .rak else if i.toNat = 26 then .rw else .rtr
  else
    if i.toNat = 25 then .rsv else if i.toNat = 26 then .brs else .esi

/-- The value of a LEN span: `N` at `[14:8]`, the DLC at `[3:0]` (R99, R176). -/
def lenValue (nbytes : BitVec 7) (dlc : BitVec 4) : Word :=
  ((0#17 ++ nbytes ++ 0#4 ++ dlc : BitVec (17 + 7 + 4 + 4))).cast rfl

/-- The value of a DATA span: the byte index at `[14:8]`, the byte at `[7:0]` (R99, R180). -/
def dataValue (byteCnt : BitVec 7) (byte : BitVec 8) : Word :=
  ((0#17 ++ byteCnt ++ byte : BitVec (17 + 7 + 8))).cast rfl

/-- A single bit as a span value (R99). -/
def bitValue (L : Level) : Word := L.setWidth 32

/-! ### The host's formulas (R241) -/

/-- `BIT_WIDTH = floor(sampleRate * 65536 / nominalBitrate)` (R241). -/
def hostBitWidth (sampleRate nominalBitrate : Nat) : Nat := sampleRate * 65536 / nominalBitrate

/-- `SP_OFFSET = floor(sampleRate * samplePointPercent * 65536 / (100 * nominalBitrate))` (R241),
the percentage a fraction `num / den`. -/
def hostSpOffset (sampleRate percentNum percentDen nominalBitrate : Nat) : Nat :=
  sampleRate * percentNum * 65536 / (100 * nominalBitrate * percentDen)

end Sys2Proof.Machine
end

