-- ==== Sys2Proof/Machine/Flags.lean ====
section
/-! DEFINITION. The conditions the block computes: RUN (10_state.md R23), the dominant-going edge (40_sample_clock.md R125), the configuration check (60_exceptions.md R252) and the seven warning conditions (60_exceptions.md R251). -/

namespace Sys2Proof.Machine

open Sys2Proof

/-- RUN: `en = 1 and cfg_err = 0` (R23, R36). -/
def State.run (s : State) : Bool := s.en && !s.cfgErr

/-- A dominant-going edge: the sample is 0 and the last accepted one was 1 (R125). -/
def isEdge (prevLevel L : Level) : Bool := prevLevel == recessive && L == dominant

/-- Fewer than one sample per bit (R252). -/
def tooNarrow (bitWidth : Word) : Bool := bitWidth.toNat < minBitWidth.toNat

/-- Warning 1: the ten SOF bits are not 0x3D (R172). -/
def sofMismatch (v : BitVec 10) : Bool := v != sofPattern

/-- Warning 2: identifier bits 13:7 are all recessive (R173). -/
def idReserved (v : BitVec 14) : Bool := v.extractLsb' 7 7 == 0x7F#7

/-- Warning 3: a classic frame with DLC above 8 (R177). -/
def dlcTooLong (fmt : BitVec 1) (dlc : BitVec 4) : Bool := fmt == 0#1 && 8 < dlc.toNat

/-- Warnings 4, 6 and 7: a delimiter or EOF bit is dominant (R184, R186, R187). -/
def isDominant (L : Level) : Bool := L == dominant

/-- Warning 5: the ACK slot is recessive (R185). -/
def isRecessive (L : Level) : Bool := L == recessive

end Sys2Proof.Machine
end

