-- ==== Sys2Proof/Machine/Ops.lean ====
section
/-! DEFINITION. The operations every meaning is built from: sequencing, the clock of a cycle, the sample clock, emitting records, the configuration error and the resets (00_scope.md R8, R9; 40_sample_clock.md R121; 60_exceptions.md R252; 70_reset_and_hazards.md R280 to R282). -/

namespace Sys2Proof.Machine

open Sys2Proof

/-- What a meaning answers. -/
abbrev Result := Host.Outcome State Fault Refusal

/-- One part of a step, then the next part on the state it leaves (R8, R9). -/
def andThen (o : Result) (f : State → Result) : Result :=
  match o with
  | .next s => f s
  | .fault r => .fault r
  | .refused r => .refused r

/-! ### The clock of a cycle -/

/-- The input of the coming cycle; an idle one where none is listed (log entry 1). -/
def nextInput (s : State) : CycleInput := s.inputs.headD CycleInput.idle

/-- The state with the coming cycle's input taken. -/
def takeInput (s : State) : State := { s with inputs := s.inputs.tail }

/-- The registered outputs at the start of a cycle: no record on any channel, `rdata = 0`. A channel that
emits nothing shows `valid = 0` (R238), and a cycle with `re = 0` leaves `rdata = 0` (R81, R221). -/
def beginCycle (s : State) : State :=
  { s with outBm := none, outFs := none, outWn := none, rdata := 0#32 }

/-- A cycle with `rst = 1`: the next state is `ResetState`, beat and command ignored (R221, R280). The
coming inputs are the environment's, and stay. -/
def resetCycle (s : State) : State := { State.reset with inputs := s.inputs }

/-! ### Sample clock -/

/-- `SP(b)` on the state's anchor and configuration (R120). -/
def sp (s : State) (b : BitIdx) : Word := samplePoint s.anchorS s.anchorB s.bitWidth s.spOffset b

/-- `recordEdge(n, b)` (R121). -/
def recordEdge (n : Word) (b : BitIdx) (s : State) : State := { s with anchorS := n, anchorB := b }

/-! ### Records -/

/-- Emit a BitMark of the bit at raw index `r`, with the logical index `log_idx` as it stands and the
display range of R96, for the sample being processed (R150). -/
def emitMark (kind : BitMarkKind) (L : Level) (r : BitIdx) (s : State) : State :=
  { s with
    outBm := some
      { kind := kind
        value := L
        raw := r
        log := s.logIdx
        sample := s.sampIdx
        start := markStart s.spOffset s.sampIdx
        stop := markStop s.bitWidth s.spOffset s.sampIdx } }

/-- Emit a FieldSpan (R98). -/
def emitSpan (kind : FieldKind) (start stop value : Word) (s : State) : State :=
  { s with outFs := some ⟨kind, start, stop, value⟩ }

/-- Emit a Warning if its condition holds (R100, R251). -/
def emitWarningIf (c : Bool) (code : WarningCode) (start stop : Word) (s : State) : State :=
  if c then { s with outWn := some ⟨code, start, stop⟩ } else s

/-! ### The configuration error, and the resets

The block's one exceptional condition is the configuration error, a sticky bit (R250, R252): raising it
sets the bit, saves nothing and goes nowhere (R253), and the way back is a disable. -/

/-- `raise ConfigError` (R252). -/
def raiseConfigError (s : State) : State := { s with cfgErr := true }

/-- Frame end: FrameContext destroyed, BitSampler reset; `en`, `cfg_err`, the configuration, the anchor,
`samp_idx`, `prev_level` and the records are kept (R188, R282, Table S column "frame end"). -/
def frameEnd (s : State) : State :=
  { s with
    fdState := fdAwaitSofCode
    logIdx := 0#16
    rawIdx := 0#16
    win := 0#5
    acc := 0#32
    fldStart := 0#32
    fmt := 0#1
    ctrl4 := 0#4
    dlc := 0#4
    nbytes := 0#7
    byteCnt := 0#7
    crcLen := 0#5
    lastData := 0#16
    bsState := .idle }

/-- `DatapathReset`: the EN=0 column of Table S; the configuration is kept and records drain (R224, R281). -/
def datapathReset (s : State) : State :=
  { frameEnd s with
    anchorS := 0#32
    anchorB := 0#16
    sampIdx := 0#32
    prevLevel := recessive }

/-- Disable: a CTRL write with bit 0 = 0 (R224, R281). -/
def disable (s : State) : State := datapathReset { s with en := false, cfgErr := false }

/-- Enable: a CTRL write with bit 0 = 1 while disabled, with the configuration check (R224, R252). -/
def enable (s : State) : State :=
  if tooNarrow s.bitWidth then raiseConfigError { s with en := true } else { s with en := true }

end Sys2Proof.Machine
end

