-- ==== Sys2Proof/Machine/FrameDecoder.lean ====
section
/-! DEFINITION. The FrameDecoder: one meaning per handler row, accumulation, dispatch and the end-of-data entry (42_frame_decoder.md R170 to R191). -/

namespace Sys2Proof.Machine

open Sys2Proof

/-! ### The operands of a handler

`Decode(i, L, n)` is called after `log_idx <- i + 1` (R150), after the bit entered `win[0]` (R150) and
before `samp_idx` advances (R124, R132); the taken bit's raw index is one below `raw_idx` (R131). So the
handler's operands stand in the state. Log entry 3. -/

/-- `i`, the logical index of the bit being decoded. -/
def bitIndex (s : State) : BitIdx := s.logIdx - 1#16

/-- `L`, its level. -/
def bitLevel (s : State) : Level := s.win.extractLsb' 0 1

/-- `n`, its sample index. -/
def bitSample (s : State) : Word := s.sampIdx

/-- The raw bit just taken is an EOD marker: a stuff position whose window shows EOD (R154). -/
def eodTaken (s : State) : Bool := isStuffPos (s.rawIdx - 1#16) && isEodWindow s.win

/-! ### Accumulation -/

/-- `Accumulate(i, L, n)` (R171). -/
def accumulate (s : State) : State :=
  if isFieldStart s.fdState (bitIndex s) s.lastData s.crcLen then
    { s with fldStart := bitSample s, acc := (bitLevel s).setWidth 32 }
  else
    { s with acc := shiftAcc s.acc (bitLevel s) }

/-! ### The handlers -/

/-- FD.AWAIT_SOF: the frame begins; the state becomes SOF, and the bit is left to the SOF handler (R170). -/
def execFdAwaitSof (s : State) : Result := .next { s with fdState := fdSofCode }

/-- The end of the SOF field: span, warning 1, on to ID (R172). -/
def sofDone (s : State) : State :=
  let v := s.acc.extractLsb' 0 10
  { emitWarningIf (sofMismatch v) .sofMismatch s.fldStart (bitSample s)
      (emitSpan .sof s.fldStart (bitSample s) (v.setWidth 32) s) with
    fdState := fdIdCode }

/-- FD.SOF (R172). -/
def execFdSof (s : State) : Result :=
  .next (if (bitIndex s).toNat = sofLast then sofDone s else s)

/-- The end of the identifier: span, warning 2, on to CTRL (R173). -/
def idDone (s : State) : State :=
  let v := s.acc.extractLsb' 0 14
  { emitWarningIf (idReserved v) .idReserved s.fldStart (bitSample s)
      (emitSpan .id s.fldStart (bitSample s) (v.setWidth 32) s) with
    fdState := fdCtrlCode }

/-- FD.ID (R173). -/
def execFdId (s : State) : Result :=
  .next (if (bitIndex s).toNat = idLast then idDone s else s)

/-- The format flag, logical bit 24 (R174). -/
def formatFlag (s : State) : State :=
  emitSpan .fmt (bitSample s) (bitSample s) (bitValue (bitLevel s)) { s with fmt := bitLevel s }

/-- A control bit, logical bit 25, 26 or 27 (R175). -/
def controlBit (s : State) : State :=
  emitSpan (ctrlKind s.fmt (bitIndex s)) (bitSample s) (bitSample s) (bitValue (bitLevel s)) s

/-- The end of the control field: the four bits are kept, on to LEN (R175). -/
def ctrlDone (s : State) : State :=
  { s with ctrl4 := s.acc.extractLsb' 0 4, fdState := fdLenCode }

/-- FD.CTRL (R174, R175). -/
def execFdCtrl (s : State) : Result :=
  .next
    (if (bitIndex s).toNat = ctrlFirst then formatFlag s
     else if (bitIndex s).toNat = ctrlLast then ctrlDone (controlBit s)
     else if ctrlFirst < (bitIndex s).toNat ∧ (bitIndex s).toNat < ctrlLast then controlBit s
     else s)

/-- The end of the length field: DLC, byte count, span, warning 3, offsets, on to DATA or CRC
(R176 to R178). -/
def lenDone (s : State) : State :=
  let dlc := s.acc.extractLsb' 0 4
  let n := dlcTable dlc
  { emitWarningIf (dlcTooLong s.fmt dlc) .dlcClassic s.fldStart (bitSample s)
      (emitSpan .len s.fldStart (bitSample s) (lenValue n dlc) s) with
    dlc := dlc
    nbytes := n
    crcLen := crcLenOf s.fmt n
    lastData := lastDataOf n
    fdState := if 0 < n.toNat then fdDataCode else fdCrcCode }

/-- FD.LEN (R176 to R178). -/
def execFdLen (s : State) : Result :=
  .next (if (bitIndex s).toNat = lenLast then lenDone s else s)

/-- A completed data byte: span, and one more byte counted (R180). -/
def byteDone (s : State) : State :=
  { emitSpan .data s.fldStart (bitSample s) (dataValue s.byteCnt (s.acc.extractLsb' 0 8)) s with
    byteCnt := s.byteCnt + 1#7 }

/-- A logical bit in DATA (R179, R180). -/
def dataBit (s : State) : State :=
  let s₁ := if byteBit (bitIndex s) = 7 then byteDone s else s
  if (bitIndex s₁).toNat = s₁.lastData.toNat then { s₁ with fdState := fdCrcCode } else s₁

/-- An EOD marker in DATA: the field ends at the last data bit received, a partial byte is dropped
(R181). -/
def dataEod (s : State) : State :=
  { s with lastData := s.logIdx - 1#16, acc := 0#32, fdState := fdCrcCode }

/-- FD.DATA: its two entries, a logical bit (R179, R180) and an EOD marker (R181), told apart by the raw
bit just taken. Log entry 3. -/
def execFdData (s : State) : Result :=
  .next (if eodTaken s then dataEod s else dataBit s)

/-- The end of the CRC: span, on to its delimiter (R183). -/
def crcDone (s : State) : State :=
  { emitSpan .crc s.fldStart (bitSample s) (crcValue s.acc s.crcLen) s with fdState := fdCrcDelCode }

/-- FD.CRC (R183). -/
def execFdCrc (s : State) : Result :=
  .next (if (bitIndex s).toNat = crcEnd s.lastData s.crcLen then crcDone s else s)

/-- A single-bit field: its span, its warning, the next state (R184 to R186). -/
def singleBit (kind : FieldKind) (c : Bool) (code : WarningCode) (next : FdCode) (s : State) : State :=
  { emitWarningIf c code (bitSample s) (bitSample s)
      (emitSpan kind (bitSample s) (bitSample s) (bitValue (bitLevel s)) s) with
    fdState := next }

/-- FD.CRC_DEL (R184). -/
def execFdCrcDel (s : State) : Result :=
  .next (singleBit .crcDel (isDominant (bitLevel s)) .crcDelDominant fdAckCode s)

/-- FD.ACK (R185). -/
def execFdAck (s : State) : Result :=
  .next (singleBit .ack (isRecessive (bitLevel s)) .notAcknowledged fdAckDelCode s)

/-- FD.ACK_DEL (R186). -/
def execFdAckDel (s : State) : Result :=
  .next (singleBit .ackDel (isDominant (bitLevel s)) .ackDelDominant fdEofCode s)

/-- Warning 7 on a dominant EOF bit (R187). -/
def eofBit (s : State) : State :=
  emitWarningIf (isDominant (bitLevel s)) .eofDominant (bitSample s) (bitSample s) s

/-- The end of the frame: the EOF span, then frame end (R188). -/
def eofDone (s : State) : State :=
  frameEnd (emitSpan .eof s.fldStart (bitSample s) ((s.acc.extractLsb' 0 7).setWidth 32) s)

/-- FD.EOF (R187, then R188 in the same step). -/
def execFdEof (s : State) : Result :=
  .next
    (if (bitIndex s).toNat = crcEnd s.lastData s.crcLen + eofLastOffset then eofDone (eofBit s)
     else eofBit s)

/-- FD.reserved 11: refused (R83, I8). -/
def execFdReserved11 (_ : State) : Result := .refused (.reservedFdState 11#4)

/-- FD.reserved 12-15: refused (R83, I8). -/
def execFdReserved12 (code : FdCode) (_ : State) : Result := .refused (.reservedFdState code)

/-! ### The two entry points -/

/-- The handler row that `fd_state` selects, run (R170, R83 Table F). -/
def runHandler (s : State) : Result :=
  match s.fdState.toNat with
  | 0 => execFdAwaitSof s
  | 1 => execFdSof s
  | 2 => execFdId s
  | 3 => execFdCtrl s
  | 4 => execFdLen s
  | 5 => execFdData s
  | 6 => execFdCrc s
  | 7 => execFdCrcDel s
  | 8 => execFdAck s
  | 9 => execFdAckDel s
  | 10 => execFdEof s
  | 11 => execFdReserved11 s
  | _ => execFdReserved12 s.fdState s

/-- Leaving AWAIT_SOF, where a frame begins (R170). -/
def leaveAwaitSof (s : State) : Result :=
  if s.fdState = fdAwaitSofCode then execFdAwaitSof s else .next s

/-- `Decode(i, L, n)`: leave AWAIT_SOF, accumulate, run the handler of the state (R170). -/
def decodeBit (s : State) : Result :=
  andThen (leaveAwaitSof s) fun s₁ => runHandler (accumulate s₁)

/-- `FrameEOD()`: acts in DATA (R181) and in no other state (R182). -/
def frameEod (s : State) : Result :=
  if s.fdState = fdDataCode then execFdData s else .next s

end Sys2Proof.Machine
end

