-- ==== Sys2Proof/Machine/Destuffing.lean ====
section
/-! DEFINITION. The DestuffingFilter: `Destuff(r, L, n)` sorts each raw bit into ordinary, stuff or end-of-data (41_destuffing.md R150 to R157). -/

namespace Sys2Proof.Machine

open Sys2Proof

/-- A stuff position: an EOD marker if the window shows it, else an ordinary stuff bit, whose value is not
checked and which changes nothing more (R153, R154). -/
def stuffBit (r : BitIdx) (L : Level) (s : State) : Result :=
  if isEodWindow s.win then frameEod (emitMark .eod L r s) else .next (emitMark .stuff L r s)

/-- A logical bit: it takes the logical index `log_idx`, and the FrameDecoder decodes it (R152). -/
def logicalBit (r : BitIdx) (L : Level) (s : State) : Result :=
  decodeBit { emitMark .ordinary L r s with logIdx := s.logIdx + 1#16 }

/-- `Destuff(r, L, n)`, with `n` the sample being processed (R150). -/
def destuff (r : BitIdx) (L : Level) (s : State) : Result :=
  let s₁ := { s with win := shiftWindow s.win L }
  if isStuffPos r then stuffBit r L s₁ else logicalBit r L s₁

end Sys2Proof.Machine
end

