-- ==== Sys2Proof/Machine/BitSampler.lean ====
section
/-! DEFINITION. The BitSampler and the format S rows `SMP.D`, `SMP.R` and `NOS` (40_sample_clock.md R124 to R134). -/

namespace Sys2Proof.Machine

open Sys2Proof

/-- `TakeBit(L, n)`: the raw bit at `raw_idx`, handed to the filter (R131). -/
def takeBit (L : Level) (s : State) : Result :=
  destuff s.rawIdx L { s with rawIdx := s.rawIdx + 1#16 }

/-- The bit at `raw_idx` if its sample point is the sample being processed, else a wait (R127, R129). -/
def takeIfDue (L : Level) (s : State) : Result :=
  if sp s s.rawIdx = s.sampIdx then takeBit L s else .next s

/-- A sample in IDLE: a dominant one forces a resynchronisation and starts a frame (R126, R129). -/
def sampleIdle (L : Level) (s : State) : Result :=
  if L = dominant then
    takeIfDue L { recordEdge s.sampIdx 0#16 s with rawIdx := 0#16, bsState := .sync }
  else .next s

/-- A sample in SYNC: the sample point is taken as the bit; else an edge resynchronises; else a wait
(R127 to R130). -/
def sampleSync (L : Level) (s : State) : Result :=
  if sp s s.rawIdx = s.sampIdx then takeBit L s
  else if isEdge s.prevLevel L then takeIfDue L (recordEdge s.sampIdx s.rawIdx s)
  else .next s

/-- The end of every accepted sample (R132). -/
def sampleEnd (L : Level) (n : Word) (s : State) : State :=
  { s with prevLevel := L, sampIdx := n + 1#32 }

/-- An accepted sample: the BitSampler's state decides, then the sample is counted (R124, R132). -/
def acceptedSample (L : Level) (s : State) : Result :=
  andThen
    (match s.bsState with
     | .idle => sampleIdle L s
     | .sync => sampleSync L s)
    fun s₁ => .next (sampleEnd L s.sampIdx s₁)

/-- `SampleStep(L)`: a sample while RUN is false is discarded (R124). -/
def sampleStep (L : Level) (s : State) : Result :=
  if s.run then acceptedSample L s else .next s

/-- `SMP.D`: a dominant sample (R124). -/
def execSmpD (s : State) : Result := sampleStep dominant s

/-- `SMP.R`: a recessive sample (R124). -/
def execSmpR (s : State) : Result := sampleStep recessive s

/-- `NOS`: no sample, no change (R124). -/
def execNos (s : State) : Result := .next s

end Sys2Proof.Machine
end

