-- ==== Sys2Proof/Machine/Registers.lean ====
section
/-! DEFINITION. The register space: what each register reads as, and the two memory primitives of the block, `RegRead` and `RegWrite` (43_host_interface.md R222 to R237; 20_memory.md R60 to R69). -/

namespace Sys2Proof.Machine

open Sys2Proof

/-! ### The registers, each as the 32-bit word a read gives -/

/-- `ID`: constant (R223). -/
def idWord (_ : State) : Word :=
  idValue

/-- `CTRL`: `[0] EN`, the rest 0 (R224). -/
def ctrlWord (s : State) : Word :=
  (0#31 ++ bitOf s.en : BitVec (31 + 1)).cast rfl

/-- `STATUS`: CFG_ERR, RUN, BS_SYNC, FD_STATE at bits 0, 1, 2, 7:4 (R225). -/
def statusWord (s : State) : Word :=
  (0#24 ++ s.fdState ++ 0#1 ++ bsCode s.bsState ++ bitOf s.run ++ bitOf s.cfgErr :
    BitVec (24 + 4 + 1 + 1 + 1 + 1)).cast rfl

/-- `BIT_WIDTH`: all 32 bits (R226). -/
def bitWidthWord (s : State) : Word :=
  s.bitWidth

/-- `SP_OFFSET`: all 32 bits (R227). -/
def spOffsetWord (s : State) : Word :=
  s.spOffset

/-- `SAMPLE_IDX`: `samp_idx` (R228). -/
def sampleIdxWord (s : State) : Word :=
  s.sampIdx

/-- `BIT_IDX`: `[15:0] RAW_IDX`, `[31:16] LOG_IDX` (R229). -/
def bitIdxWord (s : State) : Word :=
  (s.logIdx ++ s.rawIdx : BitVec (16 + 16)).cast rfl

/-- `ANCHOR_SAMPLE`: `anchor_s` (R230). -/
def anchorSampleWord (s : State) : Word :=
  s.anchorS

/-- `ANCHOR_BIT`: `[15:0] ANCHOR_BIT`, the rest 0 (R231). -/
def anchorBitWord (s : State) : Word :=
  (0#16 ++ s.anchorB : BitVec (16 + 16)).cast rfl

/-- `NEXT_SP`: `SP(raw_idx)` in SYNC, 0 in IDLE (R232). -/
def nextSpWord (s : State) : Word :=
  match s.bsState with
  | .sync => sp s s.rawIdx
  | .idle => 0#32

/-- `FRAME`: CTRL4, FMT, DLC, NBYTES, BYTE_CNT at bits 3:0, 4, 11:8, 18:12, 26:20 (R233). -/
def frameWord (s : State) : Word :=
  (0#5 ++ s.byteCnt ++ 0#1 ++ s.nbytes ++ s.dlc ++ 0#3 ++ s.fmt ++ s.ctrl4 :
    BitVec (5 + 7 + 1 + 7 + 4 + 3 + 1 + 4)).cast rfl

/-- `OFFSETS`: `[15:0] LAST_DATA`, `[20:16] CRC_LEN`, the rest 0 (R234). -/
def offsetsWord (s : State) : Word :=
  (0#11 ++ s.crcLen ++ s.lastData : BitVec (11 + 5 + 16)).cast rfl

/-- `ACC`: `acc` (R235). -/
def accWord (s : State) : Word :=
  s.acc

/-- `FIELD_START`: `fld_start` (R236). -/
def fieldStartWord (s : State) : Word :=
  s.fldStart

/-! ### The memory primitives -/

/-- `RegRead(a)`: 0 at a misaligned or unmapped address, else the register (R65, R66, R222). -/
def regRead (a : RegAddr) (s : State) : Word :=
  if a.extractLsb' 0 2 ≠ 0#2 then 0#32
  else if a = addrId then idWord s
  else if a = addrCtrl then ctrlWord s
  else if a = addrStatus then statusWord s
  else if a = addrBitWidth then bitWidthWord s
  else if a = addrSpOffset then spOffsetWord s
  else if a = addrSampleIdx then sampleIdxWord s
  else if a = addrBitIdx then bitIdxWord s
  else if a = addrAnchorSample then anchorSampleWord s
  else if a = addrAnchorBit then anchorBitWord s
  else if a = addrNextSp then nextSpWord s
  else if a = addrFrame then frameWord s
  else if a = addrOffsets then offsetsWord s
  else if a = addrAcc then accWord s
  else if a = addrFieldStart then fieldStartWord s
  else 0#32

/-- `CtrlWrite(v)`: bit 0 = 0 disables; bit 0 = 1 enables, if disabled; the other bits are ignored (R224). -/
def ctrlWrite (v : Word) (s : State) : State :=
  if v.extractLsb' 0 1 = 0#1 then disable s
  else if s.en then s
  else enable s

/-- A `BIT_WIDTH` write: all 32 bits, only while disabled (R226). -/
def bitWidthWrite (v : Word) (s : State) : State := if s.en then s else { s with bitWidth := v }

/-- An `SP_OFFSET` write: all 32 bits, only while disabled (R227). -/
def spOffsetWrite (v : Word) (s : State) : State := if s.en then s else { s with spOffset := v }

/-- `RegWrite(a, v)`: only CTRL, BIT_WIDTH and SP_OFFSET take a write (R66, R237). -/
def regWrite (a : RegAddr) (v : Word) (s : State) : State :=
  if a.extractLsb' 0 2 ≠ 0#2 then s
  else if a = addrCtrl then ctrlWrite v s
  else if a = addrBitWidth then bitWidthWrite v s
  else if a = addrSpOffset then spOffsetWrite v s
  else s

/-- The read part of a cycle: the value goes to the `rdata` port (R81, R221). -/
def busRead (a : RegAddr) (s : State) : State := { s with rdata := regRead a s }

end Sys2Proof.Machine
end

