-- ==== Sys2Proof/Machine/HostInterface.lean ====
section
/-! DEFINITION. The format B rows: `NOP`, and the read and the write of every register and address class (43_host_interface.md R221 to R237; 20_memory.md R65, R66). -/

namespace Sys2Proof.Machine

open Sys2Proof

/-- `NOP`: no read, no write (R221). -/
def execNop (s : State) : Result := .next s

/-- `RD ID` (R223). -/
def execRdId (s : State) : Result := .next (busRead addrId s)

/-- `WR ID` (R66, R237: read-only, ignored). -/
def execWrId (v : Word) (s : State) : Result := .next (regWrite addrId v s)

/-- `RD CTRL` (R224). -/
def execRdCtrl (s : State) : Result := .next (busRead addrCtrl s)

/-- `WR CTRL` (R224). -/
def execWrCtrl (v : Word) (s : State) : Result := .next (regWrite addrCtrl v s)

/-- `RD STATUS` (R225). -/
def execRdStatus (s : State) : Result := .next (busRead addrStatus s)

/-- `WR STATUS` (R66, R237: read-only, ignored). -/
def execWrStatus (v : Word) (s : State) : Result := .next (regWrite addrStatus v s)

/-- `RD BIT_WIDTH` (R226). -/
def execRdBitWidth (s : State) : Result := .next (busRead addrBitWidth s)

/-- `WR BIT_WIDTH` (R226). -/
def execWrBitWidth (v : Word) (s : State) : Result := .next (regWrite addrBitWidth v s)

/-- `RD SP_OFFSET` (R227). -/
def execRdSpOffset (s : State) : Result := .next (busRead addrSpOffset s)

/-- `WR SP_OFFSET` (R227). -/
def execWrSpOffset (v : Word) (s : State) : Result := .next (regWrite addrSpOffset v s)

/-- `RD SAMPLE_IDX` (R228). -/
def execRdSampleIdx (s : State) : Result := .next (busRead addrSampleIdx s)

/-- `WR SAMPLE_IDX` (R66, R237: read-only, ignored). -/
def execWrSampleIdx (v : Word) (s : State) : Result := .next (regWrite addrSampleIdx v s)

/-- `RD BIT_IDX` (R229). -/
def execRdBitIdx (s : State) : Result := .next (busRead addrBitIdx s)

/-- `WR BIT_IDX` (R66, R237: read-only, ignored). -/
def execWrBitIdx (v : Word) (s : State) : Result := .next (regWrite addrBitIdx v s)

/-- `RD ANCHOR_SAMPLE` (R230). -/
def execRdAnchorSample (s : State) : Result := .next (busRead addrAnchorSample s)

/-- `WR ANCHOR_SAMPLE` (R66, R237: read-only, ignored). -/
def execWrAnchorSample (v : Word) (s : State) : Result := .next (regWrite addrAnchorSample v s)

/-- `RD ANCHOR_BIT` (R231). -/
def execRdAnchorBit (s : State) : Result := .next (busRead addrAnchorBit s)

/-- `WR ANCHOR_BIT` (R66, R237: read-only, ignored). -/
def execWrAnchorBit (v : Word) (s : State) : Result := .next (regWrite addrAnchorBit v s)

/-- `RD NEXT_SP` (R232). -/
def execRdNextSp (s : State) : Result := .next (busRead addrNextSp s)

/-- `WR NEXT_SP` (R66, R237: read-only, ignored). -/
def execWrNextSp (v : Word) (s : State) : Result := .next (regWrite addrNextSp v s)

/-- `RD FRAME` (R233). -/
def execRdFrame (s : State) : Result := .next (busRead addrFrame s)

/-- `WR FRAME` (R66, R237: read-only, ignored). -/
def execWrFrame (v : Word) (s : State) : Result := .next (regWrite addrFrame v s)

/-- `RD OFFSETS` (R234). -/
def execRdOffsets (s : State) : Result := .next (busRead addrOffsets s)

/-- `WR OFFSETS` (R66, R237: read-only, ignored). -/
def execWrOffsets (v : Word) (s : State) : Result := .next (regWrite addrOffsets v s)

/-- `RD ACC` (R235). -/
def execRdAcc (s : State) : Result := .next (busRead addrAcc s)

/-- `WR ACC` (R66, R237: read-only, ignored). -/
def execWrAcc (v : Word) (s : State) : Result := .next (regWrite addrAcc v s)

/-- `RD FIELD_START` (R236). -/
def execRdFieldStart (s : State) : Result := .next (busRead addrFieldStart s)

/-- `WR FIELD_START` (R66, R237: read-only, ignored). -/
def execWrFieldStart (v : Word) (s : State) : Result := .next (regWrite addrFieldStart v s)

/-- A read of an unmapped address, 0x38 or 0x3C (R66, R222). -/
def execRdUnmapped38 (a : RegAddr) (s : State) : Result := .next (busRead a s)

/-- A write of an unmapped address, 0x38 or 0x3C (R66, R237). -/
def execWrUnmapped38 (a : RegAddr) (v : Word) (s : State) : Result := .next (regWrite a v s)

/-- A read of an unmapped address, 0x40 to 0x7C (R66, R222). -/
def execRdUnmapped40 (a : RegAddr) (s : State) : Result := .next (busRead a s)

/-- A write of an unmapped address, 0x40 to 0x7C (R66, R237). -/
def execWrUnmapped40 (a : RegAddr) (v : Word) (s : State) : Result := .next (regWrite a v s)

/-- A read of an unmapped address, 0x80 to 0xFC (R66, R222). -/
def execRdUnmapped80 (a : RegAddr) (s : State) : Result := .next (busRead a s)

/-- A write of an unmapped address, 0x80 to 0xFC (R66, R237). -/
def execWrUnmapped80 (a : RegAddr) (v : Word) (s : State) : Result := .next (regWrite a v s)

/-- A read of a misaligned address, `addr[1:0]` = 01 (R65, R222). -/
def execRdMisaligned01 (a : RegAddr) (s : State) : Result := .next (busRead a s)

/-- A write of a misaligned address, `addr[1:0]` = 01 (R65, R237). -/
def execWrMisaligned01 (a : RegAddr) (v : Word) (s : State) : Result := .next (regWrite a v s)

/-- A read of a misaligned address, `addr[1:0]` = 10 (R65, R222). -/
def execRdMisaligned10 (a : RegAddr) (s : State) : Result := .next (busRead a s)

/-- A write of a misaligned address, `addr[1:0]` = 10 (R65, R237). -/
def execWrMisaligned10 (a : RegAddr) (v : Word) (s : State) : Result := .next (regWrite a v s)

/-- A read of a misaligned address, `addr[1:0]` = 11 (R65, R222). -/
def execRdMisaligned11 (a : RegAddr) (s : State) : Result := .next (busRead a s)

/-- A write of a misaligned address, `addr[1:0]` = 11 (R65, R237). -/
def execWrMisaligned11 (a : RegAddr) (v : Word) (s : State) : Result := .next (regWrite a v s)

end Sys2Proof.Machine
end

