-- ==== Sys2Proof/Machine/Dispatch.lean ====
section
/-! DEFINITION. The dispatch: one arm per row of the opcode table. -/

namespace Sys2Proof.Machine

open Sys2Proof

/-- The effect of one row on the state, as its part of a cycle (30_encoding.md, opening; R9). -/
def exec (i : Instr) (s : State) : Host.Outcome State Fault Refusal :=
  match i with
  | .smpD => Sys2Proof.Machine.execSmpD s
  | .smpR => Sys2Proof.Machine.execSmpR s
  | .nos => Sys2Proof.Machine.execNos s
  | .nop => Sys2Proof.Machine.execNop s
  | .rdId => Sys2Proof.Machine.execRdId s
  | .wrId v => Sys2Proof.Machine.execWrId v s
  | .rdCtrl => Sys2Proof.Machine.execRdCtrl s
  | .wrCtrl v => Sys2Proof.Machine.execWrCtrl v s
  | .rdStatus => Sys2Proof.Machine.execRdStatus s
  | .wrStatus v => Sys2Proof.Machine.execWrStatus v s
  | .rdBitWidth => Sys2Proof.Machine.execRdBitWidth s
  | .wrBitWidth v => Sys2Proof.Machine.execWrBitWidth v s
  | .rdSpOffset => Sys2Proof.Machine.execRdSpOffset s
  | .wrSpOffset v => Sys2Proof.Machine.execWrSpOffset v s
  | .rdSampleIdx => Sys2Proof.Machine.execRdSampleIdx s
  | .wrSampleIdx v => Sys2Proof.Machine.execWrSampleIdx v s
  | .rdBitIdx => Sys2Proof.Machine.execRdBitIdx s
  | .wrBitIdx v => Sys2Proof.Machine.execWrBitIdx v s
  | .rdAnchorSample => Sys2Proof.Machine.execRdAnchorSample s
  | .wrAnchorSample v => Sys2Proof.Machine.execWrAnchorSample v s
  | .rdAnchorBit => Sys2Proof.Machine.execRdAnchorBit s
  | .wrAnchorBit v => Sys2Proof.Machine.execWrAnchorBit v s
  | .rdNextSp => Sys2Proof.Machine.execRdNextSp s
  | .wrNextSp v => Sys2Proof.Machine.execWrNextSp v s
  | .rdFrame => Sys2Proof.Machine.execRdFrame s
  | .wrFrame v => Sys2Proof.Machine.execWrFrame v s
  | .rdOffsets => Sys2Proof.Machine.execRdOffsets s
  | .wrOffsets v => Sys2Proof.Machine.execWrOffsets v s
  | .rdAcc => Sys2Proof.Machine.execRdAcc s
  | .wrAcc v => Sys2Proof.Machine.execWrAcc v s
  | .rdFieldStart => Sys2Proof.Machine.execRdFieldStart s
  | .wrFieldStart v => Sys2Proof.Machine.execWrFieldStart v s
  | .rdUnmapped38 a => Sys2Proof.Machine.execRdUnmapped38 a s
  | .wrUnmapped38 a v => Sys2Proof.Machine.execWrUnmapped38 a v s
  | .rdUnmapped40 a => Sys2Proof.Machine.execRdUnmapped40 a s
  | .wrUnmapped40 a v => Sys2Proof.Machine.execWrUnmapped40 a v s
  | .rdUnmapped80 a => Sys2Proof.Machine.execRdUnmapped80 a s
  | .wrUnmapped80 a v => Sys2Proof.Machine.execWrUnmapped80 a v s
  | .rdMisaligned01 a => Sys2Proof.Machine.execRdMisaligned01 a s
  | .wrMisaligned01 a v => Sys2Proof.Machine.execWrMisaligned01 a v s
  | .rdMisaligned10 a => Sys2Proof.Machine.execRdMisaligned10 a s
  | .wrMisaligned10 a v => Sys2Proof.Machine.execWrMisaligned10 a v s
  | .rdMisaligned11 a => Sys2Proof.Machine.execRdMisaligned11 a s
  | .wrMisaligned11 a v => Sys2Proof.Machine.execWrMisaligned11 a v s
  | .fdAwaitSof => Sys2Proof.Machine.execFdAwaitSof s
  | .fdSof => Sys2Proof.Machine.execFdSof s
  | .fdId => Sys2Proof.Machine.execFdId s
  | .fdCtrl => Sys2Proof.Machine.execFdCtrl s
  | .fdLen => Sys2Proof.Machine.execFdLen s
  | .fdData => Sys2Proof.Machine.execFdData s
  | .fdCrc => Sys2Proof.Machine.execFdCrc s
  | .fdCrcDel => Sys2Proof.Machine.execFdCrcDel s
  | .fdAck => Sys2Proof.Machine.execFdAck s
  | .fdAckDel => Sys2Proof.Machine.execFdAckDel s
  | .fdEof => Sys2Proof.Machine.execFdEof s
  | .fdReserved11 => Sys2Proof.Machine.execFdReserved11 s
  | .fdReserved12 c => Sys2Proof.Machine.execFdReserved12 c s

end Sys2Proof.Machine
end

