-- ==== Sys2Proof/Machine/Cycle.lean ====
section
/-! DEFINITION. One clock cycle: the rows of its word run in the order of R9, and how a single row is placed so that the next step runs it (00_scope.md R9; 43_host_interface.md R221). -/

namespace Sys2Proof.Machine

open Sys2Proof

/-- Rows run one after another, each on the state the one before it leaves (R8, R9). -/
def runRows : List Instr → State → Result
  | [], s => .next s
  | i :: is, s => andThen (exec i s) (runRows is)

/-- One cycle on its input `{rst, S, B}` (R221). -/
def runCycle (c : CycleInput) (s : State) : Result :=
  if c.rst then .next (resetCycle s) else runRows (cycleRows c.word) (beginCycle s)

/-- The cycle input of a word, without reset. -/
def inputOf (w : CycleWord) : CycleInput := ⟨false, w⟩

/-- The state with a cycle word as its next input. -/
def placeCycle (w : CycleWord) (s : State) : State := { s with inputs := inputOf w :: s.inputs }

/-- The state in which the next step takes a sample whose bit is a logical bit and finds `fd_state = c`:
running, in SYNC, the anchor at the coming sample and bit, the offset below one sample, the awaited raw
bit one that is never stuff, and a recessive beat as the next input. Log entry 2. -/
def placeHandler (c : FdCode) (s : State) : State :=
  { s with
    en := true
    cfgErr := false
    spOffset := 0#32
    anchorS := s.sampIdx
    anchorB := 0#16
    bsState := .sync
    rawIdx := 0#16
    fdState := c
    inputs := inputOf (CycleWord.make 1#1 recessive 0#1 0#1 0#8 0#32) :: s.inputs }

/-- The state in which the next step runs a given word. -/
def placeWord (rw : RowWord) (s : State) : State :=
  match rw with
  | .cycle w => placeCycle w s
  | .handler c => placeHandler c s

/-- The state in which the next step runs a table number; a number that is no word places nothing. -/
def placeTableWord (nbits w : Nat) (s : State) : State :=
  match wordOfTable nbits w with
  | .ok rw => placeWord rw s
  | .error _ => s

end Sys2Proof.Machine
end

