-- ==== Sys2Proof/Machine/Ports.lean ====
section
/-! DEFINITION. The output ports as a view of the state (43_host_interface.md R220 Table I, R238, R239), and the serial order of a cycle's records (30_encoding.md R95). -/

namespace Sys2Proof.Machine

open Sys2Proof

/-- The output ports of Table I. -/
structure Ports where
  rdata : Word
  bmValid : BitVec 1
  bmKind : BitVec 2
  bmValue : BitVec 1
  bmRaw : BitIdx
  bmLog : BitIdx
  bmSample : Word
  bmStart : Word
  bmEnd : Word
  fsValid : BitVec 1
  fsKind : BitVec 4
  fsStart : Word
  fsEnd : Word
  fsValue : Word
  wnValid : BitVec 1
  wnCode : BitVec 4
  wnStart : Word
  wnEnd : Word
  cfgErr : BitVec 1
  deriving DecidableEq, Repr

/-- The BitMark channel: `valid = 0` and zero data where nothing was emitted (R238, I21). -/
def markPorts (m : Option BitMark) (p : Ports) : Ports :=
  match m with
  | some b =>
    { p with
      bmValid := 1#1
      bmKind := bitMarkCode b.kind
      bmValue := b.value
      bmRaw := b.raw
      bmLog := b.log
      bmSample := b.sample
      bmStart := b.start
      bmEnd := b.stop }
  | none => p

/-- The FieldSpan channel (R238). -/
def spanPorts (f : Option FieldSpan) (p : Ports) : Ports :=
  match f with
  | some r =>
    { p with
      fsValid := 1#1
      fsKind := fieldCode r.kind
      fsStart := r.start
      fsEnd := r.stop
      fsValue := r.value }
  | none => p

/-- The Warning channel (R238). -/
def warningPorts (w : Option Warning) (p : Ports) : Ports :=
  match w with
  | some r => { p with wnValid := 1#1, wnCode := warningCode r.code, wnStart := r.start, wnEnd := r.stop }
  | none => p

/-- All output ports 0. -/
def Ports.zero : Ports :=
  { rdata := 0#32, bmValid := 0#1, bmKind := 0#2, bmValue := 0#1, bmRaw := 0#16, bmLog := 0#16
    bmSample := 0#32, bmStart := 0#32, bmEnd := 0#32, fsValid := 0#1, fsKind := 0#4, fsStart := 0#32
    fsEnd := 0#32, fsValue := 0#32, wnValid := 0#1, wnCode := 0#4, wnStart := 0#32, wnEnd := 0#32
    cfgErr := 0#1 }

/-- The output ports as the state drives them: what the host sees after the rising edge that ends the
step (R220, R238, R239). -/
def ports (s : State) : Ports :=
  warningPorts s.outWn (spanPorts s.outFs (markPorts s.outBm
    { Ports.zero with rdata := s.rdata, cfgErr := bitOf s.cfgErr }))

/-- An event of any kind. -/
inductive Event where
  | bitMark (m : BitMark)
  | fieldSpan (f : FieldSpan)
  | warning (w : Warning)
  deriving DecidableEq, Repr

/-- The records of one cycle as one serial stream: BitMark, then FieldSpan, then Warning (R95, R238). -/
def serialEvents (s : State) : List Event :=
  (s.outBm.map Event.bitMark).toList ++ (s.outFs.map Event.fieldSpan).toList ++
    (s.outWn.map Event.warning).toList

end Sys2Proof.Machine
end

