-- ==== Sys2Proof/Machine/Step.lean ====
section
/-! DEFINITION. The step: one clock cycle on the next input of the list (43_host_interface.md R221). -/

namespace Sys2Proof.Machine

open Sys2Proof

/-- One rising edge of `clk`: the next input is taken and its cycle runs (R221). -/
def step (s : State) : Host.Outcome State Fault Refusal := runCycle (nextInput s) (takeInput s)

/-- `s` with the given table word placed where the next step takes it. Log entry 2. -/
def State.withFetchWord (s : State) (nbits w : Nat) : State := placeTableWord nbits w s

end Sys2Proof.Machine
end

