-- ==== Sys2Proof/Machine/Notation.lean ====
section
/-! DEFINITION. The notation for test programs: one line is one cycle's input, and the pseudo-instructions expand to lines (30_encoding.md R104 Table A, R105). -/

namespace Sys2Proof.Machine

open Sys2Proof

/-- The S part of a line (R104). -/
inductive BeatPart where
  | smpD
  | smpR
  | nos
  deriving DecidableEq, Repr

/-- The B part of a line (R104). -/
inductive BusPart where
  | wr (reg : RegAddr) (v : Word)
  | rd (reg : RegAddr)
  | rdwr (reg : RegAddr) (v : Word)
  | nop
  deriving DecidableEq, Repr

/-- A line `S | B`; a missing part is idle (R104). -/
structure Line where
  beat : BeatPart := .nos
  bus : BusPart := .nop
  deriving DecidableEq, Repr

/-- The two bits of an S part (Table A). -/
def beatBits : BeatPart → BitVec 1 × Level
  | .smpD => (1#1, 0#1)
  | .smpR => (1#1, 1#1)
  | .nos => (0#1, 0#1)

/-- The cycle word of a line (Table A). -/
def lineWord (l : Line) : CycleWord :=
  let (v, L) := beatBits l.beat
  match l.bus with
  | .wr a d => CycleWord.make v L 1#1 0#1 a d
  | .rd a => CycleWord.make v L 0#1 1#1 a 0#32
  | .rdwr a d => CycleWord.make v L 1#1 1#1 a d
  | .nop => CycleWord.make v L 0#1 0#1 0#8 0#32

/-- A program as the list of its cycle inputs. -/
def assemble (ls : List Line) : List CycleInput := ls.map fun l => inputOf (lineWord l)

/-- A lone bus line. -/
def busLine (b : BusPart) : Line := { bus := b }

/-- A lone sample line of a level. -/
def sampleLine (L : Level) : Line := { beat := if L = dominant then .smpD else .smpR }

/-- `SMP.D xK` and `SMP.R xK` (R105). -/
def samplesTimes (L : Level) (k : Nat) : List Line := List.replicate k (sampleLine L)

/-- `IDLE K` (R105). -/
def idleTimes (k : Nat) : List Line := List.replicate k {}

/-- `BITS b0 b1 ..., W` (R105). -/
def bitLines (bits : List Level) (width : Nat) : List Line :=
  bits.flatMap fun b => samplesTimes b width

/-- `CFG bw, spo` (R105). -/
def cfgLines (bw spo : Word) : List Line :=
  [busLine (.wr addrBitWidth bw), busLine (.wr addrSpOffset spo)]

/-- `ENABLE` (R105). -/
def enableLine : Line := busLine (.wr addrCtrl 1#32)

/-- `DISABLE` (R105). -/
def disableLine : Line := busLine (.wr addrCtrl 0#32)

end Sys2Proof.Machine
end

