-- ==== Sys2Proof/Machine/Run.lean ====
section
/-! DEFINITION. Runs: what a finite sequence of cycles puts on the event ports (70_reset_and_hazards.md R290). -/

namespace Sys2Proof.Machine

open Sys2Proof

/-- A run of `k` cycles and the events it put on the ports, in order: the "event list it produced and the
final state" of R290. -/
def runEvents : Nat → State → List Event × Result
  | 0, s => ([], .next s)
  | k + 1, s =>
    match step s with
    | .next t => let (es, r) := runEvents k t; (serialEvents t ++ es, r)
    | .fault f => ([], .fault f)
    | .refused r => ([], .refused r)

end Sys2Proof.Machine
end

