-- ==== Sys2Proof/Safety.lean ====
section
/-! DEFINITION. What the claims speak of: the invariants of 10_state.md R37 and the stronger one a step keeps, the states a run reaches, the step as the spec writes it (43_host_interface.md R221), shifted sample time (70_reset_and_hazards.md R287), and stuff insertion (41_destuffing.md R157). -/

namespace Sys2Proof.Machine

open Sys2Proof

/-! ### The invariants of R37 -/

/-- `SP(b)` on the state, in exact integer arithmetic (R37 item 3). -/
def exactSp (s : State) (b : BitIdx) : Int := spExact s.anchorS s.anchorB s.bitWidth s.spOffset b

/-- R37 item 1. -/
abbrev IdleClean (s : State) : Prop :=
  s.bsState = .idle → s.rawIdx = 0#16 ∧ s.logIdx = 0#16 ∧ s.fdState = 0#4

/-- R37 item 2. -/
abbrev AwaitIffNoBit (s : State) : Prop := s.fdState = 0#4 ↔ s.logIdx = 0#16

/-- R37 item 3. -/
abbrev SamplePointAhead (s : State) : Prop :=
  s.bsState = .sync →
    s.anchorB.toNat ≤ s.rawIdx.toNat ∧ (s.sampIdx.toNat : Int) ≤ exactSp s s.rawIdx

/-- R37 item 4. -/
abbrev LogicalWithinRaw (s : State) : Prop := 0 < s.rawIdx.toNat → s.logIdx.toNat ≤ s.rawIdx.toNat

/-- R37 item 5. -/
abbrev BytesWithinLength (s : State) : Prop :=
  s.byteCnt.toNat ≤ s.nbytes.toNat ∧ s.nbytes.toNat ≤ 64

/-- The five invariants of R37. -/
abbrev SpecInvariants (s : State) : Prop :=
  IdleClean s ∧ AwaitIffNoBit s ∧ SamplePointAhead s ∧ LogicalWithinRaw s ∧ BytesWithinLength s

/-- The bounds of R190, which keep both indices from wrapping. -/
abbrev IndexBounds (s : State) : Prop := s.rawIdx.toNat ≤ 716 ∧ s.logIdx.toNat ≤ 575

/-! ### The invariant a step keeps

R37 does not follow from itself; it needs where in the frame the machine is. -/

/-- The logical index awaited together with raw index `r` (R85): the index a logical bit at `r` carries,
and at a stuff position the index the next logical bit will carry. -/
def logOfRaw (r : Nat) : Nat := if r < 10 then r else 10 + 4 * ((r - 10) / 5) + (r - 10) % 5

/-- The length field has not been decoded: no layout yet (R176, R178). -/
abbrev NoLayout (s : State) : Prop :=
  s.dlc = 0#4 ∧ s.nbytes = 0#7 ∧ s.byteCnt = 0#7 ∧ s.crcLen = 0#5 ∧ s.lastData = 0#16

/-- The layout of the frame is that of its DLC and format (R176, R178), the data field perhaps cut short
by an EOD (R181). -/
abbrev Layout (s : State) : Prop :=
  s.nbytes = dlcTable s.dlc ∧ s.crcLen = crcLenOf s.fmt s.nbytes ∧ 31 ≤ s.lastData.toNat ∧
    s.lastData.toNat ≤ 31 + 8 * s.nbytes.toNat

/-- In each FrameDecoder state, where `log_idx` and the FrameContext stand (R83 Table F, R84 Table L). -/
abbrev FieldPosition (s : State) : Prop :=
  s.fdState.toNat ≤ 10 ∧
  (s.fdState.toNat ≤ 2 → s.fmt = 0#1) ∧
  (s.fdState.toNat ≤ 3 → s.ctrl4 = 0#4) ∧
  (s.fdState.toNat ≤ 4 → NoLayout s) ∧
  (5 ≤ s.fdState.toNat → Layout s) ∧
  (s.fdState = 0#4 → s.logIdx = 0#16) ∧
  (s.fdState = 1#4 → 1 ≤ s.logIdx.toNat ∧ s.logIdx.toNat ≤ 9) ∧
  (s.fdState = 2#4 → 10 ≤ s.logIdx.toNat ∧ s.logIdx.toNat ≤ 23) ∧
  (s.fdState = 3#4 → 24 ≤ s.logIdx.toNat ∧ s.logIdx.toNat ≤ 27) ∧
  (s.fdState = 4#4 → 28 ≤ s.logIdx.toNat ∧ s.logIdx.toNat ≤ 31) ∧
  (s.fdState = 5#4 →
    32 ≤ s.logIdx.toNat ∧ s.logIdx.toNat ≤ s.lastData.toNat ∧
      s.lastData.toNat = 31 + 8 * s.nbytes.toNat ∧ s.byteCnt.toNat = (s.logIdx.toNat - 32) / 8) ∧
  (6 ≤ s.fdState.toNat → s.byteCnt.toNat = (s.lastData.toNat - 31) / 8) ∧
  (s.fdState = 6#4 →
    s.lastData.toNat + 1 ≤ s.logIdx.toNat ∧ s.logIdx.toNat ≤ crcEnd s.lastData s.crcLen) ∧
  (s.fdState = 7#4 → s.logIdx.toNat = crcEnd s.lastData s.crcLen + 1) ∧
  (s.fdState = 8#4 → s.logIdx.toNat = crcEnd s.lastData s.crcLen + 2) ∧
  (s.fdState = 9#4 → s.logIdx.toNat = crcEnd s.lastData s.crcLen + 3) ∧
  (s.fdState = 10#4 →
    crcEnd s.lastData s.crcLen + 4 ≤ s.logIdx.toNat ∧ s.logIdx.toNat ≤ crcEnd s.lastData s.crcLen + 10)

/-- How many bits of the current field `acc` holds (R171). -/
def fieldBits (s : State) : Nat :=
  match s.fdState.toNat with
  | 1 => s.logIdx.toNat
  | 2 => s.logIdx.toNat - 10
  | 3 => s.logIdx.toNat - 24
  | 4 => s.logIdx.toNat - 28
  | 5 => (s.logIdx.toNat - 32) % 8
  | 6 => s.logIdx.toNat - s.lastData.toNat - 1
  | 10 => s.logIdx.toNat - crcEnd s.lastData s.crcLen - 4
  | _ => 0

/-- `acc` holds no bit beyond those of its field, and never more than 21 (R32, R183). -/
abbrev AccWithinField (s : State) : Prop :=
  s.acc.toNat < 2 ^ 21 ∧ (0 < fieldBits s → s.acc.toNat < 2 ^ fieldBits s)

/-- A frame in progress: where its indices, its sample point and its fields stand. -/
abbrev InFrame (s : State) : Prop :=
  s.anchorB.toNat ≤ s.rawIdx.toNat ∧ (s.sampIdx.toNat : Int) ≤ exactSp s s.rawIdx ∧
  s.rawIdx.toNat ≤ 715 ∧ s.logIdx.toNat = logOfRaw s.rawIdx.toNat ∧ FieldPosition s ∧ AccWithinField s

/-- The invariant every step keeps: a running machine has a bit width of at least one sample (R252), the
error bit stands only while enabled (R224), a machine that does not run has its datapath at the values
a disable gives (R224), an idle BitSampler has everything a frame end resets at its reset value (R188),
and a frame in progress is in order. -/
abbrev State.Inv (s : State) : Prop :=
  (s.run = true → minBitWidth.toNat ≤ s.bitWidth.toNat) ∧
  (s.en = false → s.cfgErr = false) ∧
  (s.run = false → datapathReset s = s) ∧
  (s.bsState = .idle → frameEnd s = s) ∧
  (s.bsState = .sync → InFrame s)

/-! ### Runs -/

/-- The states a run from power-on reset reaches, whatever inputs it is given (R280, R290). -/
inductive Reachable : State → Prop where
  | reset (ins : List CycleInput) : Reachable { State.reset with inputs := ins }
  | step {s t : State} : Reachable s → step s = .next t → Reachable t

/-! ### Rows and their operands, as the claims write them -/

/-- The row of a sample of level `L` (R80). -/
def smpRow (L : Level) : Instr := if L = dominant then .smpD else .smpR

/-- The rows a bus command at address `a` decodes to (R81, R222, R237). -/
abbrev RegisterAt (a : RegAddr) (rd : Instr) (wr : Word → Instr) : Prop :=
  decodeReadAddr a = rd ∧ ∀ v, decodeWriteAddr a v = wr v

/-- The fields that lay a frame out, with where the frame stands in it (R191: `D`, `C`, `N`; R21). -/
def layoutOf (s : State) : FdCode × BitIdx × BitVec 5 × BitVec 7 × BitIdx × BitIdx × BsState :=
  (s.fdState, s.lastData, s.crcLen, s.nbytes, s.logIdx, s.rawIdx, s.bsState)

/-- The BitMark of the raw bit a sample of level `L` takes: its raw index, the logical index as it stands,
its sample and its display range (R96, R150). -/
def markOf (kind : BitMarkKind) (L : Level) (s : State) : BitMark :=
  { kind := kind
    value := L
    raw := s.rawIdx
    log := s.logIdx
    sample := s.sampIdx
    start := s.sampIdx - (s.spOffset >>> 16)
    stop := s.sampIdx + ((s.bitWidth - s.spOffset) >>> 16) }

/-- The window after the raw bit `L`: `((win << 1) | L) mod 2^5` (R150). -/
def windowWith (win : BitVec 5) (L : Level) : BitVec 5 := (win <<< 1) ||| L.setWidth 5

/-! ### The step as R221 writes it -/

/-- The sample part of R221: `if S.s_valid = 1: SampleStep(S.s_level)`. -/
def samplePart (w : CycleWord) (s : State) : Result :=
  if CycleWord.sValid w = 1#1 then sampleStep (CycleWord.sLevel w) s else .next s

/-- The write part of R221: `if B.we = 1: RegWrite(B.addr, B.wdata)`. -/
def writePart (w : CycleWord) (s : State) : State :=
  if CycleWord.we w = 1#1 then regWrite (CycleWord.addr w) (CycleWord.wdata w) s else s

/-- The read part of R221: `rd := if B.re = 1 then RegRead(B.addr) else 0`. -/
def readPart (w : CycleWord) (s : State) : Word :=
  if CycleWord.re w = 1#1 then regRead (CycleWord.addr w) s else 0#32

/-- `Step` of R221: reset first, else the read on the pre-cycle state, the sample, the write, and the
outputs registered. -/
def specStep (c : CycleInput) (s : State) : Result :=
  if c.rst then .next { State.reset with inputs := s.inputs }
  else
    andThen (samplePart c.word { s with outBm := none, outFs := none, outWn := none }) fun t =>
      .next { writePart c.word t with rdata := readPart c.word s }

/-! ### Shifted sample time (R287) -/

/-- A BitMark with its sample indices moved by `k`, mod 2^32. -/
def shiftMark (k : Word) (m : BitMark) : BitMark :=
  { m with sample := m.sample + k, start := m.start + k, stop := m.stop + k }

/-- A FieldSpan moved by `k`. -/
def shiftSpan (k : Word) (f : FieldSpan) : FieldSpan := { f with start := f.start + k, stop := f.stop + k }

/-- A Warning moved by `k`. -/
def shiftWarning (k : Word) (w : Warning) : Warning := { w with start := w.start + k, stop := w.stop + k }

/-- The two states are the same but for sample time, which runs `k` samples ahead in the second, mod 2^32:
`samp_idx`, the anchor, the records, and the start of the current field where a frame is in progress. -/
def ShiftedBy (k : Word) (s t : State) : Prop :=
  t = { s with
    sampIdx := s.sampIdx + k
    anchorS := s.anchorS + k
    fldStart := t.fldStart
    outBm := s.outBm.map (shiftMark k)
    outFs := s.outFs.map (shiftSpan k)
    outWn := s.outWn.map (shiftWarning k) } ∧
  (s.fdState ≠ 0#4 → t.fldStart = s.fldStart + k)

/-! ### Stuff insertion and the raw stream (R157) -/

/-- The stuff positions of R151, on a Nat index. -/
abbrev StuffAt (r : Nat) : Prop := 10 < r ∧ r % 5 = 4

/-- The raw stream of a list of logical bits: from raw index `r`, after the raw bit `prev`, one bit chosen
by `ins` at each stuff position (R157). -/
def insertStuff (ins : Nat → Level → Level) : Nat → Level → List Level → List Level
  | _, _, [] => []
  | r, prev, b :: bs =>
    if StuffAt r then ins r prev :: b :: insertStuff ins (r + 2) b bs
    else b :: insertStuff ins (r + 1) b bs

/-- Raw bits taken one after another: the bit marks they leave, and how the run ends (R131, R150). -/
def feedRaw : List Level → State → List BitMark × Result
  | [], s => ([], .next s)
  | b :: bs, s =>
    match takeBit b s with
    | .next t => (t.outBm.toList ++ (feedRaw bs t).1, (feedRaw bs t).2)
    | .fault f => ([], .fault f)
    | .refused r => ([], .refused r)

/-- No frame has ended before the last bit of a raw stream: the BitSampler is in SYNC wherever one of its bits
is taken (R188, R190). -/
def frameLasts : List Level → State → Bool
  | [], _ => true
  | b :: bs, s =>
    s.bsState = .sync &&
      match takeBit b s with
      | .next t => frameLasts bs t
      | .fault _ => true
      | .refused _ => true

/-- The logical bits the FrameDecoder received, with their indices, read off the bit marks (R155). -/
def ordinaryBits (ms : List BitMark) : List (Nat × Level) :=
  (ms.filter fun m => m.kind = .ordinary).map fun m => (m.log.toNat, m.value)

end Sys2Proof.Machine
end

