-- ==== Sys2Proof/Certificates/Slice0/Obligations.lean ====
section
/-! DEFINITION. The statements about the model, for the provers: encodings, the step, the register space, the sample path, the FrameDecoder handlers, and whole-machine properties. -/

open Sys2Proof Sys2Proof.Machine

/-! ### Encodings (30_encoding.md) -/

/-- Every well-formed row, with every operand, decodes from its own word to itself, beside the idle rows of
the same cycle. -/
def Obligations.RowsRoundTrip : Prop :=
  ∀ i : Instr, i.wf = true →
    decodeRows (encode i) = withIdleParts i ∧ i ∈ decodeRows (encode i)

/-- No bit of a cycle word that R80 and R81 give a meaning is dropped: the words of the decoded rows, laid
together, give the word back with its ignored bits cleared; and the ignored bits change no row. -/
def Obligations.NoMeaningfulBitDropped : Prop :=
  ∀ w : CycleWord,
    overlayRows (cycleRows w) = CycleWord.canonical w ∧ cycleRows (CycleWord.canonical w) = cycleRows w

/-- No cycle word is illegal: all its rows are well formed, exactly one is a sample beat, a read row stands
among them exactly when `re = 1` and a write row exactly when `we = 1`, and no row is a handler. -/
def Obligations.NoCycleWordIsIllegal : Prop :=
  ∀ w : CycleWord,
    (∀ i ∈ cycleRows w, i.wf = true ∧ partOf i ≠ .handler) ∧
    ((cycleRows w).filter fun i => partOf i = .beat).length = 1 ∧
    ((cycleRows w).filter fun i => partOf i = .read).length = (CycleWord.re w).toNat ∧
    ((cycleRows w).filter fun i => partOf i = .write).length = (CycleWord.we w).toNat

/-- Words written out in 95_test_vectors.md §9 (programs P1 to P3), and codes of Table F, decode to the rows
their lines name. -/
def Obligations.WrittenOutWordsDecode : Prop :=
  decodeRows (.cycle 0x80000000000#44) = [.nop, .smpD] ∧
  decodeRows (.cycle 0xC0000000000#44) = [.nop, .smpR] ∧
  decodeRows (.cycle 0x20C00040000#44) = [.nos, .wrBitWidth 0x00040000#32] ∧
  decodeRows (.cycle 0x2100002CCCC#44) = [.nos, .wrSpOffset 0x0002CCCC#32] ∧
  decodeRows (.cycle 0x10800000000#44) = [.rdStatus, .nos] ∧
  decodeRows (.cycle 0x30400000003#44) = [.rdCtrl, .nos, .wrCtrl 3#32] ∧
  decodeRows (.cycle 0xB0400000000#44) = [.rdCtrl, .smpD, .wrCtrl 0#32] ∧
  decodeRows (.cycle 0xD1800000000#44) = [.rdBitIdx, .smpR] ∧
  decodeRows (.cycle 0x14000000000#44) = [.rdUnmapped40 0x40#8, .nos] ∧
  decodeRows (.cycle 0x10100000000#44) = [.rdMisaligned01 0x01#8, .nos] ∧
  decodeRows (.handler 3#4) = [.fdCtrl] ∧
  decodeRows (.handler 10#4) = [.fdEof]

/-- The number of a row's word names that row. That a number of 48 bits is read as a cycle word and one of 8 bits
as an `fd_state` code is the MODEL's choice (log entry 12); so is that the all-zero word, which `NOS` and `NOP`
share, is named after `NOP` (log entry 9). -/
def Obligations.TableNumberNamesItsRow : Prop :=
  ∀ i : Instr, i.wf = true → i ≠ .nos →
    (∀ w, encode i = .cycle w → decodeTableWord 48 w.toNat = some i) ∧
    (∀ c, encode i = .handler c → decodeTableWord 8 c.toNat = some i)

/-! ### The step (00_scope.md R9, 43_host_interface.md R221) -/

/-- A cycle without reset runs the decoded rows of its word, in their order, on the state whose output
registers are cleared. -/
def Obligations.StepRunsTheDecodedRows : Prop :=
  ∀ (s : State) (w : CycleWord) (rest : List CycleInput), s.inputs = ⟨false, w⟩ :: rest →
    step s = runRows (cycleRows w)
      { s with inputs := rest, outBm := none, outFs := none, outWn := none, rdata := 0#32 }

/-- A cycle whose word is the word of one well-formed row is `exec` of that row, on the state whose output
registers are cleared. -/
def Obligations.StepOfOneRowIsItsExec : Prop :=
  ∀ (i : Instr) (w : CycleWord) (s : State) (rest : List CycleInput),
    i.wf = true → encode i = .cycle w → s.inputs = ⟨false, w⟩ :: rest →
    step s = exec i
      { s with inputs := rest, outBm := none, outFs := none, outWn := none, rdata := 0#32 }

/-- A step on an input is the function `Step` of R221: reset, or the read of the pre-cycle state, the sample step
and the register write, in that order, with the outputs registered. That the coming inputs stay, a reset's too,
is the MODEL's choice for its own field `inputs` (log entries 1 and 13). -/
def Obligations.StepIsTheSpecsStep : Prop :=
  ∀ (s : State) (c : CycleInput) (rest : List CycleInput), s.inputs = c :: rest →
    step s = specStep c { s with inputs := rest }

/-- The MODEL's choice for its own field `inputs` (log entries 1 and 13): with no input listed the cycle is
idle, so the output registers are cleared and nothing else changes; a reset takes its own input and leaves the
coming ones. -/
def Obligations.InputsBeyondTheList : Prop :=
  (∀ s : State, s.inputs = [] →
    step s = .next { s with outBm := none, outFs := none, outWn := none, rdata := 0#32 }) ∧
  ∀ (s : State) (w : CycleWord) (rest : List CycleInput), s.inputs = ⟨true, w⟩ :: rest →
    ∃ t : State, step s = .next t ∧ t.inputs = rest

/-- `rst = 1`: the next state holds the reset value of every element, whatever the beat and the command; every
output port shows 0; the registers read as Table M's reset column. (Of the model's own field `inputs` it says
nothing.) -/
def Obligations.ResetPinGivesResetState : Prop :=
  ∀ (s : State) (w : CycleWord) (rest : List CycleInput), s.inputs = ⟨true, w⟩ :: rest →
    ∃ t : State, step s = .next t ∧
      t = { en := false, cfgErr := false, bitWidth := 0#32, spOffset := 0#32, anchorS := 0#32,
            anchorB := 0#16, bsState := .idle, sampIdx := 0#32, prevLevel := 1#1, rawIdx := 0#16,
            win := 0#5, logIdx := 0#16, fdState := 0#4, acc := 0#32, fldStart := 0#32, fmt := 0#1,
            ctrl4 := 0#4, dlc := 0#4, nbytes := 0#7, byteCnt := 0#7, crcLen := 0#5, lastData := 0#16,
            outBm := none, outFs := none, outWn := none, rdata := 0#32, inputs := t.inputs } ∧
      ports t = Ports.zero ∧
      ∀ a : RegAddr, regRead a t = if a = 0x00#8 then 0x56414E01#32 else 0#32

/-! ### The register space (20_memory.md, 43_host_interface.md) -/

/-- A misaligned read gives 0 and a misaligned write changes nothing (R65). -/
def Obligations.MisalignedAccessIsHarmless : Prop :=
  ∀ (a : RegAddr) (v : Word) (s : State),
    (a.toNat % 4 = 1 →
      exec (.rdMisaligned01 a) s = .next { s with rdata := 0#32 } ∧
      exec (.wrMisaligned01 a v) s = .next s) ∧
    (a.toNat % 4 = 2 →
      exec (.rdMisaligned10 a) s = .next { s with rdata := 0#32 } ∧
      exec (.wrMisaligned10 a v) s = .next s) ∧
    (a.toNat % 4 = 3 →
      exec (.rdMisaligned11 a) s = .next { s with rdata := 0#32 } ∧
      exec (.wrMisaligned11 a v) s = .next s)

/-- An unmapped aligned read gives 0; a write to an unmapped address or a read-only register changes nothing;
the reserved bits of CTRL are ignored on a write and read as 0 (R66). -/
def Obligations.UnmappedAndReadOnlyAccessIsHarmless : Prop :=
  ∀ (a : RegAddr) (v : Word) (s : State),
    (a.toNat % 4 = 0 ∧ 0x38 ≤ a.toNat ∧ a.toNat ≤ 0x3C →
      exec (.rdUnmapped38 a) s = .next { s with rdata := 0#32 } ∧
      exec (.wrUnmapped38 a v) s = .next s) ∧
    (a.toNat % 4 = 0 ∧ 0x40 ≤ a.toNat ∧ a.toNat ≤ 0x7C →
      exec (.rdUnmapped40 a) s = .next { s with rdata := 0#32 } ∧
      exec (.wrUnmapped40 a v) s = .next s) ∧
    (a.toNat % 4 = 0 ∧ 0x80 ≤ a.toNat →
      exec (.rdUnmapped80 a) s = .next { s with rdata := 0#32 } ∧
      exec (.wrUnmapped80 a v) s = .next s) ∧
    (∀ i ∈ [Instr.wrId v, .wrStatus v, .wrSampleIdx v, .wrBitIdx v, .wrAnchorSample v, .wrAnchorBit v,
        .wrNextSp v, .wrFrame v, .wrOffsets v, .wrAcc v, .wrFieldStart v], exec i s = .next s) ∧
    exec (.wrCtrl v) s = exec (.wrCtrl (v &&& 1#32)) s ∧
    ∃ r : Word, exec .rdCtrl s = .next { s with rdata := r } ∧ r >>> 1 = 0#32

/-- The registers that are one whole read-only word: their addresses, what they read as, that a write is ignored,
and their reset values (R223, R228, R230, R235, R236). -/
def Obligations.WholeWordRegisters : Prop :=
  RegisterAt 0x00#8 .rdId .wrId ∧ RegisterAt 0x14#8 .rdSampleIdx .wrSampleIdx ∧
  RegisterAt 0x1C#8 .rdAnchorSample .wrAnchorSample ∧ RegisterAt 0x30#8 .rdAcc .wrAcc ∧
  RegisterAt 0x34#8 .rdFieldStart .wrFieldStart ∧
  (∀ (s : State) (v : Word),
    exec .rdId s = .next { s with rdata := 0x56414E01#32 } ∧ exec (.wrId v) s = .next s ∧
    exec .rdSampleIdx s = .next { s with rdata := s.sampIdx } ∧ exec (.wrSampleIdx v) s = .next s ∧
    exec .rdAnchorSample s = .next { s with rdata := s.anchorS } ∧ exec (.wrAnchorSample v) s = .next s ∧
    exec .rdAcc s = .next { s with rdata := s.acc } ∧ exec (.wrAcc v) s = .next s ∧
    exec .rdFieldStart s = .next { s with rdata := s.fldStart } ∧
    exec (.wrFieldStart v) s = .next s) ∧
  State.reset.sampIdx = 0#32 ∧ State.reset.anchorS = 0#32 ∧ State.reset.acc = 0#32 ∧
  State.reset.fldStart = 0#32

/-- CTRL, at 0x04, reset 0: `EN` reads as `en`; a write of EN = 0 gives the reset state with the configuration kept, records
draining, in whatever state; a write of EN = 1 enables a disabled block, with the configuration check, and
changes nothing on an enabled one (R224, R281). -/
def Obligations.CtrlRegister : Prop :=
  RegisterAt 0x04#8 .rdCtrl .wrCtrl ∧ regRead 0x04#8 State.reset = 0#32 ∧
  ∀ (s : State) (v : Word),
    (∃ r : Word, exec .rdCtrl s = .next { s with rdata := r } ∧
      r.toNat = if s.en then 1 else 0) ∧
    (v.toNat % 2 = 0 →
      exec (.wrCtrl v) s = .next
        { State.reset with
          bitWidth := s.bitWidth
          spOffset := s.spOffset
          outBm := s.outBm
          outFs := s.outFs
          outWn := s.outWn
          rdata := s.rdata
          inputs := s.inputs }) ∧
    (v.toNat % 2 = 1 → s.en = true → exec (.wrCtrl v) s = .next s) ∧
    (v.toNat % 2 = 1 → s.en = false → 0x10000 ≤ s.bitWidth.toNat →
      exec (.wrCtrl v) s = .next { s with en := true }) ∧
    (v.toNat % 2 = 1 → s.en = false → s.bitWidth.toNat < 0x10000 →
      exec (.wrCtrl v) s = .next { s with en := true, cfgErr := true })

/-- STATUS, at 0x08, field by field; a write is ignored; it resets to 0 (R225). -/
def Obligations.StatusRegister : Prop :=
  RegisterAt 0x08#8 .rdStatus .wrStatus ∧
  (∀ (s : State) (v : Word),
    exec (.wrStatus v) s = .next s ∧
    ∃ r : Word, exec .rdStatus s = .next { s with rdata := r } ∧
      r.extractLsb' 0 1 = BitVec.ofBool s.cfgErr ∧
      r.extractLsb' 1 1 = BitVec.ofBool (s.en && !s.cfgErr) ∧
      (r.extractLsb' 2 1 = 1#1 ↔ s.bsState = .sync) ∧
      r.extractLsb' 3 1 = 0#1 ∧
      r.extractLsb' 4 4 = s.fdState ∧
      r.extractLsb' 8 24 = 0#24) ∧
  regRead 0x08#8 State.reset = 0#32

/-- BIT_WIDTH and SP_OFFSET: all 32 bits read; a write stores all 32 bits while disabled and is ignored while
enabled, any value; reset 0; a width below one sample makes the next enable an error (R226, R227). -/
def Obligations.TimingRegisters : Prop :=
  RegisterAt 0x0C#8 .rdBitWidth .wrBitWidth ∧ RegisterAt 0x10#8 .rdSpOffset .wrSpOffset ∧
  (∀ (s : State) (v : Word), s.en = false → v.toNat < 0x10000 →
    exec (.wrCtrl 1#32) { s with bitWidth := v } =
      .next { s with bitWidth := v, en := true, cfgErr := true }) ∧
  (∀ (s : State) (v : Word),
    exec .rdBitWidth s = .next { s with rdata := s.bitWidth } ∧
    exec .rdSpOffset s = .next { s with rdata := s.spOffset } ∧
    exec (.wrBitWidth v) s = .next { s with bitWidth := if s.en then s.bitWidth else v } ∧
    exec (.wrSpOffset v) s = .next { s with spOffset := if s.en then s.spOffset else v }) ∧
  State.reset.bitWidth = 0#32 ∧ State.reset.spOffset = 0#32

/-- BIT_IDX, ANCHOR_BIT and OFFSETS, field by field; writes are ignored; they reset to 0 (R229, R231, R234). -/
def Obligations.IndexRegisters : Prop :=
  RegisterAt 0x18#8 .rdBitIdx .wrBitIdx ∧ RegisterAt 0x20#8 .rdAnchorBit .wrAnchorBit ∧
  RegisterAt 0x2C#8 .rdOffsets .wrOffsets ∧
  (∀ (s : State) (v : Word),
    exec (.wrBitIdx v) s = .next s ∧ exec (.wrAnchorBit v) s = .next s ∧
    exec (.wrOffsets v) s = .next s ∧
    (∃ r : Word, exec .rdBitIdx s = .next { s with rdata := r } ∧
      r.extractLsb' 0 16 = s.rawIdx ∧ r.extractLsb' 16 16 = s.logIdx) ∧
    (∃ r : Word, exec .rdAnchorBit s = .next { s with rdata := r } ∧
      r.extractLsb' 0 16 = s.anchorB ∧ r.extractLsb' 16 16 = 0#16) ∧
    ∃ r : Word, exec .rdOffsets s = .next { s with rdata := r } ∧
      r.extractLsb' 0 16 = s.lastData ∧ r.extractLsb' 16 5 = s.crcLen ∧ r.extractLsb' 21 11 = 0#11) ∧
  regRead 0x18#8 State.reset = 0#32 ∧ regRead 0x20#8 State.reset = 0#32 ∧
  regRead 0x2C#8 State.reset = 0#32

/-- NEXT_SP: `SP(raw_idx)` in SYNC and 0 in IDLE; a write is ignored; it resets to 0 (R232). -/
def Obligations.NextSpRegister : Prop :=
  RegisterAt 0x24#8 .rdNextSp .wrNextSp ∧
  (∀ (s : State) (v : Word),
    exec (.wrNextSp v) s = .next s ∧
    (s.bsState = .sync → exec .rdNextSp s = .next { s with rdata := sp s s.rawIdx }) ∧
    (s.bsState = .idle → exec .rdNextSp s = .next { s with rdata := 0#32 })) ∧
  regRead 0x24#8 State.reset = 0#32

/-- FRAME, field by field; a write is ignored; it resets to 0 (R233). -/
def Obligations.FrameRegister : Prop :=
  RegisterAt 0x28#8 .rdFrame .wrFrame ∧
  (∀ (s : State) (v : Word),
    exec (.wrFrame v) s = .next s ∧
    ∃ r : Word, exec .rdFrame s = .next { s with rdata := r } ∧
      r.extractLsb' 0 4 = s.ctrl4 ∧ r.extractLsb' 4 1 = s.fmt ∧ r.extractLsb' 5 3 = 0#3 ∧
      r.extractLsb' 8 4 = s.dlc ∧ r.extractLsb' 12 7 = s.nbytes ∧ r.extractLsb' 19 1 = 0#1 ∧
      r.extractLsb' 20 7 = s.byteCnt ∧ r.extractLsb' 27 5 = 0#5) ∧
  regRead 0x28#8 State.reset = 0#32

/-- An enable with fewer than one sample per bit raises the configuration error and nothing else does, only a
write of EN = 0 or the reset pin clears it, and while it stands every sample is discarded, STATUS shows it and
the `cfg_err` port is 1 (R252). -/
def Obligations.ConfigErrorLifeCycle : Prop :=
  (∀ s t : State, step s = .next t → (nextInput s).rst = false → s.en = false → s.bitWidth.toNat < 0x10000 →
    CycleWord.we (nextInput s).word = 1#1 → CycleWord.addr (nextInput s).word = 0x04#8 →
    (CycleWord.wdata (nextInput s).word).toNat % 2 = 1 → t.en = true ∧ t.cfgErr = true) ∧
  (∀ s t : State, step s = .next t → s.cfgErr = false → t.cfgErr = true →
    (nextInput s).rst = false ∧ s.en = false ∧ s.bitWidth.toNat < 0x10000 ∧ t.en = true ∧
    CycleWord.we (nextInput s).word = 1#1 ∧ CycleWord.addr (nextInput s).word = 0x04#8 ∧
    (CycleWord.wdata (nextInput s).word).toNat % 2 = 1) ∧
  (∀ s t : State, step s = .next t → s.cfgErr = true → t.cfgErr = false →
    (nextInput s).rst = true ∨
    (CycleWord.we (nextInput s).word = 1#1 ∧ CycleWord.addr (nextInput s).word = 0x04#8 ∧
      (CycleWord.wdata (nextInput s).word).toNat % 2 = 0)) ∧
  ∀ s : State, s.cfgErr = true →
    exec .smpD s = .next s ∧ exec .smpR s = .next s ∧ (ports s).cfgErr = 1#1 ∧
    ∃ r : Word, exec .rdStatus s = .next { s with rdata := r } ∧
      r.extractLsb' 0 1 = 1#1 ∧ r.extractLsb' 1 1 = 0#1

/-- While enabled, no step but a reset changes the timing configuration, whatever its input. -/
def Obligations.ConfigurationLock : Prop :=
  ∀ s t : State, step s = .next t → s.en = true → (nextInput s).rst = false →
    t.bitWidth = s.bitWidth ∧ t.spOffset = s.spOffset

/-- A sample and a write in one cycle, the four cases of R285. -/
def Obligations.SampleAndWriteInOneCycle : Prop :=
  ∀ (s t : State) (L : Level) (re : BitVec 1) (v : Word) (rest : List CycleInput),
    -- an enable: the sample arrives while disabled and is discarded
    (s.en = false → v.toNat % 2 = 1 →
      s.inputs = ⟨false, CycleWord.make 1#1 L 1#1 re 0x04#8 v⟩ :: rest → step s = .next t →
      t.en = true ∧ t.sampIdx = s.sampIdx ∧ t.prevLevel = s.prevLevel ∧ t.bsState = s.bsState ∧
        t.rawIdx = s.rawIdx ∧ t.outBm = none ∧ t.outFs = none ∧ t.outWn = none) ∧
    -- a disable: the sample is processed and its records stay, then the datapath is reset
    (v.toNat % 2 = 0 →
      s.inputs = ⟨false, CycleWord.make 1#1 L 1#1 re 0x04#8 v⟩ :: rest → step s = .next t →
      ∃ u : State,
        exec (smpRow L) { s with inputs := rest, outBm := none, outFs := none, outWn := none } = .next u ∧
        t = { State.reset with
              bitWidth := s.bitWidth
              spOffset := s.spOffset
              outBm := u.outBm
              outFs := u.outFs
              outWn := u.outWn
              rdata := if re = 1#1 then regRead 0x04#8 s else 0#32
              inputs := rest }) ∧
    -- a configuration write while enabled is ignored
    (s.en = true → ∀ a : RegAddr, a = 0x0C#8 ∨ a = 0x10#8 → ∀ S : BitVec 1,
      s.inputs = ⟨false, CycleWord.make S L 1#1 re a v⟩ :: rest → step s = .next t →
      t.bitWidth = s.bitWidth ∧ t.spOffset = s.spOffset) ∧
    -- a write to any other address is as if it were not made
    ∀ a : RegAddr, a ≠ 0x04#8 → a ≠ 0x0C#8 → a ≠ 0x10#8 → ∀ S : BitVec 1,
      step { s with inputs := ⟨false, CycleWord.make S L 1#1 re a v⟩ :: rest } =
        step { s with inputs := ⟨false, CycleWord.make S L 0#1 re a v⟩ :: rest }

/-- The event ports: a channel with no record shows valid 0 and zero data, a channel with a record shows it,
and a record is presented for one cycle only: a cycle without a sample clears every channel. The kind and
warning codes the ports show are those of R97, Table K and Table W, value by value. -/
def Obligations.EventPortsShowOneCyclesRecords : Prop :=
  (bitMarkCode .ordinary = 0#2 ∧ bitMarkCode .stuff = 1#2 ∧ bitMarkCode .eod = 2#2) ∧
  (fieldCode .sof = 0#4 ∧ fieldCode .id = 1#4 ∧ fieldCode .fmt = 2#4 ∧ fieldCode .rak = 3#4 ∧
    fieldCode .rw = 4#4 ∧ fieldCode .rtr = 5#4 ∧ fieldCode .rsv = 6#4 ∧ fieldCode .brs = 7#4 ∧
    fieldCode .esi = 8#4 ∧ fieldCode .len = 9#4 ∧ fieldCode .data = 10#4 ∧ fieldCode .crc = 11#4 ∧
    fieldCode .crcDel = 12#4 ∧ fieldCode .ack = 13#4 ∧ fieldCode .ackDel = 14#4 ∧ fieldCode .eof = 15#4) ∧
  (warningCode .sofMismatch = 1#4 ∧ warningCode .idReserved = 2#4 ∧ warningCode .dlcClassic = 3#4 ∧
    warningCode .crcDelDominant = 4#4 ∧ warningCode .notAcknowledged = 5#4 ∧
    warningCode .ackDelDominant = 6#4 ∧ warningCode .eofDominant = 7#4) ∧
  (∀ s : State, s.outBm = none →
    (ports s).bmValid = 0#1 ∧ (ports s).bmKind = 0#2 ∧ (ports s).bmValue = 0#1 ∧ (ports s).bmRaw = 0#16 ∧
    (ports s).bmLog = 0#16 ∧ (ports s).bmSample = 0#32 ∧ (ports s).bmStart = 0#32 ∧
    (ports s).bmEnd = 0#32) ∧
  (∀ s : State, s.outFs = none →
    (ports s).fsValid = 0#1 ∧ (ports s).fsKind = 0#4 ∧ (ports s).fsStart = 0#32 ∧
    (ports s).fsEnd = 0#32 ∧ (ports s).fsValue = 0#32) ∧
  (∀ s : State, s.outWn = none →
    (ports s).wnValid = 0#1 ∧ (ports s).wnCode = 0#4 ∧ (ports s).wnStart = 0#32 ∧
    (ports s).wnEnd = 0#32) ∧
  (∀ (s : State) (m : BitMark), s.outBm = some m →
    (ports s).bmValid = 1#1 ∧ (ports s).bmKind = bitMarkCode m.kind ∧ (ports s).bmValue = m.value ∧
    (ports s).bmRaw = m.raw ∧ (ports s).bmLog = m.log ∧ (ports s).bmSample = m.sample ∧
    (ports s).bmStart = m.start ∧ (ports s).bmEnd = m.stop) ∧
  (∀ (s : State) (f : FieldSpan), s.outFs = some f →
    (ports s).fsValid = 1#1 ∧ (ports s).fsKind = fieldCode f.kind ∧ (ports s).fsStart = f.start ∧
    (ports s).fsEnd = f.stop ∧ (ports s).fsValue = f.value) ∧
  (∀ (s : State) (w : Warning), s.outWn = some w →
    (ports s).wnValid = 1#1 ∧ (ports s).wnCode = warningCode w.code ∧ (ports s).wnStart = w.start ∧
    (ports s).wnEnd = w.stop) ∧
  ∀ s t : State, step s = .next t →
    (nextInput s).rst = true ∨ CycleWord.sValid (nextInput s).word = 0#1 →
    t.outBm = none ∧ t.outFs = none ∧ t.outWn = none

/-! ### The sample path (40_sample_clock.md, 41_destuffing.md) -/

/-- `NOS` and `NOP` change nothing; a sample while RUN is false changes nothing and is not counted. -/
def Obligations.IdleRowsAndDiscardedSamples : Prop :=
  ∀ s : State,
    exec .nos s = .next s ∧ exec .nop s = .next s ∧
    (s.en = false ∨ s.cfgErr = true → exec .smpD s = .next s ∧ exec .smpR s = .next s)

/-- `SP(b)` is the formula of R120, on natural numbers, for a bit at or after the anchor. -/
def Obligations.SamplePointFormula : Prop :=
  ∀ (s : State) (b : BitIdx), s.anchorB.toNat ≤ b.toNat →
    (sp s b).toNat =
      (s.anchorS.toNat + (s.bitWidth.toNat * (b.toNat - s.anchorB.toNat) + s.spOffset.toNat) / 2 ^ 16) %
        2 ^ 32

/-- The anchor property, and monotonicity of the exact sample point without resynchronisation (R122). -/
def Obligations.AnchorPropertyAndMonotonicity : Prop :=
  (∀ (s : State) (n : Word) (b : BitIdx),
    sp (recordEdge n b s) b = n + (s.spOffset >>> 16)) ∧
  ∀ (s : State) (b c : BitIdx), c.toNat = b.toNat + 1 → 0x10000 ≤ s.bitWidth.toNat →
    exactSp s b + 1 ≤ exactSp s c

/-- Every accepted sample ends with its level kept and one more sample counted, whatever happened to the
frame (R132). -/
def Obligations.AcceptedSampleIsCounted : Prop :=
  ∀ (s t : State) (L : Level), s.en = true → s.cfgErr = false → exec (smpRow L) s = .next t →
    t.prevLevel = L ∧ t.sampIdx = s.sampIdx + 1#32

/-- A sample never touches control, configuration, the read-data port or the coming inputs (R23, R123). -/
def Obligations.SampleLeavesControlAlone : Prop :=
  ∀ (s t : State) (L : Level), exec (smpRow L) s = .next t →
    t.en = s.en ∧ t.cfgErr = s.cfgErr ∧ t.bitWidth = s.bitWidth ∧ t.spOffset = s.spOffset ∧
    t.rdata = s.rdata ∧ t.inputs = s.inputs

/-- A sample always completes in a state whose `fd_state` is one of the eleven codes of Table F: not accepted,
it changes nothing; accepted, it is counted. -/
def Obligations.SampleAlwaysCompletes : Prop :=
  ∀ (s : State) (L : Level), s.fdState.toNat ≤ 10 →
    ∃ t : State, exec (smpRow L) s = .next t ∧ t.fdState.toNat ≤ 10 ∧
      (s.en = false ∨ s.cfgErr = true → t = s) ∧
      (s.en = true → s.cfgErr = false → t.prevLevel = L ∧ t.sampIdx = s.sampIdx + 1#32)

/-- IDLE: a recessive sample only is remembered and counted; a dominant one forces the resynchronisation and
starts a frame, and with an offset of at least one sample does nothing more; with less, the sample goes on from
the re-anchored state (R126). -/
def Obligations.SampleInIdle : Prop :=
  ∀ s : State, s.en = true → s.cfgErr = false → s.bsState = .idle →
    exec .smpR s = .next { s with prevLevel := 1#1, sampIdx := s.sampIdx + 1#32 } ∧
    (0x10000 ≤ s.spOffset.toNat →
      exec .smpD s = .next
        { s with
          anchorS := s.sampIdx
          anchorB := 0#16
          rawIdx := 0#16
          bsState := .sync
          prevLevel := 0#1
          sampIdx := s.sampIdx + 1#32 }) ∧
    (s.spOffset.toNat < 0x10000 →
      exec .smpD s = exec .smpD
        { s with anchorS := s.sampIdx, anchorB := 0#16, rawIdx := 0#16, bsState := .sync })

/-- SYNC, a dominant-going edge that is not the sample point re-anchors on the awaited bit, whose sample point is
then the offset after the edge; with an offset of at least one sample nothing more happens, and the bit is not
taken; with less, the sample goes on from the re-anchored state (R128). -/
def Obligations.SoftResynchronisation : Prop :=
  ∀ s : State, s.en = true → s.cfgErr = false → s.bsState = .sync → sp s s.rawIdx ≠ s.sampIdx →
    s.prevLevel = 1#1 →
    sp { s with anchorS := s.sampIdx, anchorB := s.rawIdx } s.rawIdx = s.sampIdx + (s.spOffset >>> 16) ∧
    (0x10000 ≤ s.spOffset.toNat →
      exec .smpD s = .next
        { s with
          anchorS := s.sampIdx
          anchorB := s.rawIdx
          prevLevel := 0#1
          sampIdx := s.sampIdx + 1#32 }) ∧
    (s.spOffset.toNat < 0x10000 →
      exec .smpD s = exec .smpD { s with anchorS := s.sampIdx, anchorB := s.rawIdx })

/-- SYNC, a sample that is neither the sample point nor a dominant-going edge is only remembered and counted
(R130). -/
def Obligations.WaitForSamplePoint : Prop :=
  ∀ (s : State) (L : Level), s.en = true → s.cfgErr = false → s.bsState = .sync →
    sp s s.rawIdx ≠ s.sampIdx → ¬(s.prevLevel = 1#1 ∧ L = 0#1) →
    exec (smpRow L) s = .next { s with prevLevel := L, sampIdx := s.sampIdx + 1#32 }

/-- The same-sample rule: after a forced or a soft resynchronisation the new sample point is the sample itself
exactly when the offset is below one sample, and then the sample is taken as the bit, as it is from the
re-anchored state (R129). -/
def Obligations.SameSampleRule : Prop :=
  ∀ s u : State, s.en = true → s.cfgErr = false →
    (s.bsState = .idle ∧
        u = { s with anchorS := s.sampIdx, anchorB := 0#16, rawIdx := 0#16, bsState := .sync } ∨
      s.bsState = .sync ∧ sp s s.rawIdx ≠ s.sampIdx ∧ s.prevLevel = 1#1 ∧
        u = { s with anchorS := s.sampIdx, anchorB := s.rawIdx }) →
    (sp u u.rawIdx = s.sampIdx ↔ s.spOffset.toNat < 0x10000) ∧
    (s.spOffset.toNat < 0x10000 → exec .smpD s = exec .smpD u)

/-- At the sample point, edge or not, a raw bit at a stuff position whose window does not show EOD is an
ordinary stuff bit of either value: its mark, and no logical bit (R127, R131, R153). -/
def Obligations.OrdinaryStuffBit : Prop :=
  ∀ (s : State) (L : Level), s.en = true → s.cfgErr = false → s.bsState = .sync →
    sp s s.rawIdx = s.sampIdx → 10 < s.rawIdx.toNat → s.rawIdx.toNat % 5 = 4 →
    ¬(s.win.getLsbD 0 = false ∧ L = 0#1) →
    exec (smpRow L) s = .next
      { s with
        rawIdx := s.rawIdx + 1#16
        win := windowWith s.win L
        outBm := some (markOf .stuff L s)
        prevLevel := L
        sampIdx := s.sampIdx + 1#32 }

/-- At the sample point, a raw bit at a stuff position after a raw 0 and itself 0 is an EOD marker: its mark
in any state, and in DATA the end of the data field at the last data bit received (R154, R181, R182). -/
def Obligations.EodMarker : Prop :=
  ∀ s : State, s.en = true → s.cfgErr = false → s.bsState = .sync →
    sp s s.rawIdx = s.sampIdx → 10 < s.rawIdx.toNat → s.rawIdx.toNat % 5 = 4 →
    s.win.getLsbD 0 = false →
    exec .smpD s = .next
      { s with
        rawIdx := s.rawIdx + 1#16
        win := windowWith s.win 0#1
        outBm := some (markOf .eod 0#1 s)
        lastData := if s.fdState = 5#4 then s.logIdx - 1#16 else s.lastData
        acc := if s.fdState = 5#4 then 0#32 else s.acc
        fdState := if s.fdState = 5#4 then 6#4 else s.fdState
        prevLevel := 0#1
        sampIdx := s.sampIdx + 1#32 }

/-- At the sample point, a raw bit that is not at a stuff position is a logical bit: its mark, the next logical
index, AWAIT_SOF left, the bit accumulated, and the one handler row that `fd_state` selects run (R152, R170). -/
def Obligations.LogicalBitRunsItsHandler : Prop :=
  ∀ (s u : State) (L : Level), s.en = true → s.cfgErr = false → s.bsState = .sync →
    sp s s.rawIdx = s.sampIdx → ¬(10 < s.rawIdx.toNat ∧ s.rawIdx.toNat % 5 = 4) →
    u = { s with
          rawIdx := s.rawIdx + 1#16
          win := windowWith s.win L
          outBm := some (markOf .ordinary L s)
          logIdx := s.logIdx + 1#16
          fdState := if s.fdState = 0#4 then 1#4 else s.fdState } →
    exec (smpRow L) s =
      andThen (exec (decodeHandler u.fdState) (accumulate u)) fun t =>
        .next { t with prevLevel := L, sampIdx := s.sampIdx + 1#32 }

/-- One mark for every raw bit taken and none otherwise: an accepted sample leaves a new mark exactly when it
moves the raw index or ends a frame, and the mark is the taken bit's (R155, R134). -/
def Obligations.OneMarkPerRawBit : Prop :=
  ∀ (s t : State) (L : Level), s.outBm = none → exec (smpRow L) s = .next t →
    (t.outBm = none → t.win = s.win ∧ t.logIdx = s.logIdx ∧ t.fdState = s.fdState ∧ t.acc = s.acc ∧
      (s.bsState = .sync → t.rawIdx = s.rawIdx) ∧ t.outFs = s.outFs ∧ t.outWn = s.outWn) ∧
    ∀ m, t.outBm = some m →
      m.value = L ∧ m.sample = s.sampIdx ∧ m.log = s.logIdx ∧
      m.raw = (if s.bsState = .sync then s.rawIdx else 0#16) ∧
      m.start = s.sampIdx - (s.spOffset >>> 16) ∧
      m.stop = s.sampIdx + ((s.bitWidth - s.spOffset) >>> 16) ∧
      (t.bsState = .sync → t.rawIdx = m.raw + 1#16) ∧
      (m.kind = .ordinary ↔ ¬(10 < m.raw.toNat ∧ m.raw.toNat % 5 = 4))

/-- What an accepted sample does to the FrameDecoder in the SOF, ID, CTRL and LEN states: at the last bit of a
field its span, its warning, what it keeps and the next state, at any other bit none of these (R172 to R178). The
field value is the accumulator with the bit shifted in. -/
def Obligations.HeaderFieldsInTheSampleStep : Prop :=
  ∀ (s t : State) (L : Level) (v : Word), s.Inv → s.en = true → s.cfgErr = false → s.bsState = .sync →
    sp s s.rawIdx = s.sampIdx → ¬(10 < s.rawIdx.toNat ∧ s.rawIdx.toNat % 5 = 4) →
    exec (smpRow L) s = .next t → v = (s.acc <<< 1) ||| L.setWidth 32 →
    (s.fdState = 1#4 → s.logIdx.toNat ≠ 9 → t.outFs = s.outFs ∧ t.outWn = s.outWn ∧ t.fdState = 1#4) ∧
    (s.fdState = 1#4 → s.logIdx.toNat = 9 →
      t.outFs = some ⟨.sof, s.fldStart, s.sampIdx, v &&& 0x3FF#32⟩ ∧
      t.outWn = (if v &&& 0x3FF#32 = 0x3D#32 then s.outWn else some ⟨.sofMismatch, s.fldStart, s.sampIdx⟩) ∧
      t.fdState = 2#4) ∧
    (s.fdState = 2#4 → s.logIdx.toNat ≠ 23 → t.outFs = s.outFs ∧ t.outWn = s.outWn ∧ t.fdState = 2#4) ∧
    (s.fdState = 2#4 → s.logIdx.toNat = 23 →
      t.outFs = some ⟨.id, s.fldStart, s.sampIdx, v &&& 0x3FFF#32⟩ ∧
      t.outWn = (if 0x3F80 ≤ (v &&& 0x3FFF#32).toNat then some ⟨.idReserved, s.fldStart, s.sampIdx⟩
        else s.outWn) ∧
      t.fdState = 3#4) ∧
    (s.fdState = 3#4 → s.logIdx.toNat = 24 →
      t.fmt = L ∧ t.outFs = some ⟨.fmt, s.sampIdx, s.sampIdx, L.setWidth 32⟩ ∧ t.outWn = s.outWn ∧
      t.ctrl4 = s.ctrl4 ∧ t.fdState = 3#4) ∧
    (s.fdState = 3#4 → s.logIdx.toNat = 25 →
      t.outFs = some ⟨if s.fmt = 0#1 then .rak else .rsv, s.sampIdx, s.sampIdx, L.setWidth 32⟩ ∧
      t.outWn = s.outWn ∧ t.fmt = s.fmt ∧ t.ctrl4 = s.ctrl4 ∧ t.fdState = 3#4) ∧
    (s.fdState = 3#4 → s.logIdx.toNat = 26 →
      t.outFs = some ⟨if s.fmt = 0#1 then .rw else .brs, s.sampIdx, s.sampIdx, L.setWidth 32⟩ ∧
      t.outWn = s.outWn ∧ t.fmt = s.fmt ∧ t.ctrl4 = s.ctrl4 ∧ t.fdState = 3#4) ∧
    (s.fdState = 3#4 → s.logIdx.toNat = 27 →
      t.outFs = some ⟨if s.fmt = 0#1 then .rtr else .esi, s.sampIdx, s.sampIdx, L.setWidth 32⟩ ∧
      t.outWn = s.outWn ∧ t.fmt = s.fmt ∧ t.ctrl4 = v.setWidth 4 ∧ t.fdState = 4#4) ∧
    (s.fdState = 4#4 → s.logIdx.toNat ≠ 31 →
      t.outFs = s.outFs ∧ t.outWn = s.outWn ∧ t.dlc = s.dlc ∧ t.nbytes = s.nbytes ∧ t.crcLen = s.crcLen ∧
      t.lastData = s.lastData ∧ t.fdState = 4#4) ∧
    (s.fdState = 4#4 → s.logIdx.toNat = 31 →
      t.dlc = v.setWidth 4 ∧ t.nbytes = dlcTable (v.setWidth 4) ∧
      (∃ x : Word, t.outFs = some ⟨.len, s.fldStart, s.sampIdx, x⟩ ∧
        x.toNat = 256 * (dlcTable (v.setWidth 4)).toNat + v.toNat % 16) ∧
      t.outWn = (if s.fmt = 0#1 ∧ 8 < v.toNat % 16 then some ⟨.dlcClassic, s.fldStart, s.sampIdx⟩
        else s.outWn) ∧
      t.crcLen.toNat = (if s.fmt = 0#1 then 15 else if t.nbytes.toNat < 16 then 17 else 21) ∧
      t.lastData.toNat = 31 + 8 * t.nbytes.toNat ∧
      t.fdState = (if 0 < t.nbytes.toNat then 5#4 else 6#4))

/-- What an accepted sample does to the FrameDecoder in the DATA, CRC, CRC_DEL, ACK, ACK_DEL and EOF states: the
span of a completed byte or field, its warning and the next state, and the frame end (R180, R183 to R188). -/
def Obligations.DataAndTrailerFieldsInTheSampleStep : Prop :=
  ∀ (s t : State) (L : Level) (v : Word), s.Inv → s.en = true → s.cfgErr = false → s.bsState = .sync →
    sp s s.rawIdx = s.sampIdx → ¬(10 < s.rawIdx.toNat ∧ s.rawIdx.toNat % 5 = 4) →
    exec (smpRow L) s = .next t → v = (s.acc <<< 1) ||| L.setWidth 32 →
    (s.fdState = 5#4 → (s.logIdx.toNat - 32) % 8 ≠ 7 →
      t.outFs = s.outFs ∧ t.byteCnt = s.byteCnt ∧ t.outWn = s.outWn) ∧
    (s.fdState = 5#4 → (s.logIdx.toNat - 32) % 8 = 7 →
      (∃ x : Word, t.outFs = some ⟨.data, s.fldStart, s.sampIdx, x⟩ ∧
        x.toNat = 256 * s.byteCnt.toNat + v.toNat % 256) ∧
      t.byteCnt.toNat = s.byteCnt.toNat + 1 ∧ t.outWn = s.outWn) ∧
    (s.fdState = 5#4 → t.fdState = if s.logIdx = s.lastData then 6#4 else 5#4) ∧
    (s.fdState = 6#4 → s.logIdx.toNat ≠ s.lastData.toNat + s.crcLen.toNat →
      t.outFs = s.outFs ∧ t.outWn = s.outWn ∧ t.fdState = 6#4) ∧
    (s.fdState = 6#4 → s.logIdx.toNat = s.lastData.toNat + s.crcLen.toNat →
      (∃ x : Word, t.outFs = some ⟨.crc, s.fldStart, s.sampIdx, x⟩ ∧
        x.toNat = v.toNat % 2 ^ s.crcLen.toNat) ∧
      t.outWn = s.outWn ∧ t.fdState = 7#4) ∧
    (s.fdState = 7#4 →
      t.outFs = some ⟨.crcDel, s.sampIdx, s.sampIdx, L.setWidth 32⟩ ∧
      t.outWn = (if L = 0#1 then some ⟨.crcDelDominant, s.sampIdx, s.sampIdx⟩ else s.outWn) ∧
      t.fdState = 8#4) ∧
    (s.fdState = 8#4 →
      t.outFs = some ⟨.ack, s.sampIdx, s.sampIdx, L.setWidth 32⟩ ∧
      t.outWn = (if L = 1#1 then some ⟨.notAcknowledged, s.sampIdx, s.sampIdx⟩ else s.outWn) ∧
      t.fdState = 9#4) ∧
    (s.fdState = 9#4 →
      t.outFs = some ⟨.ackDel, s.sampIdx, s.sampIdx, L.setWidth 32⟩ ∧
      t.outWn = (if L = 0#1 then some ⟨.ackDelDominant, s.sampIdx, s.sampIdx⟩ else s.outWn) ∧
      t.fdState = 10#4) ∧
    (s.fdState = 10#4 →
      t.outWn = if L = 0#1 then some ⟨.eofDominant, s.sampIdx, s.sampIdx⟩ else s.outWn) ∧
    (s.fdState = 10#4 → s.logIdx.toNat ≠ s.lastData.toNat + s.crcLen.toNat + 10 →
      t.outFs = s.outFs ∧ t.fdState = 10#4) ∧
    (s.fdState = 10#4 → s.logIdx.toNat = s.lastData.toNat + s.crcLen.toNat + 10 →
      t = { State.reset with
            en := s.en
            cfgErr := s.cfgErr
            bitWidth := s.bitWidth
            spOffset := s.spOffset
            anchorS := s.anchorS
            anchorB := s.anchorB
            sampIdx := s.sampIdx + 1#32
            prevLevel := L
            outBm := some (markOf .ordinary L s)
            outFs := some ⟨.eof, s.fldStart, s.sampIdx, v &&& 0x7F#32⟩
            outWn := if L = 0#1 then some ⟨.eofDominant, s.sampIdx, s.sampIdx⟩ else s.outWn
            rdata := s.rdata
            inputs := s.inputs })

/-! ### The FrameDecoder's rows (42_frame_decoder.md)

A handler row alone: its operands are `bitIndex s` (`i`), `bitLevel s` (`L`) and `s.sampIdx` (`n`), where the
MODEL reads them in the state (log entry 3). -/

/-- FD.AWAIT_SOF: the frame begins, and nothing but `fd_state` changes. -/
def Obligations.AwaitSofHandler : Prop :=
  ∀ s : State, exec .fdAwaitSof s = .next { s with fdState := 1#4 }

/-- Accumulation: the first bit of the field the FrameDecoder is in loads `acc` and `fld_start`, every other bit
shifts into `acc`; nothing else changes. The state each field start belongs to is the MODEL's reading
(log entry 4). -/
def Obligations.AccumulationLoadsAndShifts : Prop :=
  ∀ (s : State) (i e : Nat), i = (bitIndex s).toNat → e = s.lastData.toNat + s.crcLen.toNat →
    ((s.fdState = 1#4 ∧ i = 0) ∨ (s.fdState = 2#4 ∧ i = 10) ∨ (s.fdState = 3#4 ∧ i = 24) ∨
        (s.fdState = 4#4 ∧ i = 28) ∨ (s.fdState = 5#4 ∧ i % 8 = 0) ∨
        (s.fdState = 6#4 ∧ i = s.lastData.toNat + 1) ∨ (s.fdState = 7#4 ∧ i = e + 1) ∨
        (s.fdState = 8#4 ∧ i = e + 2) ∨ (s.fdState = 9#4 ∧ i = e + 3) ∨ (s.fdState = 10#4 ∧ i = e + 4) →
      ∃ a : Word, accumulate s = { s with fldStart := s.sampIdx, acc := a } ∧
        a.toNat = (bitLevel s).toNat) ∧
    (¬((s.fdState = 1#4 ∧ i = 0) ∨ (s.fdState = 2#4 ∧ i = 10) ∨ (s.fdState = 3#4 ∧ i = 24) ∨
        (s.fdState = 4#4 ∧ i = 28) ∨ (s.fdState = 5#4 ∧ i % 8 = 0) ∨
        (s.fdState = 6#4 ∧ i = s.lastData.toNat + 1) ∨ (s.fdState = 7#4 ∧ i = e + 1) ∨
        (s.fdState = 8#4 ∧ i = e + 2) ∨ (s.fdState = 9#4 ∧ i = e + 3) ∨ (s.fdState = 10#4 ∧ i = e + 4)) →
      ∃ a : Word, accumulate s = { s with acc := a } ∧
        a.toNat = (2 * s.acc.toNat + (bitLevel s).toNat) % 2 ^ 32)

/-- FD.SOF: at bit 9 the span of the ten bits, warning 1 unless they are 0x3D, and on to ID (R172). -/
def Obligations.SofHandler : Prop :=
  ∀ s : State, exec .fdSof s = .next
    (if (bitIndex s).toNat = 9 then
      { s with
        outFs := some ⟨.sof, s.fldStart, s.sampIdx, s.acc &&& 0x3FF#32⟩
        outWn := if s.acc &&& 0x3FF#32 = 0x3D#32 then s.outWn
          else some ⟨.sofMismatch, s.fldStart, s.sampIdx⟩
        fdState := 2#4 }
    else s)

/-- FD.ID: at bit 23 the span of the fourteen bits, warning 2 if the top seven are all 1, and on to CTRL
(R173). -/
def Obligations.IdHandler : Prop :=
  ∀ s : State, exec .fdId s = .next
    (if (bitIndex s).toNat = 23 then
      { s with
        outFs := some ⟨.id, s.fldStart, s.sampIdx, s.acc &&& 0x3FFF#32⟩
        outWn := if 0x3F80 ≤ (s.acc &&& 0x3FFF#32).toNat then some ⟨.idReserved, s.fldStart, s.sampIdx⟩
          else s.outWn
        fdState := 3#4 }
    else s)

/-- FD.CTRL: the format flag at bit 24, the three control bits at 25 to 27 under the names of the format, and
after bit 27 on to LEN with the four bits kept (R174, R175). -/
def Obligations.CtrlHandler : Prop :=
  ∀ s : State,
    ((bitIndex s).toNat = 24 →
      exec .fdCtrl s = .next
        { s with
          fmt := bitLevel s
          outFs := some ⟨.fmt, s.sampIdx, s.sampIdx, (bitLevel s).setWidth 32⟩ }) ∧
    ((bitIndex s).toNat = 25 →
      exec .fdCtrl s = .next
        { s with
          outFs := some ⟨if s.fmt = 0#1 then .rak else .rsv, s.sampIdx, s.sampIdx,
            (bitLevel s).setWidth 32⟩ }) ∧
    ((bitIndex s).toNat = 26 →
      exec .fdCtrl s = .next
        { s with
          outFs := some ⟨if s.fmt = 0#1 then .rw else .brs, s.sampIdx, s.sampIdx,
            (bitLevel s).setWidth 32⟩ }) ∧
    ((bitIndex s).toNat = 27 →
      exec .fdCtrl s = .next
        { s with
          outFs := some ⟨if s.fmt = 0#1 then .rtr else .esi, s.sampIdx, s.sampIdx,
            (bitLevel s).setWidth 32⟩
          ctrl4 := s.acc.setWidth 4
          fdState := 4#4 }) ∧
    ((bitIndex s).toNat < 24 ∨ 27 < (bitIndex s).toNat → exec .fdCtrl s = .next s)

/-- FD.LEN: at bit 31 the DLC and its byte count, the span, warning 3 on a classic frame with DLC above 8, the
offsets `C` and `D`, and on to DATA, or to CRC if there is no data (R176 to R178). -/
def Obligations.LenHandler : Prop :=
  ∀ (s : State) (n : BitVec 7), n = dlcTable (s.acc.setWidth 4) →
    ((bitIndex s).toNat ≠ 31 → exec .fdLen s = .next s) ∧
    ((bitIndex s).toNat = 31 →
      ∃ (v : Word) (c : BitVec 5) (d : BitIdx),
        exec .fdLen s = .next
          { s with
            dlc := s.acc.setWidth 4
            nbytes := n
            crcLen := c
            lastData := d
            outFs := some ⟨.len, s.fldStart, s.sampIdx, v⟩
            outWn := if s.fmt = 0#1 ∧ 8 < s.acc.toNat % 16 then
                some ⟨.dlcClassic, s.fldStart, s.sampIdx⟩ else s.outWn
            fdState := if n = 0#7 then 6#4 else 5#4 } ∧
        v.toNat = 256 * n.toNat + s.acc.toNat % 16 ∧
        c.toNat = (if s.fmt = 0#1 then 15 else if n.toNat < 16 then 17 else 21) ∧
        d.toNat = 31 + 8 * n.toNat)

/-- `DLC_TABLE` and the CRC length, value by value (R91, R92). -/
def Obligations.LengthTables : Prop :=
  (∀ d : BitVec 4, d.toNat ≤ 8 → (dlcTable d).toNat = d.toNat) ∧
  dlcTable 9#4 = 12#7 ∧ dlcTable 10#4 = 16#7 ∧ dlcTable 11#4 = 20#7 ∧ dlcTable 12#4 = 24#7 ∧
  dlcTable 13#4 = 32#7 ∧ dlcTable 14#4 = 48#7 ∧ dlcTable 15#4 = 64#7 ∧
  (∀ n : BitVec 7, crcLenOf 0#1 n = 15#5) ∧
  (∀ n : BitVec 7, n.toNat < 16 → crcLenOf 1#1 n = 17#5) ∧
  (∀ n : BitVec 7, 16 ≤ n.toNat → crcLenOf 1#1 n = 21#5)

/-- FD.DATA on a logical bit: the eighth bit of a byte gives its span, with its index, and is counted; the last
data bit leads to CRC (R179, R180). -/
def Obligations.DataHandlerOnALogicalBit : Prop :=
  ∀ s : State,
    ¬(10 < (s.rawIdx - 1#16).toNat ∧ (s.rawIdx - 1#16).toNat % 5 = 4 ∧
      s.win.getLsbD 0 = false ∧ s.win.getLsbD 1 = false) →
    ((bitIndex s).toNat % 8 ≠ 7 →
      exec .fdData s = .next
        { s with fdState := if bitIndex s = s.lastData then 6#4 else s.fdState }) ∧
    ((bitIndex s).toNat % 8 = 7 →
      ∃ v : Word,
        exec .fdData s = .next
          { s with
            outFs := some ⟨.data, s.fldStart, s.sampIdx, v⟩
            byteCnt := s.byteCnt + 1#7
            fdState := if bitIndex s = s.lastData then 6#4 else s.fdState } ∧
        v.toNat = 256 * s.byteCnt.toNat + s.acc.toNat % 256)

/-- FD.DATA on an EOD marker: the field ends at the last data bit received, a partial byte is dropped without a
record, and `C` and the byte count stay (R181). -/
def Obligations.DataHandlerOnAnEodMarker : Prop :=
  ∀ s : State, 10 < (s.rawIdx - 1#16).toNat → (s.rawIdx - 1#16).toNat % 5 = 4 →
    s.win.getLsbD 0 = false → s.win.getLsbD 1 = false →
    exec .fdData s = .next { s with lastData := s.logIdx - 1#16, acc := 0#32, fdState := 6#4 }

/-- FD.CRC: at `E` the span of the last `C` bits, and on to the delimiter; the value is not checked (R183). -/
def Obligations.CrcHandler : Prop :=
  ∀ s : State,
    ((bitIndex s).toNat ≠ s.lastData.toNat + s.crcLen.toNat → exec .fdCrc s = .next s) ∧
    ((bitIndex s).toNat = s.lastData.toNat + s.crcLen.toNat →
      ∃ v : Word,
        exec .fdCrc s = .next
          { s with outFs := some ⟨.crc, s.fldStart, s.sampIdx, v⟩, fdState := 7#4 } ∧
        v.toNat = s.acc.toNat % 2 ^ s.crcLen.toNat)

/-- The three single-bit fields of the trailer: the span of the bit, the warning of the wrong level, and the
next state whatever the level (R184, R185, R186). -/
def Obligations.TrailerHandlers : Prop :=
  ∀ s : State,
    exec .fdCrcDel s = .next
      { s with
        outFs := some ⟨.crcDel, s.sampIdx, s.sampIdx, (bitLevel s).setWidth 32⟩
        outWn := if bitLevel s = 0#1 then some ⟨.crcDelDominant, s.sampIdx, s.sampIdx⟩ else s.outWn
        fdState := 8#4 } ∧
    exec .fdAck s = .next
      { s with
        outFs := some ⟨.ack, s.sampIdx, s.sampIdx, (bitLevel s).setWidth 32⟩
        outWn := if bitLevel s = 1#1 then some ⟨.notAcknowledged, s.sampIdx, s.sampIdx⟩ else s.outWn
        fdState := 9#4 } ∧
    exec .fdAckDel s = .next
      { s with
        outFs := some ⟨.ackDel, s.sampIdx, s.sampIdx, (bitLevel s).setWidth 32⟩
        outWn := if bitLevel s = 0#1 then some ⟨.ackDelDominant, s.sampIdx, s.sampIdx⟩ else s.outWn
        fdState := 10#4 }

/-- FD.EOF: each dominant bit warns; at `E + 10` the span of the seven bits and the frame end, after which the
frame state is as at reset and control, configuration, anchor, sample count and level are kept (R187, R188). -/
def Obligations.EofHandler : Prop :=
  ∀ s : State,
    ((bitIndex s).toNat ≠ s.lastData.toNat + s.crcLen.toNat + 10 →
      exec .fdEof s = .next
        { s with
          outWn := if bitLevel s = 0#1 then some ⟨.eofDominant, s.sampIdx, s.sampIdx⟩ else s.outWn }) ∧
    ((bitIndex s).toNat = s.lastData.toNat + s.crcLen.toNat + 10 →
      exec .fdEof s = .next
        { State.reset with
          en := s.en
          cfgErr := s.cfgErr
          bitWidth := s.bitWidth
          spOffset := s.spOffset
          anchorS := s.anchorS
          anchorB := s.anchorB
          sampIdx := s.sampIdx
          prevLevel := s.prevLevel
          outBm := s.outBm
          outFs := some ⟨.eof, s.fldStart, s.sampIdx, s.acc &&& 0x7F#32⟩
          outWn := if bitLevel s = 0#1 then some ⟨.eofDominant, s.sampIdx, s.sampIdx⟩ else s.outWn
          rdata := s.rdata
          inputs := s.inputs })

/-- The reserved codes are refused: their rows always, and a sample exactly where a logical bit would be
dispatched on one of them, which is the MODEL's reading of R83 (log entry 5): a running machine takes a raw bit
that is not at a stuff position, at its sample point, or at an edge in SYNC or a dominant sample in IDLE that
re-anchors with an offset below one sample. The refusal names the code. -/
def Obligations.ReservedCodesAreRefused : Prop :=
  (∀ s : State, exec .fdReserved11 s = .refused (.reservedFdState 11#4)) ∧
  (∀ (s : State) (c : FdCode), 12 ≤ c.toNat →
    exec (.fdReserved12 c) s = .refused (.reservedFdState c)) ∧
  ∀ (s : State) (L : Level),
    ((∃ r : Refusal, exec (smpRow L) s = .refused r) ↔
      s.en = true ∧ s.cfgErr = false ∧ 11 ≤ s.fdState.toNat ∧
      ((s.bsState = .sync ∧ ¬(10 < s.rawIdx.toNat ∧ s.rawIdx.toNat % 5 = 4) ∧
          (sp s s.rawIdx = s.sampIdx ∨
            (s.prevLevel = 1#1 ∧ L = 0#1 ∧ s.spOffset.toNat < 0x10000))) ∨
        (s.bsState = .idle ∧ L = 0#1 ∧ s.spOffset.toNat < 0x10000))) ∧
    ∀ r : Refusal, exec (smpRow L) s = .refused r → r = .reservedFdState s.fdState

/-- No check aborts, shortens or restarts a frame: each checked handler completes, and the layout and the place
in the frame it leaves do not depend on the bits that are checked; an oversized DLC keeps the layout that its
table entry gives (R191). The rows stand alone here, and read their operands where the MODEL does (log
entry 3). -/
def Obligations.ViolationsChangeNoLayout : Prop :=
  (∀ i ∈ [Instr.fdSof, .fdId, .fdCrcDel, .fdAck, .fdAckDel, .fdEof],
    ∀ (s : State) (a : Word) (w : BitVec 5),
      ∃ t u : State, exec i s = .next t ∧ exec i { s with acc := a, win := w } = .next u ∧
        layoutOf t = layoutOf u) ∧
  ∀ s : State, (bitIndex s).toNat = 31 → s.fmt = 0#1 → 8 < s.acc.toNat % 16 →
    ∃ t : State, exec .fdLen s = .next t ∧ t.outWn = some ⟨.dlcClassic, s.fldStart, s.sampIdx⟩ ∧
      t.nbytes = dlcTable (s.acc.setWidth 4) ∧ t.crcLen = 15#5 ∧
      t.lastData.toNat = 31 + 8 * t.nbytes.toNat ∧ t.fdState = 5#4

/-! ### Whole-machine properties -/

/-- The invariant holds after reset, whatever inputs are to come. -/
def Obligations.InvariantAtReset : Prop :=
  ∀ ins : List CycleInput, State.Inv { State.reset with inputs := ins }

/-- Every step keeps the invariant. -/
def Obligations.StepKeepsInvariant : Prop :=
  ∀ s t : State, s.Inv → step s = .next t → t.Inv

/-- From every state of the invariant, every step answers a next state, whatever its input: "No input encoding
is illegal, and none traps". -/
def Obligations.NoInputStopsTheMachine : Prop :=
  ∀ s : State, s.Inv → ∃ t : State, step s = .next t

/-- A step refuses only where `fd_state` holds a reserved code, and names it (R83). -/
def Obligations.OnlyReservedCodesRefuse : Prop :=
  ∀ (s : State) (r : Refusal), step s = .refused r →
    11 ≤ s.fdState.toNat ∧ r = .reservedFdState s.fdState

/-- In every state a run from reset reaches, the five invariants of R37 hold, both indices stay within the
bounds of R190, and a frame in progress awaits the logical index that R85 gives its raw index. -/
def Obligations.ReachableStatesKeepR37 : Prop :=
  ∀ s : State, Reachable s →
    SpecInvariants s ∧ IndexBounds s ∧ (s.bsState = .sync → s.logIdx.toNat = logOfRaw s.rawIdx.toNat)

/-- Stuff insertion, then de-stuffing, is the identity: whatever bit is inserted at each stuff position, if it
never makes the EOD pattern, the FrameDecoder receives the logical bits unchanged, in order, with indices 0, 1,
2, … ; of any stream whose frame has not ended before its last bit, which streams of up to the 57 logical bits of
the shortest frame all are (R157, R190). -/
def Obligations.StuffInsertionRoundTrip : Prop :=
  ∀ (ins : Nat → Level → Level), (∀ r p, ¬(p = 0#1 ∧ ins r p = 0#1)) →
    ∀ (s : State) (bits : List Level), s.Inv → s.bsState = .sync → s.rawIdx = 0#16 →
      (bits.length ≤ 57 → frameLasts (insertStuff ins 0 0#1 bits) s = true) ∧
      (frameLasts (insertStuff ins 0 0#1 bits) s = true →
        ∃ t : State, (feedRaw (insertStuff ins 0 0#1 bits) s).2 = .next t ∧
          ordinaryBits (feedRaw (insertStuff ins 0 0#1 bits) s).1 =
            (List.range bits.length).zip bits ∧
          ∀ m ∈ (feedRaw (insertStuff ins 0 0#1 bits) s).1, m.kind ≠ .eod)

/-- Sample time has no origin: a machine whose sample count and anchor run `k` ahead, mod 2^32, takes the same
bits and gives the same records `k` samples later, so a frame that crosses the wrap is decoded as any other
(R287). -/
def Obligations.SampleTimeShift : Prop :=
  ∀ (k : Word) (L : Level) (s s' t : State), AwaitIffNoBit s → ShiftedBy k s s' →
    exec (smpRow L) s = .next t →
    ∃ t' : State, exec (smpRow L) s' = .next t' ∧ ShiftedBy k t t'
end

