-- ==== Sys2Proof/Laws/State.lean ====
section
/-! SUPPORT. What each named update of the state leaves in each field: one lemma per field per update, so that no proof unfolds a record update. -/

namespace Sys2Proof.Machine

open Sys2Proof

/-! ### takeInput -/

@[simp] theorem takeInput_en (s : State) : (takeInput s).en = s.en := rfl
@[simp] theorem takeInput_cfgErr (s : State) : (takeInput s).cfgErr = s.cfgErr := rfl
@[simp] theorem takeInput_bitWidth (s : State) : (takeInput s).bitWidth = s.bitWidth := rfl
@[simp] theorem takeInput_spOffset (s : State) : (takeInput s).spOffset = s.spOffset := rfl
@[simp] theorem takeInput_anchorS (s : State) : (takeInput s).anchorS = s.anchorS := rfl
@[simp] theorem takeInput_anchorB (s : State) : (takeInput s).anchorB = s.anchorB := rfl
@[simp] theorem takeInput_bsState (s : State) : (takeInput s).bsState = s.bsState := rfl
@[simp] theorem takeInput_sampIdx (s : State) : (takeInput s).sampIdx = s.sampIdx := rfl
@[simp] theorem takeInput_prevLevel (s : State) : (takeInput s).prevLevel = s.prevLevel := rfl
@[simp] theorem takeInput_rawIdx (s : State) : (takeInput s).rawIdx = s.rawIdx := rfl
@[simp] theorem takeInput_win (s : State) : (takeInput s).win = s.win := rfl
@[simp] theorem takeInput_logIdx (s : State) : (takeInput s).logIdx = s.logIdx := rfl
@[simp] theorem takeInput_fdState (s : State) : (takeInput s).fdState = s.fdState := rfl
@[simp] theorem takeInput_acc (s : State) : (takeInput s).acc = s.acc := rfl
@[simp] theorem takeInput_fldStart (s : State) : (takeInput s).fldStart = s.fldStart := rfl
@[simp] theorem takeInput_fmt (s : State) : (takeInput s).fmt = s.fmt := rfl
@[simp] theorem takeInput_ctrl4 (s : State) : (takeInput s).ctrl4 = s.ctrl4 := rfl
@[simp] theorem takeInput_dlc (s : State) : (takeInput s).dlc = s.dlc := rfl
@[simp] theorem takeInput_nbytes (s : State) : (takeInput s).nbytes = s.nbytes := rfl
@[simp] theorem takeInput_byteCnt (s : State) : (takeInput s).byteCnt = s.byteCnt := rfl
@[simp] theorem takeInput_crcLen (s : State) : (takeInput s).crcLen = s.crcLen := rfl
@[simp] theorem takeInput_lastData (s : State) : (takeInput s).lastData = s.lastData := rfl
@[simp] theorem takeInput_outBm (s : State) : (takeInput s).outBm = s.outBm := rfl
@[simp] theorem takeInput_outFs (s : State) : (takeInput s).outFs = s.outFs := rfl
@[simp] theorem takeInput_outWn (s : State) : (takeInput s).outWn = s.outWn := rfl
@[simp] theorem takeInput_rdata (s : State) : (takeInput s).rdata = s.rdata := rfl
@[simp] theorem takeInput_inputs (s : State) : (takeInput s).inputs = s.inputs.tail := rfl

/-! ### beginCycle -/

@[simp] theorem beginCycle_en (s : State) : (beginCycle s).en = s.en := rfl
@[simp] theorem beginCycle_cfgErr (s : State) : (beginCycle s).cfgErr = s.cfgErr := rfl
@[simp] theorem beginCycle_bitWidth (s : State) : (beginCycle s).bitWidth = s.bitWidth := rfl
@[simp] theorem beginCycle_spOffset (s : State) : (beginCycle s).spOffset = s.spOffset := rfl
@[simp] theorem beginCycle_anchorS (s : State) : (beginCycle s).anchorS = s.anchorS := rfl
@[simp] theorem beginCycle_anchorB (s : State) : (beginCycle s).anchorB = s.anchorB := rfl
@[simp] theorem beginCycle_bsState (s : State) : (beginCycle s).bsState = s.bsState := rfl
@[simp] theorem beginCycle_sampIdx (s : State) : (beginCycle s).sampIdx = s.sampIdx := rfl
@[simp] theorem beginCycle_prevLevel (s : State) : (beginCycle s).prevLevel = s.prevLevel := rfl
@[simp] theorem beginCycle_rawIdx (s : State) : (beginCycle s).rawIdx = s.rawIdx := rfl
@[simp] theorem beginCycle_win (s : State) : (beginCycle s).win = s.win := rfl
@[simp] theorem beginCycle_logIdx (s : State) : (beginCycle s).logIdx = s.logIdx := rfl
@[simp] theorem beginCycle_fdState (s : State) : (beginCycle s).fdState = s.fdState := rfl
@[simp] theorem beginCycle_acc (s : State) : (beginCycle s).acc = s.acc := rfl
@[simp] theorem beginCycle_fldStart (s : State) : (beginCycle s).fldStart = s.fldStart := rfl
@[simp] theorem beginCycle_fmt (s : State) : (beginCycle s).fmt = s.fmt := rfl
@[simp] theorem beginCycle_ctrl4 (s : State) : (beginCycle s).ctrl4 = s.ctrl4 := rfl
@[simp] theorem beginCycle_dlc (s : State) : (beginCycle s).dlc = s.dlc := rfl
@[simp] theorem beginCycle_nbytes (s : State) : (beginCycle s).nbytes = s.nbytes := rfl
@[simp] theorem beginCycle_byteCnt (s : State) : (beginCycle s).byteCnt = s.byteCnt := rfl
@[simp] theorem beginCycle_crcLen (s : State) : (beginCycle s).crcLen = s.crcLen := rfl
@[simp] theorem beginCycle_lastData (s : State) : (beginCycle s).lastData = s.lastData := rfl
@[simp] theorem beginCycle_outBm (s : State) : (beginCycle s).outBm = none := rfl
@[simp] theorem beginCycle_outFs (s : State) : (beginCycle s).outFs = none := rfl
@[simp] theorem beginCycle_outWn (s : State) : (beginCycle s).outWn = none := rfl
@[simp] theorem beginCycle_rdata (s : State) : (beginCycle s).rdata = 0#32 := rfl
@[simp] theorem beginCycle_inputs (s : State) : (beginCycle s).inputs = s.inputs := rfl

/-! ### recordEdge -/

@[simp] theorem recordEdge_en (n : Word) (b : BitIdx) (s : State) : (recordEdge n b s).en = s.en := rfl
@[simp] theorem recordEdge_cfgErr (n : Word) (b : BitIdx) (s : State) : (recordEdge n b s).cfgErr = s.cfgErr := rfl
@[simp] theorem recordEdge_bitWidth (n : Word) (b : BitIdx) (s : State) : (recordEdge n b s).bitWidth = s.bitWidth := rfl
@[simp] theorem recordEdge_spOffset (n : Word) (b : BitIdx) (s : State) : (recordEdge n b s).spOffset = s.spOffset := rfl
@[simp] theorem recordEdge_anchorS (n : Word) (b : BitIdx) (s : State) : (recordEdge n b s).anchorS = n := rfl
@[simp] theorem recordEdge_anchorB (n : Word) (b : BitIdx) (s : State) : (recordEdge n b s).anchorB = b := rfl
@[simp] theorem recordEdge_bsState (n : Word) (b : BitIdx) (s : State) : (recordEdge n b s).bsState = s.bsState := rfl
@[simp] theorem recordEdge_sampIdx (n : Word) (b : BitIdx) (s : State) : (recordEdge n b s).sampIdx = s.sampIdx := rfl
@[simp] theorem recordEdge_prevLevel (n : Word) (b : BitIdx) (s : State) : (recordEdge n b s).prevLevel = s.prevLevel := rfl
@[simp] theorem recordEdge_rawIdx (n : Word) (b : BitIdx) (s : State) : (recordEdge n b s).rawIdx = s.rawIdx := rfl
@[simp] theorem recordEdge_win (n : Word) (b : BitIdx) (s : State) : (recordEdge n b s).win = s.win := rfl
@[simp] theorem recordEdge_logIdx (n : Word) (b : BitIdx) (s : State) : (recordEdge n b s).logIdx = s.logIdx := rfl
@[simp] theorem recordEdge_fdState (n : Word) (b : BitIdx) (s : State) : (recordEdge n b s).fdState = s.fdState := rfl
@[simp] theorem recordEdge_acc (n : Word) (b : BitIdx) (s : State) : (recordEdge n b s).acc = s.acc := rfl
@[simp] theorem recordEdge_fldStart (n : Word) (b : BitIdx) (s : State) : (recordEdge n b s).fldStart = s.fldStart := rfl
@[simp] theorem recordEdge_fmt (n : Word) (b : BitIdx) (s : State) : (recordEdge n b s).fmt = s.fmt := rfl
@[simp] theorem recordEdge_ctrl4 (n : Word) (b : BitIdx) (s : State) : (recordEdge n b s).ctrl4 = s.ctrl4 := rfl
@[simp] theorem recordEdge_dlc (n : Word) (b : BitIdx) (s : State) : (recordEdge n b s).dlc = s.dlc := rfl
@[simp] theorem recordEdge_nbytes (n : Word) (b : BitIdx) (s : State) : (recordEdge n b s).nbytes = s.nbytes := rfl
@[simp] theorem recordEdge_byteCnt (n : Word) (b : BitIdx) (s : State) : (recordEdge n b s).byteCnt = s.byteCnt := rfl
@[simp] theorem recordEdge_crcLen (n : Word) (b : BitIdx) (s : State) : (recordEdge n b s).crcLen = s.crcLen := rfl
@[simp] theorem recordEdge_lastData (n : Word) (b : BitIdx) (s : State) : (recordEdge n b s).lastData = s.lastData := rfl
@[simp] theorem recordEdge_outBm (n : Word) (b : BitIdx) (s : State) : (recordEdge n b s).outBm = s.outBm := rfl
@[simp] theorem recordEdge_outFs (n : Word) (b : BitIdx) (s : State) : (recordEdge n b s).outFs = s.outFs := rfl
@[simp] theorem recordEdge_outWn (n : Word) (b : BitIdx) (s : State) : (recordEdge n b s).outWn = s.outWn := rfl
@[simp] theorem recordEdge_rdata (n : Word) (b : BitIdx) (s : State) : (recordEdge n b s).rdata = s.rdata := rfl
@[simp] theorem recordEdge_inputs (n : Word) (b : BitIdx) (s : State) : (recordEdge n b s).inputs = s.inputs := rfl

/-! ### emitMark -/

@[simp] theorem emitMark_en (k : BitMarkKind) (L : Level) (r : BitIdx) (s : State) : (emitMark k L r s).en = s.en := rfl
@[simp] theorem emitMark_cfgErr (k : BitMarkKind) (L : Level) (r : BitIdx) (s : State) : (emitMark k L r s).cfgErr = s.cfgErr := rfl
@[simp] theorem emitMark_bitWidth (k : BitMarkKind) (L : Level) (r : BitIdx) (s : State) : (emitMark k L r s).bitWidth = s.bitWidth := rfl
@[simp] theorem emitMark_spOffset (k : BitMarkKind) (L : Level) (r : BitIdx) (s : State) : (emitMark k L r s).spOffset = s.spOffset := rfl
@[simp] theorem emitMark_anchorS (k : BitMarkKind) (L : Level) (r : BitIdx) (s : State) : (emitMark k L r s).anchorS = s.anchorS := rfl
@[simp] theorem emitMark_anchorB (k : BitMarkKind) (L : Level) (r : BitIdx) (s : State) : (emitMark k L r s).anchorB = s.anchorB := rfl
@[simp] theorem emitMark_bsState (k : BitMarkKind) (L : Level) (r : BitIdx) (s : State) : (emitMark k L r s).bsState = s.bsState := rfl
@[simp] theorem emitMark_sampIdx (k : BitMarkKind) (L : Level) (r : BitIdx) (s : State) : (emitMark k L r s).sampIdx = s.sampIdx := rfl
@[simp] theorem emitMark_prevLevel (k : BitMarkKind) (L : Level) (r : BitIdx) (s : State) : (emitMark k L r s).prevLevel = s.prevLevel := rfl
@[simp] theorem emitMark_rawIdx (k : BitMarkKind) (L : Level) (r : BitIdx) (s : State) : (emitMark k L r s).rawIdx = s.rawIdx := rfl
@[simp] theorem emitMark_win (k : BitMarkKind) (L : Level) (r : BitIdx) (s : State) : (emitMark k L r s).win = s.win := rfl
@[simp] theorem emitMark_logIdx (k : BitMarkKind) (L : Level) (r : BitIdx) (s : State) : (emitMark k L r s).logIdx = s.logIdx := rfl
@[simp] theorem emitMark_fdState (k : BitMarkKind) (L : Level) (r : BitIdx) (s : State) : (emitMark k L r s).fdState = s.fdState := rfl
@[simp] theorem emitMark_acc (k : BitMarkKind) (L : Level) (r : BitIdx) (s : State) : (emitMark k L r s).acc = s.acc := rfl
@[simp] theorem emitMark_fldStart (k : BitMarkKind) (L : Level) (r : BitIdx) (s : State) : (emitMark k L r s).fldStart = s.fldStart := rfl
@[simp] theorem emitMark_fmt (k : BitMarkKind) (L : Level) (r : BitIdx) (s : State) : (emitMark k L r s).fmt = s.fmt := rfl
@[simp] theorem emitMark_ctrl4 (k : BitMarkKind) (L : Level) (r : BitIdx) (s : State) : (emitMark k L r s).ctrl4 = s.ctrl4 := rfl
@[simp] theorem emitMark_dlc (k : BitMarkKind) (L : Level) (r : BitIdx) (s : State) : (emitMark k L r s).dlc = s.dlc := rfl
@[simp] theorem emitMark_nbytes (k : BitMarkKind) (L : Level) (r : BitIdx) (s : State) : (emitMark k L r s).nbytes = s.nbytes := rfl
@[simp] theorem emitMark_byteCnt (k : BitMarkKind) (L : Level) (r : BitIdx) (s : State) : (emitMark k L r s).byteCnt = s.byteCnt := rfl
@[simp] theorem emitMark_crcLen (k : BitMarkKind) (L : Level) (r : BitIdx) (s : State) : (emitMark k L r s).crcLen = s.crcLen := rfl
@[simp] theorem emitMark_lastData (k : BitMarkKind) (L : Level) (r : BitIdx) (s : State) : (emitMark k L r s).lastData = s.lastData := rfl
@[simp] theorem emitMark_outBm (k : BitMarkKind) (L : Level) (r : BitIdx) (s : State) : (emitMark k L r s).outBm = some ⟨k, L, r, s.logIdx, s.sampIdx, markStart s.spOffset s.sampIdx, markStop s.bitWidth s.spOffset s.sampIdx⟩ := rfl
@[simp] theorem emitMark_outFs (k : BitMarkKind) (L : Level) (r : BitIdx) (s : State) : (emitMark k L r s).outFs = s.outFs := rfl
@[simp] theorem emitMark_outWn (k : BitMarkKind) (L : Level) (r : BitIdx) (s : State) : (emitMark k L r s).outWn = s.outWn := rfl
@[simp] theorem emitMark_rdata (k : BitMarkKind) (L : Level) (r : BitIdx) (s : State) : (emitMark k L r s).rdata = s.rdata := rfl
@[simp] theorem emitMark_inputs (k : BitMarkKind) (L : Level) (r : BitIdx) (s : State) : (emitMark k L r s).inputs = s.inputs := rfl

/-! ### emitSpan -/

@[simp] theorem emitSpan_en (k : FieldKind) (a b v : Word) (s : State) : (emitSpan k a b v s).en = s.en := rfl
@[simp] theorem emitSpan_cfgErr (k : FieldKind) (a b v : Word) (s : State) : (emitSpan k a b v s).cfgErr = s.cfgErr := rfl
@[simp] theorem emitSpan_bitWidth (k : FieldKind) (a b v : Word) (s : State) : (emitSpan k a b v s).bitWidth = s.bitWidth := rfl
@[simp] theorem emitSpan_spOffset (k : FieldKind) (a b v : Word) (s : State) : (emitSpan k a b v s).spOffset = s.spOffset := rfl
@[simp] theorem emitSpan_anchorS (k : FieldKind) (a b v : Word) (s : State) : (emitSpan k a b v s).anchorS = s.anchorS := rfl
@[simp] theorem emitSpan_anchorB (k : FieldKind) (a b v : Word) (s : State) : (emitSpan k a b v s).anchorB = s.anchorB := rfl
@[simp] theorem emitSpan_bsState (k : FieldKind) (a b v : Word) (s : State) : (emitSpan k a b v s).bsState = s.bsState := rfl
@[simp] theorem emitSpan_sampIdx (k : FieldKind) (a b v : Word) (s : State) : (emitSpan k a b v s).sampIdx = s.sampIdx := rfl
@[simp] theorem emitSpan_prevLevel (k : FieldKind) (a b v : Word) (s : State) : (emitSpan k a b v s).prevLevel = s.prevLevel := rfl
@[simp] theorem emitSpan_rawIdx (k : FieldKind) (a b v : Word) (s : State) : (emitSpan k a b v s).rawIdx = s.rawIdx := rfl
@[simp] theorem emitSpan_win (k : FieldKind) (a b v : Word) (s : State) : (emitSpan k a b v s).win = s.win := rfl
@[simp] theorem emitSpan_logIdx (k : FieldKind) (a b v : Word) (s : State) : (emitSpan k a b v s).logIdx = s.logIdx := rfl
@[simp] theorem emitSpan_fdState (k : FieldKind) (a b v : Word) (s : State) : (emitSpan k a b v s).fdState = s.fdState := rfl
@[simp] theorem emitSpan_acc (k : FieldKind) (a b v : Word) (s : State) : (emitSpan k a b v s).acc = s.acc := rfl
@[simp] theorem emitSpan_fldStart (k : FieldKind) (a b v : Word) (s : State) : (emitSpan k a b v s).fldStart = s.fldStart := rfl
@[simp] theorem emitSpan_fmt (k : FieldKind) (a b v : Word) (s : State) : (emitSpan k a b v s).fmt = s.fmt := rfl
@[simp] theorem emitSpan_ctrl4 (k : FieldKind) (a b v : Word) (s : State) : (emitSpan k a b v s).ctrl4 = s.ctrl4 := rfl
@[simp] theorem emitSpan_dlc (k : FieldKind) (a b v : Word) (s : State) : (emitSpan k a b v s).dlc = s.dlc := rfl
@[simp] theorem emitSpan_nbytes (k : FieldKind) (a b v : Word) (s : State) : (emitSpan k a b v s).nbytes = s.nbytes := rfl
@[simp] theorem emitSpan_byteCnt (k : FieldKind) (a b v : Word) (s : State) : (emitSpan k a b v s).byteCnt = s.byteCnt := rfl
@[simp] theorem emitSpan_crcLen (k : FieldKind) (a b v : Word) (s : State) : (emitSpan k a b v s).crcLen = s.crcLen := rfl
@[simp] theorem emitSpan_lastData (k : FieldKind) (a b v : Word) (s : State) : (emitSpan k a b v s).lastData = s.lastData := rfl
@[simp] theorem emitSpan_outBm (k : FieldKind) (a b v : Word) (s : State) : (emitSpan k a b v s).outBm = s.outBm := rfl
@[simp] theorem emitSpan_outFs (k : FieldKind) (a b v : Word) (s : State) : (emitSpan k a b v s).outFs = some ⟨k, a, b, v⟩ := rfl
@[simp] theorem emitSpan_outWn (k : FieldKind) (a b v : Word) (s : State) : (emitSpan k a b v s).outWn = s.outWn := rfl
@[simp] theorem emitSpan_rdata (k : FieldKind) (a b v : Word) (s : State) : (emitSpan k a b v s).rdata = s.rdata := rfl
@[simp] theorem emitSpan_inputs (k : FieldKind) (a b v : Word) (s : State) : (emitSpan k a b v s).inputs = s.inputs := rfl

/-! ### emitWarningIf -/

@[simp] theorem emitWarningIf_en (c : Bool) (k : WarningCode) (a b : Word) (s : State) : (emitWarningIf c k a b s).en = s.en := by cases c <;> rfl
@[simp] theorem emitWarningIf_cfgErr (c : Bool) (k : WarningCode) (a b : Word) (s : State) : (emitWarningIf c k a b s).cfgErr = s.cfgErr := by cases c <;> rfl
@[simp] theorem emitWarningIf_bitWidth (c : Bool) (k : WarningCode) (a b : Word) (s : State) : (emitWarningIf c k a b s).bitWidth = s.bitWidth := by cases c <;> rfl
@[simp] theorem emitWarningIf_spOffset (c : Bool) (k : WarningCode) (a b : Word) (s : State) : (emitWarningIf c k a b s).spOffset = s.spOffset := by cases c <;> rfl
@[simp] theorem emitWarningIf_anchorS (c : Bool) (k : WarningCode) (a b : Word) (s : State) : (emitWarningIf c k a b s).anchorS = s.anchorS := by cases c <;> rfl
@[simp] theorem emitWarningIf_anchorB (c : Bool) (k : WarningCode) (a b : Word) (s : State) : (emitWarningIf c k a b s).anchorB = s.anchorB := by cases c <;> rfl
@[simp] theorem emitWarningIf_bsState (c : Bool) (k : WarningCode) (a b : Word) (s : State) : (emitWarningIf c k a b s).bsState = s.bsState := by cases c <;> rfl
@[simp] theorem emitWarningIf_sampIdx (c : Bool) (k : WarningCode) (a b : Word) (s : State) : (emitWarningIf c k a b s).sampIdx = s.sampIdx := by cases c <;> rfl
@[simp] theorem emitWarningIf_prevLevel (c : Bool) (k : WarningCode) (a b : Word) (s : State) : (emitWarningIf c k a b s).prevLevel = s.prevLevel := by cases c <;> rfl
@[simp] theorem emitWarningIf_rawIdx (c : Bool) (k : WarningCode) (a b : Word) (s : State) : (emitWarningIf c k a b s).rawIdx = s.rawIdx := by cases c <;> rfl
@[simp] theorem emitWarningIf_win (c : Bool) (k : WarningCode) (a b : Word) (s : State) : (emitWarningIf c k a b s).win = s.win := by cases c <;> rfl
@[simp] theorem emitWarningIf_logIdx (c : Bool) (k : WarningCode) (a b : Word) (s : State) : (emitWarningIf c k a b s).logIdx = s.logIdx := by cases c <;> rfl
@[simp] theorem emitWarningIf_fdState (c : Bool) (k : WarningCode) (a b : Word) (s : State) : (emitWarningIf c k a b s).fdState = s.fdState := by cases c <;> rfl
@[simp] theorem emitWarningIf_acc (c : Bool) (k : WarningCode) (a b : Word) (s : State) : (emitWarningIf c k a b s).acc = s.acc := by cases c <;> rfl
@[simp] theorem emitWarningIf_fldStart (c : Bool) (k : WarningCode) (a b : Word) (s : State) : (emitWarningIf c k a b s).fldStart = s.fldStart := by cases c <;> rfl
@[simp] theorem emitWarningIf_fmt (c : Bool) (k : WarningCode) (a b : Word) (s : State) : (emitWarningIf c k a b s).fmt = s.fmt := by cases c <;> rfl
@[simp] theorem emitWarningIf_ctrl4 (c : Bool) (k : WarningCode) (a b : Word) (s : State) : (emitWarningIf c k a b s).ctrl4 = s.ctrl4 := by cases c <;> rfl
@[simp] theorem emitWarningIf_dlc (c : Bool) (k : WarningCode) (a b : Word) (s : State) : (emitWarningIf c k a b s).dlc = s.dlc := by cases c <;> rfl
@[simp] theorem emitWarningIf_nbytes (c : Bool) (k : WarningCode) (a b : Word) (s : State) : (emitWarningIf c k a b s).nbytes = s.nbytes := by cases c <;> rfl
@[simp] theorem emitWarningIf_byteCnt (c : Bool) (k : WarningCode) (a b : Word) (s : State) : (emitWarningIf c k a b s).byteCnt = s.byteCnt := by cases c <;> rfl
@[simp] theorem emitWarningIf_crcLen (c : Bool) (k : WarningCode) (a b : Word) (s : State) : (emitWarningIf c k a b s).crcLen = s.crcLen := by cases c <;> rfl
@[simp] theorem emitWarningIf_lastData (c : Bool) (k : WarningCode) (a b : Word) (s : State) : (emitWarningIf c k a b s).lastData = s.lastData := by cases c <;> rfl
@[simp] theorem emitWarningIf_outBm (c : Bool) (k : WarningCode) (a b : Word) (s : State) : (emitWarningIf c k a b s).outBm = s.outBm := by cases c <;> rfl
@[simp] theorem emitWarningIf_outFs (c : Bool) (k : WarningCode) (a b : Word) (s : State) : (emitWarningIf c k a b s).outFs = s.outFs := by cases c <;> rfl
@[simp] theorem emitWarningIf_outWn (c : Bool) (k : WarningCode) (a b : Word) (s : State) : (emitWarningIf c k a b s).outWn = (if c then some ⟨k, a, b⟩ else s.outWn) := by cases c <;> rfl
@[simp] theorem emitWarningIf_rdata (c : Bool) (k : WarningCode) (a b : Word) (s : State) : (emitWarningIf c k a b s).rdata = s.rdata := by cases c <;> rfl
@[simp] theorem emitWarningIf_inputs (c : Bool) (k : WarningCode) (a b : Word) (s : State) : (emitWarningIf c k a b s).inputs = s.inputs := by cases c <;> rfl

/-! ### raiseConfigError -/

@[simp] theorem raiseConfigError_en (s : State) : (raiseConfigError s).en = s.en := rfl
@[simp] theorem raiseConfigError_cfgErr (s : State) : (raiseConfigError s).cfgErr = true := rfl
@[simp] theorem raiseConfigError_bitWidth (s : State) : (raiseConfigError s).bitWidth = s.bitWidth := rfl
@[simp] theorem raiseConfigError_spOffset (s : State) : (raiseConfigError s).spOffset = s.spOffset := rfl
@[simp] theorem raiseConfigError_anchorS (s : State) : (raiseConfigError s).anchorS = s.anchorS := rfl
@[simp] theorem raiseConfigError_anchorB (s : State) : (raiseConfigError s).anchorB = s.anchorB := rfl
@[simp] theorem raiseConfigError_bsState (s : State) : (raiseConfigError s).bsState = s.bsState := rfl
@[simp] theorem raiseConfigError_sampIdx (s : State) : (raiseConfigError s).sampIdx = s.sampIdx := rfl
@[simp] theorem raiseConfigError_prevLevel (s : State) : (raiseConfigError s).prevLevel = s.prevLevel := rfl
@[simp] theorem raiseConfigError_rawIdx (s : State) : (raiseConfigError s).rawIdx = s.rawIdx := rfl
@[simp] theorem raiseConfigError_win (s : State) : (raiseConfigError s).win = s.win := rfl
@[simp] theorem raiseConfigError_logIdx (s : State) : (raiseConfigError s).logIdx = s.logIdx := rfl
@[simp] theorem raiseConfigError_fdState (s : State) : (raiseConfigError s).fdState = s.fdState := rfl
@[simp] theorem raiseConfigError_acc (s : State) : (raiseConfigError s).acc = s.acc := rfl
@[simp] theorem raiseConfigError_fldStart (s : State) : (raiseConfigError s).fldStart = s.fldStart := rfl
@[simp] theorem raiseConfigError_fmt (s : State) : (raiseConfigError s).fmt = s.fmt := rfl
@[simp] theorem raiseConfigError_ctrl4 (s : State) : (raiseConfigError s).ctrl4 = s.ctrl4 := rfl
@[simp] theorem raiseConfigError_dlc (s : State) : (raiseConfigError s).dlc = s.dlc := rfl
@[simp] theorem raiseConfigError_nbytes (s : State) : (raiseConfigError s).nbytes = s.nbytes := rfl
@[simp] theorem raiseConfigError_byteCnt (s : State) : (raiseConfigError s).byteCnt = s.byteCnt := rfl
@[simp] theorem raiseConfigError_crcLen (s : State) : (raiseConfigError s).crcLen = s.crcLen := rfl
@[simp] theorem raiseConfigError_lastData (s : State) : (raiseConfigError s).lastData = s.lastData := rfl
@[simp] theorem raiseConfigError_outBm (s : State) : (raiseConfigError s).outBm = s.outBm := rfl
@[simp] theorem raiseConfigError_outFs (s : State) : (raiseConfigError s).outFs = s.outFs := rfl
@[simp] theorem raiseConfigError_outWn (s : State) : (raiseConfigError s).outWn = s.outWn := rfl
@[simp] theorem raiseConfigError_rdata (s : State) : (raiseConfigError s).rdata = s.rdata := rfl
@[simp] theorem raiseConfigError_inputs (s : State) : (raiseConfigError s).inputs = s.inputs := rfl

/-! ### frameEnd -/

@[simp] theorem frameEnd_en (s : State) : (frameEnd s).en = s.en := rfl
@[simp] theorem frameEnd_cfgErr (s : State) : (frameEnd s).cfgErr = s.cfgErr := rfl
@[simp] theorem frameEnd_bitWidth (s : State) : (frameEnd s).bitWidth = s.bitWidth := rfl
@[simp] theorem frameEnd_spOffset (s : State) : (frameEnd s).spOffset = s.spOffset := rfl
@[simp] theorem frameEnd_anchorS (s : State) : (frameEnd s).anchorS = s.anchorS := rfl
@[simp] theorem frameEnd_anchorB (s : State) : (frameEnd s).anchorB = s.anchorB := rfl
@[simp] theorem frameEnd_bsState (s : State) : (frameEnd s).bsState = .idle := rfl
@[simp] theorem frameEnd_sampIdx (s : State) : (frameEnd s).sampIdx = s.sampIdx := rfl
@[simp] theorem frameEnd_prevLevel (s : State) : (frameEnd s).prevLevel = s.prevLevel := rfl
@[simp] theorem frameEnd_rawIdx (s : State) : (frameEnd s).rawIdx = 0#16 := rfl
@[simp] theorem frameEnd_win (s : State) : (frameEnd s).win = 0#5 := rfl
@[simp] theorem frameEnd_logIdx (s : State) : (frameEnd s).logIdx = 0#16 := rfl
@[simp] theorem frameEnd_fdState (s : State) : (frameEnd s).fdState = fdAwaitSofCode := rfl
@[simp] theorem frameEnd_acc (s : State) : (frameEnd s).acc = 0#32 := rfl
@[simp] theorem frameEnd_fldStart (s : State) : (frameEnd s).fldStart = 0#32 := rfl
@[simp] theorem frameEnd_fmt (s : State) : (frameEnd s).fmt = 0#1 := rfl
@[simp] theorem frameEnd_ctrl4 (s : State) : (frameEnd s).ctrl4 = 0#4 := rfl
@[simp] theorem frameEnd_dlc (s : State) : (frameEnd s).dlc = 0#4 := rfl
@[simp] theorem frameEnd_nbytes (s : State) : (frameEnd s).nbytes = 0#7 := rfl
@[simp] theorem frameEnd_byteCnt (s : State) : (frameEnd s).byteCnt = 0#7 := rfl
@[simp] theorem frameEnd_crcLen (s : State) : (frameEnd s).crcLen = 0#5 := rfl
@[simp] theorem frameEnd_lastData (s : State) : (frameEnd s).lastData = 0#16 := rfl
@[simp] theorem frameEnd_outBm (s : State) : (frameEnd s).outBm = s.outBm := rfl
@[simp] theorem frameEnd_outFs (s : State) : (frameEnd s).outFs = s.outFs := rfl
@[simp] theorem frameEnd_outWn (s : State) : (frameEnd s).outWn = s.outWn := rfl
@[simp] theorem frameEnd_rdata (s : State) : (frameEnd s).rdata = s.rdata := rfl
@[simp] theorem frameEnd_inputs (s : State) : (frameEnd s).inputs = s.inputs := rfl

/-! ### datapathReset -/

@[simp] theorem datapathReset_en (s : State) : (datapathReset s).en = s.en := rfl
@[simp] theorem datapathReset_cfgErr (s : State) : (datapathReset s).cfgErr = s.cfgErr := rfl
@[simp] theorem datapathReset_bitWidth (s : State) : (datapathReset s).bitWidth = s.bitWidth := rfl
@[simp] theorem datapathReset_spOffset (s : State) : (datapathReset s).spOffset = s.spOffset := rfl
@[simp] theorem datapathReset_anchorS (s : State) : (datapathReset s).anchorS = 0#32 := rfl
@[simp] theorem datapathReset_anchorB (s : State) : (datapathReset s).anchorB = 0#16 := rfl
@[simp] theorem datapathReset_bsState (s : State) : (datapathReset s).bsState = .idle := rfl
@[simp] theorem datapathReset_sampIdx (s : State) : (datapathReset s).sampIdx = 0#32 := rfl
@[simp] theorem datapathReset_prevLevel (s : State) : (datapathReset s).prevLevel = recessive := rfl
@[simp] theorem datapathReset_rawIdx (s : State) : (datapathReset s).rawIdx = 0#16 := rfl
@[simp] theorem datapathReset_win (s : State) : (datapathReset s).win = 0#5 := rfl
@[simp] theorem datapathReset_logIdx (s : State) : (datapathReset s).logIdx = 0#16 := rfl
@[simp] theorem datapathReset_fdState (s : State) : (datapathReset s).fdState = fdAwaitSofCode := rfl
@[simp] theorem datapathReset_acc (s : State) : (datapathReset s).acc = 0#32 := rfl
@[simp] theorem datapathReset_fldStart (s : State) : (datapathReset s).fldStart = 0#32 := rfl
@[simp] theorem datapathReset_fmt (s : State) : (datapathReset s).fmt = 0#1 := rfl
@[simp] theorem datapathReset_ctrl4 (s : State) : (datapathReset s).ctrl4 = 0#4 := rfl
@[simp] theorem datapathReset_dlc (s : State) : (datapathReset s).dlc = 0#4 := rfl
@[simp] theorem datapathReset_nbytes (s : State) : (datapathReset s).nbytes = 0#7 := rfl
@[simp] theorem datapathReset_byteCnt (s : State) : (datapathReset s).byteCnt = 0#7 := rfl
@[simp] theorem datapathReset_crcLen (s : State) : (datapathReset s).crcLen = 0#5 := rfl
@[simp] theorem datapathReset_lastData (s : State) : (datapathReset s).lastData = 0#16 := rfl
@[simp] theorem datapathReset_outBm (s : State) : (datapathReset s).outBm = s.outBm := rfl
@[simp] theorem datapathReset_outFs (s : State) : (datapathReset s).outFs = s.outFs := rfl
@[simp] theorem datapathReset_outWn (s : State) : (datapathReset s).outWn = s.outWn := rfl
@[simp] theorem datapathReset_rdata (s : State) : (datapathReset s).rdata = s.rdata := rfl
@[simp] theorem datapathReset_inputs (s : State) : (datapathReset s).inputs = s.inputs := rfl

/-! ### disable -/

@[simp] theorem disable_en (s : State) : (disable s).en = false := rfl
@[simp] theorem disable_cfgErr (s : State) : (disable s).cfgErr = false := rfl
@[simp] theorem disable_bitWidth (s : State) : (disable s).bitWidth = s.bitWidth := rfl
@[simp] theorem disable_spOffset (s : State) : (disable s).spOffset = s.spOffset := rfl
@[simp] theorem disable_anchorS (s : State) : (disable s).anchorS = 0#32 := rfl
@[simp] theorem disable_anchorB (s : State) : (disable s).anchorB = 0#16 := rfl
@[simp] theorem disable_bsState (s : State) : (disable s).bsState = .idle := rfl
@[simp] theorem disable_sampIdx (s : State) : (disable s).sampIdx = 0#32 := rfl
@[simp] theorem disable_prevLevel (s : State) : (disable s).prevLevel = recessive := rfl
@[simp] theorem disable_rawIdx (s : State) : (disable s).rawIdx = 0#16 := rfl
@[simp] theorem disable_win (s : State) : (disable s).win = 0#5 := rfl
@[simp] theorem disable_logIdx (s : State) : (disable s).logIdx = 0#16 := rfl
@[simp] theorem disable_fdState (s : State) : (disable s).fdState = fdAwaitSofCode := rfl
@[simp] theorem disable_acc (s : State) : (disable s).acc = 0#32 := rfl
@[simp] theorem disable_fldStart (s : State) : (disable s).fldStart = 0#32 := rfl
@[simp] theorem disable_fmt (s : State) : (disable s).fmt = 0#1 := rfl
@[simp] theorem disable_ctrl4 (s : State) : (disable s).ctrl4 = 0#4 := rfl
@[simp] theorem disable_dlc (s : State) : (disable s).dlc = 0#4 := rfl
@[simp] theorem disable_nbytes (s : State) : (disable s).nbytes = 0#7 := rfl
@[simp] theorem disable_byteCnt (s : State) : (disable s).byteCnt = 0#7 := rfl
@[simp] theorem disable_crcLen (s : State) : (disable s).crcLen = 0#5 := rfl
@[simp] theorem disable_lastData (s : State) : (disable s).lastData = 0#16 := rfl
@[simp] theorem disable_outBm (s : State) : (disable s).outBm = s.outBm := rfl
@[simp] theorem disable_outFs (s : State) : (disable s).outFs = s.outFs := rfl
@[simp] theorem disable_outWn (s : State) : (disable s).outWn = s.outWn := rfl
@[simp] theorem disable_rdata (s : State) : (disable s).rdata = s.rdata := rfl
@[simp] theorem disable_inputs (s : State) : (disable s).inputs = s.inputs := rfl

/-! ### sampleEnd -/

@[simp] theorem sampleEnd_en (L : Level) (n : Word) (s : State) : (sampleEnd L n s).en = s.en := rfl
@[simp] theorem sampleEnd_cfgErr (L : Level) (n : Word) (s : State) : (sampleEnd L n s).cfgErr = s.cfgErr := rfl
@[simp] theorem sampleEnd_bitWidth (L : Level) (n : Word) (s : State) : (sampleEnd L n s).bitWidth = s.bitWidth := rfl
@[simp] theorem sampleEnd_spOffset (L : Level) (n : Word) (s : State) : (sampleEnd L n s).spOffset = s.spOffset := rfl
@[simp] theorem sampleEnd_anchorS (L : Level) (n : Word) (s : State) : (sampleEnd L n s).anchorS = s.anchorS := rfl
@[simp] theorem sampleEnd_anchorB (L : Level) (n : Word) (s : State) : (sampleEnd L n s).anchorB = s.anchorB := rfl
@[simp] theorem sampleEnd_bsState (L : Level) (n : Word) (s : State) : (sampleEnd L n s).bsState = s.bsState := rfl
@[simp] theorem sampleEnd_sampIdx (L : Level) (n : Word) (s : State) : (sampleEnd L n s).sampIdx = n + 1#32 := rfl
@[simp] theorem sampleEnd_prevLevel (L : Level) (n : Word) (s : State) : (sampleEnd L n s).prevLevel = L := rfl
@[simp] theorem sampleEnd_rawIdx (L : Level) (n : Word) (s : State) : (sampleEnd L n s).rawIdx = s.rawIdx := rfl
@[simp] theorem sampleEnd_win (L : Level) (n : Word) (s : State) : (sampleEnd L n s).win = s.win := rfl
@[simp] theorem sampleEnd_logIdx (L : Level) (n : Word) (s : State) : (sampleEnd L n s).logIdx = s.logIdx := rfl
@[simp] theorem sampleEnd_fdState (L : Level) (n : Word) (s : State) : (sampleEnd L n s).fdState = s.fdState := rfl
@[simp] theorem sampleEnd_acc (L : Level) (n : Word) (s : State) : (sampleEnd L n s).acc = s.acc := rfl
@[simp] theorem sampleEnd_fldStart (L : Level) (n : Word) (s : State) : (sampleEnd L n s).fldStart = s.fldStart := rfl
@[simp] theorem sampleEnd_fmt (L : Level) (n : Word) (s : State) : (sampleEnd L n s).fmt = s.fmt := rfl
@[simp] theorem sampleEnd_ctrl4 (L : Level) (n : Word) (s : State) : (sampleEnd L n s).ctrl4 = s.ctrl4 := rfl
@[simp] theorem sampleEnd_dlc (L : Level) (n : Word) (s : State) : (sampleEnd L n s).dlc = s.dlc := rfl
@[simp] theorem sampleEnd_nbytes (L : Level) (n : Word) (s : State) : (sampleEnd L n s).nbytes = s.nbytes := rfl
@[simp] theorem sampleEnd_byteCnt (L : Level) (n : Word) (s : State) : (sampleEnd L n s).byteCnt = s.byteCnt := rfl
@[simp] theorem sampleEnd_crcLen (L : Level) (n : Word) (s : State) : (sampleEnd L n s).crcLen = s.crcLen := rfl
@[simp] theorem sampleEnd_lastData (L : Level) (n : Word) (s : State) : (sampleEnd L n s).lastData = s.lastData := rfl
@[simp] theorem sampleEnd_outBm (L : Level) (n : Word) (s : State) : (sampleEnd L n s).outBm = s.outBm := rfl
@[simp] theorem sampleEnd_outFs (L : Level) (n : Word) (s : State) : (sampleEnd L n s).outFs = s.outFs := rfl
@[simp] theorem sampleEnd_outWn (L : Level) (n : Word) (s : State) : (sampleEnd L n s).outWn = s.outWn := rfl
@[simp] theorem sampleEnd_rdata (L : Level) (n : Word) (s : State) : (sampleEnd L n s).rdata = s.rdata := rfl
@[simp] theorem sampleEnd_inputs (L : Level) (n : Word) (s : State) : (sampleEnd L n s).inputs = s.inputs := rfl

/-! ### busRead -/

@[simp] theorem busRead_en (a : RegAddr) (s : State) : (busRead a s).en = s.en := rfl
@[simp] theorem busRead_cfgErr (a : RegAddr) (s : State) : (busRead a s).cfgErr = s.cfgErr := rfl
@[simp] theorem busRead_bitWidth (a : RegAddr) (s : State) : (busRead a s).bitWidth = s.bitWidth := rfl
@[simp] theorem busRead_spOffset (a : RegAddr) (s : State) : (busRead a s).spOffset = s.spOffset := rfl
@[simp] theorem busRead_anchorS (a : RegAddr) (s : State) : (busRead a s).anchorS = s.anchorS := rfl
@[simp] theorem busRead_anchorB (a : RegAddr) (s : State) : (busRead a s).anchorB = s.anchorB := rfl
@[simp] theorem busRead_bsState (a : RegAddr) (s : State) : (busRead a s).bsState = s.bsState := rfl
@[simp] theorem busRead_sampIdx (a : RegAddr) (s : State) : (busRead a s).sampIdx = s.sampIdx := rfl
@[simp] theorem busRead_prevLevel (a : RegAddr) (s : State) : (busRead a s).prevLevel = s.prevLevel := rfl
@[simp] theorem busRead_rawIdx (a : RegAddr) (s : State) : (busRead a s).rawIdx = s.rawIdx := rfl
@[simp] theorem busRead_win (a : RegAddr) (s : State) : (busRead a s).win = s.win := rfl
@[simp] theorem busRead_logIdx (a : RegAddr) (s : State) : (busRead a s).logIdx = s.logIdx := rfl
@[simp] theorem busRead_fdState (a : RegAddr) (s : State) : (busRead a s).fdState = s.fdState := rfl
@[simp] theorem busRead_acc (a : RegAddr) (s : State) : (busRead a s).acc = s.acc := rfl
@[simp] theorem busRead_fldStart (a : RegAddr) (s : State) : (busRead a s).fldStart = s.fldStart := rfl
@[simp] theorem busRead_fmt (a : RegAddr) (s : State) : (busRead a s).fmt = s.fmt := rfl
@[simp] theorem busRead_ctrl4 (a : RegAddr) (s : State) : (busRead a s).ctrl4 = s.ctrl4 := rfl
@[simp] theorem busRead_dlc (a : RegAddr) (s : State) : (busRead a s).dlc = s.dlc := rfl
@[simp] theorem busRead_nbytes (a : RegAddr) (s : State) : (busRead a s).nbytes = s.nbytes := rfl
@[simp] theorem busRead_byteCnt (a : RegAddr) (s : State) : (busRead a s).byteCnt = s.byteCnt := rfl
@[simp] theorem busRead_crcLen (a : RegAddr) (s : State) : (busRead a s).crcLen = s.crcLen := rfl
@[simp] theorem busRead_lastData (a : RegAddr) (s : State) : (busRead a s).lastData = s.lastData := rfl
@[simp] theorem busRead_outBm (a : RegAddr) (s : State) : (busRead a s).outBm = s.outBm := rfl
@[simp] theorem busRead_outFs (a : RegAddr) (s : State) : (busRead a s).outFs = s.outFs := rfl
@[simp] theorem busRead_outWn (a : RegAddr) (s : State) : (busRead a s).outWn = s.outWn := rfl
@[simp] theorem busRead_rdata (a : RegAddr) (s : State) : (busRead a s).rdata = regRead a s := rfl
@[simp] theorem busRead_inputs (a : RegAddr) (s : State) : (busRead a s).inputs = s.inputs := rfl

end Sys2Proof.Machine
end

