-- ==== Sys2Proof/Laws/Ops.lean ====
section
/-! SUPPORT. What each shared operation can do, said once: sequencing, register writes, the end-of-frame and disable values. -/

namespace Sys2Proof.Machine

open Sys2Proof

/-! ### Sequencing -/

@[simp] theorem andThen_next (s : State) (f : State → Result) : andThen (.next s) f = f s := rfl

@[simp] theorem andThen_fault (r : Fault) (f : State → Result) : andThen (.fault r) f = .fault r := rfl

@[simp] theorem andThen_refused (r : Refusal) (f : State → Result) :
    andThen (.refused r) f = .refused r := rfl

/-- A sequence answers next exactly through a middle state. -/
theorem andThen_eq_next {o : Result} {f : State → Result} {t : State} :
    andThen o f = .next t ↔ ∃ s, o = .next s ∧ f s = .next t := by
  cases o <;> simp

/-- A sequence refuses in its first part or in its second. -/
theorem andThen_eq_refused {o : Result} {f : State → Result} {r : Refusal} :
    andThen o f = .refused r ↔ o = .refused r ∨ ∃ s, o = .next s ∧ f s = .refused r := by
  cases o <;> simp

theorem andThen_assoc (o : Result) (f g : State → Result) :
    andThen (andThen o f) g = andThen o fun s => andThen (f s) g := by
  cases o <;> rfl

@[simp] theorem runRows_nil (s : State) : runRows [] s = .next s := rfl

@[simp] theorem runRows_cons (i : Instr) (is : List Instr) (s : State) :
    runRows (i :: is) s = andThen (exec i s) (runRows is) := rfl

/-! ### Records -/

/-- A warning changes the warning record alone, and only where its condition holds (R251). -/
theorem emitWarningIf_eq (c : Bool) (code : WarningCode) (a b : Word) (s : State) :
    emitWarningIf c code a b s = { s with outWn := if c then some ⟨code, a, b⟩ else s.outWn } := by
  cases c <;> rfl

/-! ### Register writes -/

/-- Everything a CTRL write can do (R224). -/
theorem ctrlWrite_cases (v : Word) (s : State) :
    (v.extractLsb' 0 1 = 0#1 ∧ ctrlWrite v s = disable s) ∨
    (v.extractLsb' 0 1 ≠ 0#1 ∧ s.en = true ∧ ctrlWrite v s = s) ∨
    (v.extractLsb' 0 1 ≠ 0#1 ∧ s.en = false ∧ tooNarrow s.bitWidth = true ∧
      ctrlWrite v s = { s with en := true, cfgErr := true }) ∨
    (v.extractLsb' 0 1 ≠ 0#1 ∧ s.en = false ∧ tooNarrow s.bitWidth = false ∧
      ctrlWrite v s = { s with en := true }) := by
  unfold ctrlWrite enable raiseConfigError
  by_cases h : v.extractLsb' 0 1 = 0#1
  · exact .inl ⟨h, by simp [h]⟩
  · cases he : s.en <;> cases hw : tooNarrow s.bitWidth <;> simp [h]

/-- Everything a register write can do (R237). -/
theorem regWrite_cases (a : RegAddr) (v : Word) (s : State) :
    regWrite a v s = s ∨
    (a = addrCtrl ∧ regWrite a v s = ctrlWrite v s) ∨
    (a = addrBitWidth ∧ s.en = false ∧ regWrite a v s = { s with bitWidth := v }) ∨
    (a = addrSpOffset ∧ s.en = false ∧ regWrite a v s = { s with spOffset := v }) := by
  unfold regWrite bitWidthWrite spOffsetWrite
  split
  · exact .inl rfl
  · split
    · rename_i h; exact .inr (.inl ⟨h, rfl⟩)
    · split
      · rename_i h
        cases he : s.en
        · exact .inr (.inr (.inl ⟨h, by simp⟩))
        · exact .inl (by simp)
      · split
        · rename_i h
          cases he : s.en
          · exact .inr (.inr (.inr ⟨h, by simp⟩))
          · exact .inl (by simp)
        · exact .inl rfl

/-- A frame end repeated changes nothing more. -/
@[simp] theorem frameEnd_frameEnd (s : State) : frameEnd (frameEnd s) = frameEnd s := rfl

/-- A datapath reset repeated changes nothing more (R224). -/
@[simp] theorem datapathReset_datapathReset (s : State) :
    datapathReset (datapathReset s) = datapathReset s := rfl

/-- A reset datapath is in particular as a frame end leaves it. -/
@[simp] theorem frameEnd_datapathReset (s : State) : frameEnd (datapathReset s) = datapathReset s := rfl

/-- The datapath of a state that a disable has left is at its reset values (R281). -/
@[simp] theorem datapathReset_disable (s : State) : datapathReset (disable s) = disable s := rfl

@[simp] theorem frameEnd_disable (s : State) : frameEnd (disable s) = disable s := rfl

end Sys2Proof.Machine
end

