-- ==== Sys2Proof/Laws/Bits.lean ====
section
/-! SUPPORT. What the operand functions and register words are, in numbers and fields: one lemma per function, so that no proof unfolds a bit-vector expression. -/

namespace Sys2Proof.Machine

open Sys2Proof

/-! ### Low bits -/

/-- Masking the low `k` bits is the remainder mod `2^k`. -/
theorem toNat_and_mask (a : Word) (k : Nat) (hk : k ≤ 31) :
    (a &&& BitVec.ofNat 32 (2 ^ k - 1)).toNat = a.toNat % 2 ^ k := by
  have hlt : 2 ^ k < 2 ^ 32 := Nat.pow_lt_pow_right (by omega) (by omega)
  rw [BitVec.toNat_and, BitVec.toNat_ofNat, Nat.mod_eq_of_lt (by omega), Nat.and_two_pow_sub_one_eq_mod]

/-- The low bits of a word, widened again, are the word masked. -/
theorem setWidth_low (a : Word) (k : Nat) (hk : k ≤ 31) :
    (a.extractLsb' 0 k).setWidth 32 = a &&& BitVec.ofNat 32 (2 ^ k - 1) := by
  apply BitVec.eq_of_toNat_eq
  have hle : a.toNat % 2 ^ k ≤ a.toNat := Nat.mod_le _ _
  have ha := a.isLt
  rw [toNat_and_mask a k hk, BitVec.toNat_setWidth, BitVec.extractLsb'_toNat, Nat.shiftRight_zero,
    Nat.mod_eq_of_lt (by omega)]

theorem sof_value (a : Word) : (a.extractLsb' 0 10).setWidth 32 = a &&& 0x3FF#32 := setWidth_low a 10 (by omega)

theorem id_value (a : Word) : (a.extractLsb' 0 14).setWidth 32 = a &&& 0x3FFF#32 :=
  setWidth_low a 14 (by omega)

theorem eof_value (a : Word) : (a.extractLsb' 0 7).setWidth 32 = a &&& 0x7F#32 := setWidth_low a 7 (by omega)

theorem toNat_low (a : Word) (k : Nat) : (a.extractLsb' 0 k).toNat = a.toNat % 2 ^ k := by
  rw [BitVec.extractLsb'_toNat, Nat.shiftRight_zero]

/-- Bit 0 of a word, as its parity. -/
theorem bit0_eq_zero (v : Word) : v.extractLsb' 0 1 = 0#1 ↔ v.toNat % 2 = 0 := by
  rw [← BitVec.toNat_inj, toNat_low]; simp

theorem bit0_ne_zero (v : Word) : v.extractLsb' 0 1 ≠ 0#1 ↔ v.toNat % 2 = 1 := by
  rw [ne_eq, bit0_eq_zero]; omega

/-! ### De-stuffing -/

theorem isStuffPos_iff (r : BitIdx) : isStuffPos r = true ↔ 10 < r.toNat ∧ r.toNat % 5 = 4 := by
  rw [isStuffPos, Bool.and_eq_true, decide_eq_true_iff, beq_iff_eq]

theorem isStuffPos_eq_false (r : BitIdx) : isStuffPos r = false ↔ ¬(10 < r.toNat ∧ r.toNat % 5 = 4) := by
  rw [← isStuffPos_iff, Bool.not_eq_true]

theorem shiftWindow_eq (win : BitVec 5) (L : Level) : shiftWindow win L = windowWith win L := by
  revert win L; decide

/-- EOD at a stuff position: the previous raw bit and this one are 0 (R154). -/
theorem isEodWindow_shift (win : BitVec 5) (L : Level) :
    isEodWindow (shiftWindow win L) = true ↔ win.getLsbD 0 = false ∧ L = 0#1 := by
  revert win L; decide

theorem isEodWindow_iff (win : BitVec 5) :
    isEodWindow win = true ↔ win.getLsbD 0 = false ∧ win.getLsbD 1 = false := by
  revert win; decide

/-- The newest bit of the window is the bit just shifted in. -/
@[simp] theorem newest_shiftWindow (win : BitVec 5) (L : Level) : (shiftWindow win L).extractLsb' 0 1 = L := by
  revert win L; decide

theorem level_toNat_lt (L : Level) : L.toNat < 2 := L.isLt

/-! ### The accumulator and the span values -/

theorem shiftAcc_toNat (a : Word) (L : Level) :
    (shiftAcc a L).toNat = (2 * a.toNat + L.toNat) % 2 ^ 32 := by
  have hL := L.isLt
  have h : (shiftAcc a L).toNat = (a.extractLsb' 0 31).toNat <<< 1 ||| L.toNat := BitVec.toNat_append _ _
  rw [h, toNat_low, Nat.shiftLeft_eq, Nat.mul_comm _ (2 ^ 1), ← Nat.two_pow_add_eq_or_of_lt hL]
  omega

theorem load_toNat (L : Level) : (L.setWidth 32).toNat = L.toNat := by
  have hL := L.isLt
  rw [BitVec.toNat_setWidth, Nat.mod_eq_of_lt (by omega)]

theorem lenValue_toNat (n : BitVec 7) (d : BitVec 4) : (lenValue n d).toNat = 256 * n.toNat + d.toNat := by
  have hn := n.isLt
  have hd := d.isLt
  unfold lenValue
  rw [BitVec.toNat_cast, BitVec.toNat_append, BitVec.toNat_append, BitVec.toNat_append]
  simp only [BitVec.toNat_ofNat, Nat.shiftLeft_eq]
  rw [Nat.mul_comm _ (2 ^ 4), ← Nat.two_pow_add_eq_or_of_lt hd]
  simp
  omega

theorem dataValue_toNat (c : BitVec 7) (b : BitVec 8) : (dataValue c b).toNat = 256 * c.toNat + b.toNat := by
  have hc := c.isLt
  have hb := b.isLt
  unfold dataValue
  rw [BitVec.toNat_cast, BitVec.toNat_append, BitVec.toNat_append]
  simp only [BitVec.toNat_ofNat, Nat.shiftLeft_eq]
  rw [Nat.mul_comm _ (2 ^ 8), ← Nat.two_pow_add_eq_or_of_lt hb]
  simp

theorem crcValue_toNat (a : Word) (c : BitVec 5) : (crcValue a c).toNat = a.toNat % 2 ^ c.toNat := by
  have ha := a.isLt
  have hle : a.toNat % 2 ^ c.toNat ≤ a.toNat := Nat.mod_le _ _
  unfold crcValue
  rw [BitVec.toNat_ofNat, Nat.mod_eq_of_lt (by omega)]

theorem byteBit_eq (i : BitIdx) (k : Nat) (hk : k < 8) : byteBit i = (k : Int) ↔ i.toNat % 8 = k := by
  unfold byteBit; omega

theorem sofMismatch_eq (a : Word) :
    sofMismatch (a.extractLsb' 0 10) = !decide (a &&& 0x3FF#32 = 0x3D#32) := by
  rw [← sof_value, sofMismatch, sofPattern, bne, beq_eq_decide]
  congr 2
  rw [← BitVec.toNat_inj, ← BitVec.toNat_inj, BitVec.toNat_setWidth, toNat_low]
  simp
  omega

theorem idReserved_eq (a : Word) :
    idReserved (a.extractLsb' 0 14) = decide (0x3F80 ≤ (a &&& 0x3FFF#32).toNat) := by
  rw [show (0x3FFF#32 : Word) = BitVec.ofNat 32 (2 ^ 14 - 1) by decide, toNat_and_mask a 14 (by omega), idReserved,
    beq_eq_decide]
  congr 1
  rw [← BitVec.toNat_inj, BitVec.extractLsb'_toNat, toNat_low, Nat.shiftRight_eq_div_pow]
  simp
  omega

/-! ### Sample points -/

theorem toNat_wholeSamples (v : Word) : (wholeSamples v).toNat = v.toNat / 65536 := by
  unfold wholeSamples
  rw [BitVec.toNat_ushiftRight, Nat.shiftRight_eq_div_pow]

/-- At the anchor the exact sample point is the anchor plus the whole samples of the offset (R122). -/
theorem exactSp_anchor (s : State) (n : Word) (b : BitIdx) :
    exactSp (recordEdge n b s) b = (n.toNat : Int) + (s.spOffset.toNat / 65536 : Nat) := by
  simp [exactSp, spExact]

theorem sp_eq (s : State) (b : BitIdx) : sp s b = BitVec.ofInt 32 (exactSp s b) := rfl

theorem sp_recordEdge (s : State) (n : Word) (b : BitIdx) :
    sp (recordEdge n b s) b = n + wholeSamples s.spOffset := by
  rw [sp_eq, exactSp_anchor]
  apply BitVec.eq_of_toNat_eq
  rw [BitVec.toNat_add, toNat_wholeSamples, BitVec.toNat_ofInt]
  omega

/-- The new sample point is the edge sample exactly when the offset is below one sample (R129). -/
theorem sp_recordEdge_eq_iff (s : State) (n : Word) (b : BitIdx) :
    sp (recordEdge n b s) b = n ↔ s.spOffset.toNat < 65536 := by
  have hs := s.spOffset.isLt
  have hn := n.isLt
  rw [sp_recordEdge, ← BitVec.toNat_inj, BitVec.toNat_add, toNat_wholeSamples]
  omega

/-- One bit later, at least one sample later (R122). -/
theorem exactSp_succ (s : State) (b c : BitIdx) (h : c.toNat = b.toNat + 1) (hw : 65536 ≤ s.bitWidth.toNat) :
    exactSp s b + 1 ≤ exactSp s c := by
  unfold exactSp spExact
  rw [h]
  push_cast
  have e : (s.bitWidth.toNat : Int) * ((b.toNat : Int) + 1 - s.anchorB.toNat) =
      s.bitWidth.toNat * ((b.toNat : Int) - s.anchorB.toNat) + s.bitWidth.toNat := by ring
  rw [e]
  generalize (s.bitWidth.toNat : Int) * ((b.toNat : Int) - s.anchorB.toNat) = p
  omega

/-- A sample that is not the sample point mod 2^32 is not it in exact arithmetic. -/
theorem exactSp_ne (s : State) (b : BitIdx) (h : sp s b ≠ s.sampIdx) : exactSp s b ≠ (s.sampIdx.toNat : Int) := by
  intro e
  apply h
  rw [sp_eq, e]
  simp

end Sys2Proof.Machine
end

