-- ==== Sys2Proof/Laws/Decode.lean ====
section
/-! SUPPORT. The fields of a cycle word put together are the fields it was made of, and the decoder's choice of row by address class. -/

namespace Sys2Proof

/-! ### Fields of a made word -/

section Fields

variable (sv : BitVec 1) (sl : Level) (we re : BitVec 1) (a : RegAddr) (d : Word)

@[simp] theorem make_sValid : CycleWord.sValid (CycleWord.make sv sl we re a d) = sv := by
  unfold CycleWord.sValid CycleWord.make
  ext i hi
  obtain rfl : i = 0 := by omega
  simp only [BitVec.getElem_extractLsb', BitVec.getLsbD_cast, BitVec.getLsbD_append]
  simp

@[simp] theorem make_sLevel : CycleWord.sLevel (CycleWord.make sv sl we re a d) = sl := by
  unfold CycleWord.sLevel CycleWord.make
  ext i hi
  obtain rfl : i = 0 := by omega
  simp only [BitVec.getElem_extractLsb', BitVec.getLsbD_cast, BitVec.getLsbD_append]
  simp

@[simp] theorem make_we : CycleWord.we (CycleWord.make sv sl we re a d) = we := by
  unfold CycleWord.we CycleWord.make
  ext i hi
  obtain rfl : i = 0 := by omega
  simp only [BitVec.getElem_extractLsb', BitVec.getLsbD_cast, BitVec.getLsbD_append]
  simp

@[simp] theorem make_re : CycleWord.re (CycleWord.make sv sl we re a d) = re := by
  unfold CycleWord.re CycleWord.make
  ext i hi
  obtain rfl : i = 0 := by omega
  simp only [BitVec.getElem_extractLsb', BitVec.getLsbD_cast, BitVec.getLsbD_append]
  simp

@[simp] theorem make_addr : CycleWord.addr (CycleWord.make sv sl we re a d) = a := by
  unfold CycleWord.addr CycleWord.make
  ext i hi
  simp only [BitVec.getElem_extractLsb', BitVec.getLsbD_cast, BitVec.getLsbD_append]
  simp [hi]

@[simp] theorem make_wdata : CycleWord.wdata (CycleWord.make sv sl we re a d) = d := by
  unfold CycleWord.wdata CycleWord.make
  ext i hi
  simp only [BitVec.getElem_extractLsb', BitVec.getLsbD_cast, BitVec.getLsbD_append]
  simp [hi]

end Fields

/-- A cycle word is its six fields. -/
theorem make_fields (w : CycleWord) :
    CycleWord.make (CycleWord.sValid w) (CycleWord.sLevel w) (CycleWord.we w) (CycleWord.re w)
      (CycleWord.addr w) (CycleWord.wdata w) = w := by
  unfold CycleWord.make CycleWord.sValid CycleWord.sLevel CycleWord.we CycleWord.re CycleWord.addr
    CycleWord.wdata
  ext i hi
  rw [← BitVec.getLsbD_eq_getElem, ← BitVec.getLsbD_eq_getElem]
  simp only [BitVec.getLsbD_cast, BitVec.getLsbD_append, BitVec.getLsbD_extractLsb']
  split_ifs
  all_goals
    rw [decide_eq_true (by omega), Bool.true_and]
    congr 1
    omega

/-! ### Bits of width one -/

/-- A level is 0 or 1. -/
theorem level_cases (b : BitVec 1) : b = 0#1 ∨ b = 1#1 := by
  revert b; decide

/-! ### The decoder's choice of row -/

theorem decodeWriteAddr_part (a : RegAddr) (v : Word) : partOf (decodeWriteAddr a v) = .write := by
  unfold decodeWriteAddr
  cases classOf a <;> rfl

theorem decodeReadAddr_part (a : RegAddr) : partOf (decodeReadAddr a) = .read := by
  unfold decodeReadAddr
  cases classOf a <;> rfl

theorem classOf_eq_unmapped38 (a : RegAddr) : classOf a = .unmapped38 ↔ isUnmapped38 a = true := by
  revert a; decide

theorem classOf_eq_unmapped40 (a : RegAddr) : classOf a = .unmapped40 ↔ isUnmapped40 a = true := by
  revert a; decide

theorem classOf_eq_unmapped80 (a : RegAddr) : classOf a = .unmapped80 ↔ isUnmapped80 a = true := by
  revert a; decide

theorem classOf_eq_misaligned01 (a : RegAddr) : classOf a = .misaligned01 ↔ addrLow a = 1#2 := by
  revert a; decide

theorem classOf_eq_misaligned10 (a : RegAddr) : classOf a = .misaligned10 ↔ addrLow a = 2#2 := by
  revert a; decide

theorem classOf_eq_misaligned11 (a : RegAddr) : classOf a = .misaligned11 ↔ addrLow a = 3#2 := by
  revert a; decide

theorem classOf_eq_id (a : RegAddr) : classOf a = .id ↔ a = 0x00#8 := by
  revert a; decide

theorem classOf_eq_ctrl (a : RegAddr) : classOf a = .ctrl ↔ a = 0x04#8 := by
  revert a; decide

theorem classOf_eq_status (a : RegAddr) : classOf a = .status ↔ a = 0x08#8 := by
  revert a; decide

theorem classOf_eq_bitWidth (a : RegAddr) : classOf a = .bitWidth ↔ a = 0x0C#8 := by
  revert a; decide

theorem classOf_eq_spOffset (a : RegAddr) : classOf a = .spOffset ↔ a = 0x10#8 := by
  revert a; decide

theorem classOf_eq_sampleIdx (a : RegAddr) : classOf a = .sampleIdx ↔ a = 0x14#8 := by
  revert a; decide

theorem classOf_eq_bitIdx (a : RegAddr) : classOf a = .bitIdx ↔ a = 0x18#8 := by
  revert a; decide

theorem classOf_eq_anchorSample (a : RegAddr) : classOf a = .anchorSample ↔ a = 0x1C#8 := by
  revert a; decide

theorem classOf_eq_anchorBit (a : RegAddr) : classOf a = .anchorBit ↔ a = 0x20#8 := by
  revert a; decide

theorem classOf_eq_nextSp (a : RegAddr) : classOf a = .nextSp ↔ a = 0x24#8 := by
  revert a; decide

theorem classOf_eq_frame (a : RegAddr) : classOf a = .frame ↔ a = 0x28#8 := by
  revert a; decide

theorem classOf_eq_offsets (a : RegAddr) : classOf a = .offsets ↔ a = 0x2C#8 := by
  revert a; decide

theorem classOf_eq_acc (a : RegAddr) : classOf a = .acc ↔ a = 0x30#8 := by
  revert a; decide

theorem classOf_eq_fieldStart (a : RegAddr) : classOf a = .fieldStart ↔ a = 0x34#8 := by
  revert a; decide

/-! ### The words of the decoded rows -/

/-- A decoded read row is well formed. -/
theorem decodeReadAddr_wf (a : RegAddr) : (decodeReadAddr a).wf = true := by revert a; decide

/-- A decoded write row is well formed. -/
theorem decodeWriteAddr_wf (a : RegAddr) (v : Word) : (decodeWriteAddr a v).wf = true := by
  unfold decodeWriteAddr
  have h1 := classOf_eq_unmapped38 a
  have h2 := classOf_eq_unmapped40 a
  have h3 := classOf_eq_unmapped80 a
  have h4 := classOf_eq_misaligned01 a
  have h5 := classOf_eq_misaligned10 a
  have h6 := classOf_eq_misaligned11 a
  split <;> rename_i h <;> simp_all [Instr.wf]

/-- A decoded beat is well formed. -/
theorem decodeBeat_wf (w : CycleWord) : (decodeBeat w).wf = true ∧ partOf (decodeBeat w) = .beat := by
  unfold decodeBeat; split
  · exact ⟨rfl, rfl⟩
  · split <;> exact ⟨rfl, rfl⟩

/-- The word of a decoded read row. -/
theorem encode_decodeReadAddr (a : RegAddr) : encode (decodeReadAddr a) = readWord a := by
  revert a; decide

/-- The word of a decoded write row. -/
theorem encode_decodeWriteAddr (a : RegAddr) (v : Word) : encode (decodeWriteAddr a v) = writeWord a v := by
  unfold decodeWriteAddr
  split <;> rename_i h
  · rw [(classOf_eq_id a).1 h]; rfl
  · rw [(classOf_eq_ctrl a).1 h]; rfl
  · rw [(classOf_eq_status a).1 h]; rfl
  · rw [(classOf_eq_bitWidth a).1 h]; rfl
  · rw [(classOf_eq_spOffset a).1 h]; rfl
  · rw [(classOf_eq_sampleIdx a).1 h]; rfl
  · rw [(classOf_eq_bitIdx a).1 h]; rfl
  · rw [(classOf_eq_anchorSample a).1 h]; rfl
  · rw [(classOf_eq_anchorBit a).1 h]; rfl
  · rw [(classOf_eq_nextSp a).1 h]; rfl
  · rw [(classOf_eq_frame a).1 h]; rfl
  · rw [(classOf_eq_offsets a).1 h]; rfl
  · rw [(classOf_eq_acc a).1 h]; rfl
  · rw [(classOf_eq_fieldStart a).1 h]; rfl
  all_goals rfl

/-- The word of a decoded beat. -/
theorem encode_decodeBeat (w : CycleWord) :
    encode (decodeBeat w) = .cycle (CycleWord.make (CycleWord.sValid w)
      (if CycleWord.sValid w = 1#1 then CycleWord.sLevel w else 0#1) 0#1 0#1 0#8 0#32) := by
  unfold decodeBeat
  rcases level_cases (CycleWord.sValid w) with h | h <;> rcases level_cases (CycleWord.sLevel w) with h2 | h2 <;> simp [h, h2] <;> rfl

/-- Two made words or-ed are made of their fields or-ed. -/
theorem make_or (a a' : BitVec 1) (b b' : Level) (c c' d d' : BitVec 1) (e e' : RegAddr) (f f' : Word) :
  CycleWord.make a b c d e f ||| CycleWord.make a' b' c' d' e' f' = CycleWord.make (a ||| a') (b ||| b') (c ||| c') (d ||| d') (e ||| e') (f ||| f') := by
  apply BitVec.eq_of_getLsbD_eq
  intro i hi
  simp only [CycleWord.make, BitVec.getLsbD_or, BitVec.getLsbD_cast, BitVec.getLsbD_append]
  split_ifs <;> rfl

end Sys2Proof
end

