-- ==== Sys2Proof/Laws/FrameDecoder.lean ====
section
/-! SUPPORT. What the FrameDecoder can do, said once: the handler rows as the dispatch runs them, what no handler touches, where handlers complete, and how they commute with the read-data port and the coming inputs. -/

namespace Sys2Proof.Machine

open Sys2Proof

/-- The two states agree on control, configuration, anchor, sample count, previous level, bit mark, read data
and coming inputs: what no FrameDecoder handler touches. -/
structure SameOutside (s t : State) : Prop where
  en : t.en = s.en
  cfgErr : t.cfgErr = s.cfgErr
  bitWidth : t.bitWidth = s.bitWidth
  spOffset : t.spOffset = s.spOffset
  anchorS : t.anchorS = s.anchorS
  anchorB : t.anchorB = s.anchorB
  sampIdx : t.sampIdx = s.sampIdx
  prevLevel : t.prevLevel = s.prevLevel
  outBm : t.outBm = s.outBm
  rdata : t.rdata = s.rdata
  inputs : t.inputs = s.inputs

theorem SameOutside.refl (s : State) : SameOutside s s := ⟨rfl, rfl, rfl, rfl, rfl, rfl, rfl, rfl, rfl, rfl, rfl⟩

theorem SameOutside.trans {s t u : State} (h : SameOutside s t) (k : SameOutside t u) : SameOutside s u :=
  ⟨k.en.trans h.en, k.cfgErr.trans h.cfgErr, k.bitWidth.trans h.bitWidth, k.spOffset.trans h.spOffset,
    k.anchorS.trans h.anchorS, k.anchorB.trans h.anchorB, k.sampIdx.trans h.sampIdx,
    k.prevLevel.trans h.prevLevel, k.outBm.trans h.outBm, k.rdata.trans h.rdata, k.inputs.trans h.inputs⟩

/-- The state with other read data and other coming inputs: what the sample path neither reads nor writes. -/
def withPorts (r : Word) (ins : List CycleInput) (s : State) : State := { s with rdata := r, inputs := ins }

/-- The outcome with its next state changed. -/
def mapNext (f : State → State) (o : Result) : Result := andThen o fun s => .next (f s)

@[simp] theorem mapNext_next (f : State → State) (s : State) : mapNext f (.next s) = .next (f s) := rfl

@[simp] theorem mapNext_refused (f : State → State) (r : Refusal) : mapNext f (.refused r) = .refused r := rfl

@[simp] theorem andThen_next_right (o : Result) : andThen o .next = o := by cases o <;> rfl

theorem mapNext_ite (c : Prop) [Decidable c] (f : State → State) (a b : State) :
    mapNext f (.next (if c then a else b)) = .next (if c then f a else f b) := by split <;> rfl

/-! ### Single updates -/

theorem emitWarningIf_outside (c : Bool) (code : WarningCode) (a b : Word) (s : State) :
    SameOutside s (emitWarningIf c code a b s) := by
  rw [emitWarningIf_eq]; constructor <;> rfl

theorem accumulate_outside (s : State) : SameOutside s (accumulate s) := by
  unfold accumulate
  split <;> constructor <;> rfl

/-- Accumulation changes `acc` and `fld_start` alone. -/
theorem accumulate_eq (s : State) : ∃ a f : Word, accumulate s = { s with acc := a, fldStart := f } := by
  unfold accumulate
  split
  · exact ⟨_, _, rfl⟩
  · exact ⟨_, s.fldStart, rfl⟩

@[simp] theorem accumulate_fdState (s : State) : (accumulate s).fdState = s.fdState := by
  unfold accumulate; split <;> rfl

theorem byteDone_outside (s : State) : SameOutside s (byteDone s) := by constructor <;> rfl

theorem dataBit_outside (s : State) : SameOutside s (dataBit s) := by
  unfold dataBit
  dsimp only
  split <;> split <;> constructor <;> rfl

theorem sofDone_eq (s : State) :
    sofDone s =
      { s with
        outFs := some ⟨.sof, s.fldStart, s.sampIdx, (s.acc.extractLsb' 0 10).setWidth 32⟩
        outWn := if sofMismatch (s.acc.extractLsb' 0 10) then some ⟨.sofMismatch, s.fldStart, s.sampIdx⟩
          else s.outWn
        fdState := fdIdCode } := by
  simp only [sofDone, emitWarningIf_eq]; rfl

theorem idDone_eq (s : State) :
    idDone s =
      { s with
        outFs := some ⟨.id, s.fldStart, s.sampIdx, (s.acc.extractLsb' 0 14).setWidth 32⟩
        outWn := if idReserved (s.acc.extractLsb' 0 14) then some ⟨.idReserved, s.fldStart, s.sampIdx⟩
          else s.outWn
        fdState := fdCtrlCode } := by
  simp only [idDone, emitWarningIf_eq]; rfl

theorem lenDone_eq (s : State) :
    lenDone s =
      { s with
        outFs := some ⟨.len, s.fldStart, s.sampIdx,
          lenValue (dlcTable (s.acc.extractLsb' 0 4)) (s.acc.extractLsb' 0 4)⟩
        outWn := if dlcTooLong s.fmt (s.acc.extractLsb' 0 4) then some ⟨.dlcClassic, s.fldStart, s.sampIdx⟩
          else s.outWn
        dlc := s.acc.extractLsb' 0 4
        nbytes := dlcTable (s.acc.extractLsb' 0 4)
        crcLen := crcLenOf s.fmt (dlcTable (s.acc.extractLsb' 0 4))
        lastData := lastDataOf (dlcTable (s.acc.extractLsb' 0 4))
        fdState := if 0 < (dlcTable (s.acc.extractLsb' 0 4)).toNat then fdDataCode else fdCrcCode } := by
  simp only [lenDone, emitWarningIf_eq]; rfl

theorem singleBit_eq (k : FieldKind) (c : Bool) (code : WarningCode) (n : FdCode) (s : State) :
    singleBit k c code n s =
      { s with
        outFs := some ⟨k, s.sampIdx, s.sampIdx, bitValue (bitLevel s)⟩
        outWn := if c then some ⟨code, s.sampIdx, s.sampIdx⟩ else s.outWn
        fdState := n } := by
  simp only [singleBit, emitWarningIf_eq]; rfl

theorem eofBit_eq (s : State) :
    eofBit s =
      { s with outWn := if isDominant (bitLevel s) then some ⟨.eofDominant, s.sampIdx, s.sampIdx⟩ else s.outWn } := by
  simp only [eofBit, emitWarningIf_eq]; rfl

theorem byteDone_eq (s : State) :
    byteDone s =
      { s with
        outFs := some ⟨.data, s.fldStart, s.sampIdx, dataValue s.byteCnt (s.acc.extractLsb' 0 8)⟩
        byteCnt := s.byteCnt + 1#7 } := rfl

/-- A data bit: the byte it may complete, and the end of the field it may be. -/
theorem dataBit_eq (s : State) :
    dataBit s =
      { (if byteBit (bitIndex s) = 7 then byteDone s else s) with
        fdState := if (bitIndex s).toNat = s.lastData.toNat then fdCrcCode else s.fdState } := by
  unfold dataBit
  dsimp only
  by_cases h : byteBit (bitIndex s) = 7
  · simp only [if_pos h]
    have e : bitIndex (byteDone s) = bitIndex s := rfl
    have e2 : (byteDone s).lastData = s.lastData := rfl
    rw [e, e2]
    split <;> rfl
  · simp only [if_neg h]
    split <;> rfl

/-! ### Dispatch -/

/-- The dispatch runs the row that the decoder gives the state code. -/
theorem runHandler_eq_exec (s : State) : runHandler s = exec (decodeHandler s.fdState) s := by
  unfold runHandler decodeHandler
  split <;> rename_i h <;> (try simp only [h]) <;> rfl

/-- `Decode` leaves AWAIT_SOF, accumulates, and runs the row of the state code. -/
theorem decodeBit_eq (s : State) :
    decodeBit s =
      exec (decodeHandler (if s.fdState = fdAwaitSofCode then fdSofCode else s.fdState))
        (accumulate { s with fdState := if s.fdState = fdAwaitSofCode then fdSofCode else s.fdState }) := by
  unfold decodeBit leaveAwaitSof
  by_cases h : s.fdState = fdAwaitSofCode
  · simp only [if_pos h, execFdAwaitSof, andThen_next, runHandler_eq_exec, accumulate_fdState]
  · simp only [if_neg h, andThen_next, runHandler_eq_exec, accumulate_fdState]

/-- A handler row that runs answers one of these: the state as it was given, or one of the named updates. -/
theorem handler_outside {c : FdCode} {s t : State} (h : exec (decodeHandler c) s = .next t) :
    SameOutside s t := by
  have he : SameOutside s (eofBit s) := emitWarningIf_outside _ _ _ _ s
  have hd : SameOutside s (eofDone (eofBit s)) := he.trans (by constructor <;> rfl)
  have hs (k : FieldKind) (w : Bool) (code : WarningCode) (n : FdCode) : SameOutside s (singleBit k w code n s) := by
    rw [singleBit_eq]; constructor <;> rfl
  have h1 : SameOutside s (sofDone s) := by rw [sofDone_eq]; constructor <;> rfl
  have h2 : SameOutside s (idDone s) := by rw [idDone_eq]; constructor <;> rfl
  have h4 : SameOutside s (lenDone s) := by rw [lenDone_eq]; constructor <;> rfl
  unfold decodeHandler at h
  split at h <;> cases h
  · constructor <;> rfl
  · split; exacts [h1, .refl s]
  · split; exacts [h2, .refl s]
  · split
    · constructor <;> rfl
    · split
      · constructor <;> rfl
      · split; exacts [by constructor <;> rfl, .refl s]
  · split; exacts [h4, .refl s]
  · split; exacts [by constructor <;> rfl, dataBit_outside s]
  · split; exacts [by constructor <;> rfl, .refl s]
  · exact hs _ _ _ _
  · exact hs _ _ _ _
  · exact hs _ _ _ _
  · split; exacts [hd, he]

/-- A handler row either leaves the BitSampler's place alone or ends the frame (R188). -/
theorem handler_place {c : FdCode} {s t : State} (h : exec (decodeHandler c) s = .next t) :
    (t.bsState = s.bsState ∧ t.rawIdx = s.rawIdx ∧ t.logIdx = s.logIdx ∧ t.win = s.win) ∨
    (c = fdEofCode ∧ frameEnd t = t) := by
  have he : (eofBit s).bsState = s.bsState ∧ (eofBit s).rawIdx = s.rawIdx ∧ (eofBit s).logIdx = s.logIdx ∧
      (eofBit s).win = s.win := by rw [eofBit_eq]; exact ⟨rfl, rfl, rfl, rfl⟩
  unfold decodeHandler at h
  split at h <;> cases h
  · exact .inl ⟨rfl, rfl, rfl, rfl⟩
  · left; split; exacts [by rw [sofDone_eq]; exact ⟨rfl, rfl, rfl, rfl⟩, ⟨rfl, rfl, rfl, rfl⟩]
  · left; split; exacts [by rw [idDone_eq]; exact ⟨rfl, rfl, rfl, rfl⟩, ⟨rfl, rfl, rfl, rfl⟩]
  · left
    split
    · exact ⟨rfl, rfl, rfl, rfl⟩
    · split
      · exact ⟨rfl, rfl, rfl, rfl⟩
      · split <;> exact ⟨rfl, rfl, rfl, rfl⟩
  · left; split; exacts [by rw [lenDone_eq]; exact ⟨rfl, rfl, rfl, rfl⟩, ⟨rfl, rfl, rfl, rfl⟩]
  · left
    split
    · exact ⟨rfl, rfl, rfl, rfl⟩
    · rw [dataBit_eq]; dsimp only; split <;> exact ⟨rfl, rfl, rfl, rfl⟩
  · left; split <;> exact ⟨rfl, rfl, rfl, rfl⟩
  · left; rw [singleBit_eq]; exact ⟨rfl, rfl, rfl, rfl⟩
  · left; rw [singleBit_eq]; exact ⟨rfl, rfl, rfl, rfl⟩
  · left; rw [singleBit_eq]; exact ⟨rfl, rfl, rfl, rfl⟩
  · split
    · rename_i h _
      exact .inr ⟨BitVec.eq_of_toNat_eq h, rfl⟩
    · exact .inl he

/-- The handler of one of the eleven codes of Table F completes, and leaves one of them. -/
theorem handler_completes {c : FdCode} {s : State} (hc : c.toNat ≤ 10) (hs : s.fdState = c) :
    ∃ t, exec (decodeHandler c) s = .next t ∧ t.fdState.toNat ≤ 10 := by
  have hf : s.fdState.toNat ≤ 10 := by rw [hs]; exact hc
  have d (x : FdCode) (hx : x.toNat ≤ 10) : x.toNat ≤ 10 := hx
  unfold decodeHandler
  split
  all_goals first | refine ⟨_, rfl, ?_⟩ | (exfalso; first | omega | (simp_all; done) | (simp_all; omega))
  · exact d 1#4 (by decide)
  · split; exacts [d 2#4 (by decide), hf]
  · split; exacts [d 3#4 (by decide), hf]
  · split
    · exact hf
    · split
      · exact d 4#4 (by decide)
      · split <;> exact hf
  · split
    · show BitVec.toNat (if _ then fdDataCode else fdCrcCode) ≤ 10
      split <;> decide
    · exact hf
  · split
    · exact d 6#4 (by decide)
    · rw [dataBit_eq]
      show BitVec.toNat (if _ then fdCrcCode else s.fdState) ≤ 10
      split; exacts [by decide, hf]
  · split; exacts [d 7#4 (by decide), hf]
  · exact d 8#4 (by decide)
  · exact d 9#4 (by decide)
  · exact d 10#4 (by decide)
  · split
    · exact d 0#4 (by decide)
    · rw [eofBit_eq]; exact hf

/-- The handler of a reserved code refuses, by the code. -/
theorem handler_reserved {c : FdCode} (s : State) (hc : 11 ≤ c.toNat) :
    exec (decodeHandler c) s = .refused (.reservedFdState c) := by
  unfold decodeHandler
  split
  all_goals first | omega | skip
  · rename_i h
    have : c = 11#4 := BitVec.eq_of_toNat_eq h
    rw [this]; rfl
  · rfl

end Sys2Proof.Machine
end

