-- ==== Sys2Proof/Laws/SamplePath.lean ====
section
/-! SUPPORT. What one sample can do, said once: the three classes of a raw bit, the branches of the BitSampler, what a sample never touches, where it completes, and that the read-data port and the coming inputs play no part in it. -/

namespace Sys2Proof.Machine

open Sys2Proof

/-! ### A raw bit -/

/-- The state a raw bit of level `L` leaves before its class acts: its raw index and the window. -/
def afterShift (L : Level) (s : State) : State :=
  { s with rawIdx := s.rawIdx + 1#16, win := shiftWindow s.win L }

/-- The state in which a logical bit of level `L` reaches the FrameDecoder's accumulation: AWAIT_SOF left. -/
def beforeHandler (L : Level) (s : State) : State :=
  { s with
    rawIdx := s.rawIdx + 1#16
    win := shiftWindow s.win L
    outBm := some (markOf .ordinary L s)
    logIdx := s.logIdx + 1#16
    fdState := if s.fdState = fdAwaitSofCode then fdSofCode else s.fdState }

/-- A stuff position without the EOD window. -/
theorem takeBit_stuff {L : Level} {s : State} (hr : isStuffPos s.rawIdx = true)
    (hw : isEodWindow (shiftWindow s.win L) = false) :
    takeBit L s = .next { afterShift L s with outBm := some (markOf .stuff L s) } := by
  simp only [takeBit, destuff, stuffBit, hr, hw, if_true, Bool.false_eq_true, if_false]
  rfl

/-- A stuff position with the EOD window, outside DATA (R182). -/
theorem takeBit_eod {L : Level} {s : State} (hr : isStuffPos s.rawIdx = true)
    (hw : isEodWindow (shiftWindow s.win L) = true) (hd : s.fdState ≠ fdDataCode) :
    takeBit L s = .next { afterShift L s with outBm := some (markOf .eod L s) } := by
  have hd' : ¬ (emitMark .eod L s.rawIdx
      { s with rawIdx := s.rawIdx + 1#16, win := shiftWindow s.win L }).fdState = fdDataCode := hd
  simp only [takeBit, destuff, stuffBit, hr, hw, if_true, frameEod, if_neg hd']
  rfl

/-- A stuff position with the EOD window, in DATA (R181). -/
theorem takeBit_eod_data {L : Level} {s : State} (hr : isStuffPos s.rawIdx = true)
    (hw : isEodWindow (shiftWindow s.win L) = true) (hd : s.fdState = fdDataCode) :
    takeBit L s = .next
      { afterShift L s with
        outBm := some (markOf .eod L s)
        lastData := s.logIdx - 1#16
        acc := 0#32
        fdState := fdCrcCode } := by
  have hd' : (emitMark .eod L s.rawIdx
      { s with rawIdx := s.rawIdx + 1#16, win := shiftWindow s.win L }).fdState = fdDataCode := hd
  have he : eodTaken (emitMark .eod L s.rawIdx
      { s with rawIdx := s.rawIdx + 1#16, win := shiftWindow s.win L }) = true := by
    show (isStuffPos (s.rawIdx + 1#16 - 1#16) && isEodWindow (shiftWindow s.win L)) = true
    rw [BitVec.add_sub_cancel, hr, hw]; rfl
  simp only [takeBit, destuff, stuffBit, hr, hw, if_true, frameEod, if_pos hd', execFdData, he]
  rfl

/-- A logical bit is the handler of `fd_state`, run on the accumulated bit (R152, R170). -/
theorem takeBit_logical {L : Level} {s : State} (hr : isStuffPos s.rawIdx = false) :
    takeBit L s =
      exec (decodeHandler (beforeHandler L s).fdState) (accumulate (beforeHandler L s)) := by
  simp only [takeBit, destuff, hr, Bool.false_eq_true, if_false, logicalBit]
  rw [decodeBit_eq]
  rfl

/-- What a raw bit leaves alone, and the mark it leaves. -/
theorem takeBit_outside {L : Level} {s t : State} (h : takeBit L s = .next t) :
    SameOutside { s with outBm := t.outBm } t ∧
    ∃ k : BitMarkKind, t.outBm = some (markOf k L s) ∧ (k = .ordinary ↔ isStuffPos s.rawIdx = false) := by
  cases hr : isStuffPos s.rawIdx
  · rw [takeBit_logical hr] at h
    have o := (accumulate_outside (beforeHandler L s)).trans (handler_outside h)
    have hb : t.outBm = some (markOf .ordinary L s) := o.outBm
    exact ⟨⟨o.en, o.cfgErr, o.bitWidth, o.spOffset, o.anchorS, o.anchorB, o.sampIdx, o.prevLevel, rfl, o.rdata,
      o.inputs⟩, .ordinary, hb, by simp⟩
  · cases hw : isEodWindow (shiftWindow s.win L)
    · rw [takeBit_stuff hr hw] at h
      cases h
      exact ⟨by constructor <;> rfl, .stuff, rfl, by simp⟩
    · by_cases hd : s.fdState = fdDataCode
      · rw [takeBit_eod_data hr hw hd] at h
        cases h
        exact ⟨by constructor <;> rfl, .eod, rfl, by simp⟩
      · rw [takeBit_eod hr hw hd] at h
        cases h
        exact ⟨by constructor <;> rfl, .eod, rfl, by simp⟩

theorem beforeHandler_fdState_le {L : Level} {s : State} (h : s.fdState.toNat ≤ 10) :
    (beforeHandler L s).fdState.toNat ≤ 10 := by
  show BitVec.toNat (if s.fdState = fdAwaitSofCode then fdSofCode else s.fdState) ≤ 10
  split
  · decide
  · exact h

/-- A raw bit is taken in every state whose `fd_state` is a code of Table F. -/
theorem takeBit_completes {L : Level} {s : State} (h : s.fdState.toNat ≤ 10) :
    ∃ t, takeBit L s = .next t ∧ t.fdState.toNat ≤ 10 := by
  cases hr : isStuffPos s.rawIdx
  · rw [takeBit_logical hr]
    exact handler_completes (beforeHandler_fdState_le h) (accumulate_fdState _)
  · cases hw : isEodWindow (shiftWindow s.win L)
    · exact ⟨_, takeBit_stuff hr hw, h⟩
    · by_cases hd : s.fdState = fdDataCode
      · exact ⟨_, takeBit_eod_data hr hw hd, by show BitVec.toNat 6#4 ≤ 10; decide⟩
      · exact ⟨_, takeBit_eod hr hw hd, h⟩

/-- A raw bit is refused only as a logical bit on a reserved code, by that code. -/
theorem takeBit_refused {L : Level} {s : State} {r : Refusal} (h : takeBit L s = .refused r) :
    isStuffPos s.rawIdx = false ∧ 11 ≤ s.fdState.toNat ∧ r = .reservedFdState s.fdState := by
  by_cases hf : s.fdState.toNat ≤ 10
  · obtain ⟨t, ht, -⟩ := takeBit_completes (L := L) hf
    rw [ht] at h; cases h
  · have hne : ¬ s.fdState = fdAwaitSofCode := fun e => hf (by rw [e]; decide)
    have hnd : ¬ s.fdState = fdDataCode := fun e => hf (by rw [e]; decide)
    cases hr : isStuffPos s.rawIdx
    · rw [takeBit_logical hr] at h
      have hb : (beforeHandler L s).fdState = s.fdState := if_neg hne
      rw [hb, handler_reserved _ (by omega)] at h
      cases h
      exact ⟨rfl, by omega, rfl⟩
    · cases hw : isEodWindow (shiftWindow s.win L)
      · rw [takeBit_stuff hr hw] at h; cases h
      · rw [takeBit_eod hr hw hnd] at h; cases h

/-- A logical bit on a reserved code is refused (R83). -/
theorem takeBit_reserved {L : Level} {s : State} (hr : isStuffPos s.rawIdx = false) (hf : 11 ≤ s.fdState.toNat) :
    takeBit L s = .refused (.reservedFdState s.fdState) := by
  have hne : ¬ s.fdState = fdAwaitSofCode := fun e => by rw [e] at hf; exact absurd hf (by decide)
  rw [takeBit_logical hr]
  have hb : (beforeHandler L s).fdState = s.fdState := if_neg hne
  rw [hb, handler_reserved _ hf]

/-! ### The BitSampler -/

/-- The state a forced resynchronisation leaves (R126). -/
def forcedResync (s : State) : State := { recordEdge s.sampIdx 0#16 s with rawIdx := 0#16, bsState := .sync }

/-- The state a soft resynchronisation leaves (R128). -/
def softResync (s : State) : State := recordEdge s.sampIdx s.rawIdx s

/-- Everything an accepted sample can do before it is counted: nothing; a forced or a soft resynchronisation
and nothing more; the awaited bit taken, as it stands or after one of the two. -/
inductive SampleAction (L : Level) (s : State) : Result → Prop where
  | quietIdle (h : s.bsState = .idle) (hl : L = recessive) : SampleAction L s (.next s)
  | quietSync (h : s.bsState = .sync) (hn : sp s s.rawIdx ≠ s.sampIdx) (he : isEdge s.prevLevel L = false) :
      SampleAction L s (.next s)
  | forced (h : s.bsState = .idle) (hl : L = dominant) (ho : 65536 ≤ s.spOffset.toNat) :
      SampleAction L s (.next (forcedResync s))
  | forcedTake (h : s.bsState = .idle) (hl : L = dominant) (ho : s.spOffset.toNat < 65536) :
      SampleAction L s (takeBit L (forcedResync s))
  | soft (h : s.bsState = .sync) (hn : sp s s.rawIdx ≠ s.sampIdx) (he : isEdge s.prevLevel L = true)
      (ho : 65536 ≤ s.spOffset.toNat) : SampleAction L s (.next (softResync s))
  | softTake (h : s.bsState = .sync) (hn : sp s s.rawIdx ≠ s.sampIdx) (he : isEdge s.prevLevel L = true)
      (ho : s.spOffset.toNat < 65536) : SampleAction L s (takeBit L (softResync s))
  | take (h : s.bsState = .sync) (hn : sp s s.rawIdx = s.sampIdx) : SampleAction L s (takeBit L s)

/-- What the BitSampler does with an accepted sample, by its state. -/
def sampleBody (L : Level) (s : State) : Result :=
  match s.bsState with
  | .idle => sampleIdle L s
  | .sync => sampleSync L s

theorem sampleBody_idle (L : Level) {s : State} (h : s.bsState = .idle) : sampleBody L s = sampleIdle L s := by
  unfold sampleBody; rw [h]

theorem sampleBody_sync (L : Level) {s : State} (h : s.bsState = .sync) : sampleBody L s = sampleSync L s := by
  unfold sampleBody; rw [h]

theorem takeIfDue_forced (L : Level) (s : State) :
    takeIfDue L (forcedResync s) =
      if s.spOffset.toNat < 65536 then takeBit L (forcedResync s) else .next (forcedResync s) := by
  unfold takeIfDue
  exact if_congr (sp_recordEdge_eq_iff s s.sampIdx 0#16) rfl rfl

theorem takeIfDue_soft (L : Level) (s : State) :
    takeIfDue L (softResync s) =
      if s.spOffset.toNat < 65536 then takeBit L (softResync s) else .next (softResync s) := by
  unfold takeIfDue
  exact if_congr (sp_recordEdge_eq_iff s s.sampIdx s.rawIdx) rfl rfl

/-- The branches of the BitSampler (R126 to R130). -/
theorem sampleBody_action (L : Level) (s : State) : SampleAction L s (sampleBody L s) := by
  unfold sampleBody
  cases hb : s.bsState
  · show SampleAction L s (sampleIdle L s)
    unfold sampleIdle
    by_cases hl : L = dominant
    · rw [if_pos hl]
      show SampleAction L s (takeIfDue L (forcedResync s))
      rw [takeIfDue_forced]
      by_cases ho : s.spOffset.toNat < 65536
      · rw [if_pos ho]; exact .forcedTake hb hl ho
      · rw [if_neg ho]; exact .forced hb hl (by omega)
    · rw [if_neg hl]
      exact .quietIdle hb (by revert hl; revert L; decide)
  · show SampleAction L s (sampleSync L s)
    unfold sampleSync
    by_cases hn : sp s s.rawIdx = s.sampIdx
    · rw [if_pos hn]; exact .take hb hn
    · rw [if_neg hn]
      cases he : isEdge s.prevLevel L
      · simp only [Bool.false_eq_true, if_false]
        exact .quietSync hb hn he
      · simp only [if_true]
        show SampleAction L s (takeIfDue L (softResync s))
        rw [takeIfDue_soft]
        by_cases ho : s.spOffset.toNat < 65536
        · rw [if_pos ho]; exact .softTake hb hn he ho
        · rw [if_neg ho]; exact .soft hb hn he (by omega)

/-- The row of a sample is the sample step of its level. -/
theorem exec_smpRow (L : Level) (s : State) : exec (smpRow L) s = sampleStep L s := by
  rcases level_cases L with rfl | rfl <;> rfl

/-- A sample while RUN is false changes nothing (R124). -/
theorem sampleStep_not_run {L : Level} {s : State} (h : s.run = false) : sampleStep L s = .next s := by
  simp only [sampleStep, h, Bool.false_eq_true, if_false]

/-- A sample while RUN holds is the BitSampler's action, then the count (R124, R132). -/
theorem sampleStep_run {L : Level} {s : State} (h : s.run = true) :
    sampleStep L s = andThen (sampleBody L s) fun t => .next (sampleEnd L s.sampIdx t) := by
  simp only [sampleStep, h, if_true]
  rfl

/-- The two states agree on what no sample touches before its count. -/
structure SameControl (s t : State) : Prop where
  en : t.en = s.en
  cfgErr : t.cfgErr = s.cfgErr
  bitWidth : t.bitWidth = s.bitWidth
  spOffset : t.spOffset = s.spOffset
  sampIdx : t.sampIdx = s.sampIdx
  prevLevel : t.prevLevel = s.prevLevel
  rdata : t.rdata = s.rdata
  inputs : t.inputs = s.inputs

theorem takeBit_control {L : Level} {s t : State} (h : takeBit L s = .next t) : SameControl s t := by
  have o := (takeBit_outside h).1
  exact ⟨o.en, o.cfgErr, o.bitWidth, o.spOffset, o.sampIdx, o.prevLevel, o.rdata, o.inputs⟩

/-- What an accepted sample never touches before its count (R23, R123). -/
theorem sampleBody_control {L : Level} {s t : State} (h : sampleBody L s = .next t) : SameControl s t := by
  have a := sampleBody_action L s
  rw [h] at a
  generalize ho : (Host.Outcome.next t : Result) = o at a
  cases a
  case quietIdle => cases ho; constructor <;> rfl
  case quietSync => cases ho; constructor <;> rfl
  case forced => cases ho; constructor <;> rfl
  case soft => cases ho; constructor <;> rfl
  case take => exact takeBit_control ho.symm
  case forcedTake =>
    have c := takeBit_control ho.symm
    exact ⟨c.en, c.cfgErr, c.bitWidth, c.spOffset, c.sampIdx, c.prevLevel, c.rdata, c.inputs⟩
  case softTake =>
    have c := takeBit_control ho.symm
    exact ⟨c.en, c.cfgErr, c.bitWidth, c.spOffset, c.sampIdx, c.prevLevel, c.rdata, c.inputs⟩

/-- A sample is processed to its end in every state whose `fd_state` is a code of Table F. -/
theorem sampleBody_completes {L : Level} {s : State} (h : s.fdState.toNat ≤ 10) :
    ∃ t, sampleBody L s = .next t ∧ t.fdState.toNat ≤ 10 := by
  have a := sampleBody_action L s
  generalize sampleBody L s = o at a
  cases a
  case quietIdle => exact ⟨_, rfl, h⟩
  case quietSync => exact ⟨_, rfl, h⟩
  case forced => exact ⟨_, rfl, h⟩
  case soft => exact ⟨_, rfl, h⟩
  case take => exact takeBit_completes h
  case forcedTake => exact takeBit_completes (s := forcedResync s) h
  case softTake => exact takeBit_completes (s := softResync s) h

/-- A sample is refused only on a reserved code, by that code (R83). -/
theorem sampleStep_refused {L : Level} {s : State} {r : Refusal} (h : sampleStep L s = .refused r) :
    11 ≤ s.fdState.toNat ∧ r = .reservedFdState s.fdState := by
  cases hr : s.run
  · rw [sampleStep_not_run hr] at h; cases h
  · rw [sampleStep_run hr] at h
    have a := sampleBody_action L s
    generalize sampleBody L s = o at a h
    cases a <;> rw [andThen_eq_refused] at h
    case take => rcases h with h | ⟨u, -, hu⟩; exacts [(takeBit_refused h).2, by cases hu]
    case forcedTake =>
      rcases h with h | ⟨u, -, hu⟩; exacts [(takeBit_refused (s := forcedResync s) h).2, by cases hu]
    case softTake =>
      rcases h with h | ⟨u, -, hu⟩; exacts [(takeBit_refused (s := softResync s) h).2, by cases hu]
    all_goals rcases h with h | ⟨u, -, hu⟩ <;> simp_all

/-- What a sample leaves: nothing changed while RUN is false, else the sample counted on the state the
BitSampler's action leaves. -/
theorem sampleStep_next {L : Level} {s t : State} (h : sampleStep L s = .next t) :
    (s.run = false ∧ t = s) ∨
    (s.run = true ∧ ∃ u, sampleBody L s = .next u ∧ SameControl s u ∧ t = sampleEnd L s.sampIdx u) := by
  cases hr : s.run
  · rw [sampleStep_not_run hr] at h; cases h; exact .inl ⟨rfl, rfl⟩
  · rw [sampleStep_run hr, andThen_eq_next] at h
    obtain ⟨u, hu, ht⟩ := h
    cases ht
    exact .inr ⟨rfl, u, hu, sampleBody_control hu, rfl⟩

theorem run_eq_true (s : State) : s.run = true ↔ s.en = true ∧ s.cfgErr = false := by
  unfold State.run; cases s.en <;> cases s.cfgErr <;> simp

theorem run_eq_false (s : State) : s.run = false ↔ s.en = false ∨ s.cfgErr = true := by
  unfold State.run; cases s.en <;> cases s.cfgErr <;> simp

/-! ### The read-data port and the coming inputs play no part -/

theorem handler_withPorts (c : FdCode) (r : Word) (ins : List CycleInput) (s : State) :
    exec (decodeHandler c) (withPorts r ins s) = mapNext (withPorts r ins) (exec (decodeHandler c) s) := by
  unfold decodeHandler
  split
  · rfl
  · show Host.Outcome.next (if _ then sofDone (withPorts r ins s) else _) = mapNext _ (.next (if _ then _ else _))
    rw [mapNext_ite, sofDone_eq, sofDone_eq]; rfl
  · show Host.Outcome.next (if _ then idDone (withPorts r ins s) else _) = mapNext _ (.next (if _ then _ else _))
    rw [mapNext_ite, idDone_eq, idDone_eq]; rfl
  · show _ = mapNext _ (.next (if _ then _ else if _ then _ else if _ then _ else _))
    simp only [mapNext_next, apply_ite (withPorts r ins)]; rfl
  · show Host.Outcome.next (if _ then lenDone (withPorts r ins s) else _) = mapNext _ (.next (if _ then _ else _))
    rw [mapNext_ite, lenDone_eq, lenDone_eq]; rfl
  · show Host.Outcome.next (if _ then _ else dataBit (withPorts r ins s)) = mapNext _ (.next (if _ then _ else _))
    rw [mapNext_ite, dataBit_eq, dataBit_eq]
    by_cases h : byteBit (bitIndex s) = 7
    · have h' : byteBit (bitIndex (withPorts r ins s)) = 7 := h
      simp only [if_pos h, if_pos h']; rfl
    · have h' : ¬ byteBit (bitIndex (withPorts r ins s)) = 7 := h
      simp only [if_neg h, if_neg h']; rfl
  · show _ = mapNext _ (.next (if _ then _ else _))
    rw [mapNext_ite]; rfl
  · show Host.Outcome.next (singleBit _ _ _ _ (withPorts r ins s)) = mapNext _ (.next (singleBit _ _ _ _ s))
    rw [singleBit_eq, singleBit_eq]; rfl
  · show Host.Outcome.next (singleBit _ _ _ _ (withPorts r ins s)) = mapNext _ (.next (singleBit _ _ _ _ s))
    rw [singleBit_eq, singleBit_eq]; rfl
  · show Host.Outcome.next (singleBit _ _ _ _ (withPorts r ins s)) = mapNext _ (.next (singleBit _ _ _ _ s))
    rw [singleBit_eq, singleBit_eq]; rfl
  · show Host.Outcome.next (if _ then eofDone (eofBit (withPorts r ins s)) else eofBit (withPorts r ins s)) =
      mapNext _ (.next (if _ then _ else _))
    rw [mapNext_ite, eofBit_eq, eofBit_eq]; rfl
  · rfl
  · rfl

theorem accumulate_withPorts (r : Word) (ins : List CycleInput) (s : State) :
    accumulate (withPorts r ins s) = withPorts r ins (accumulate s) := by
  show (if isFieldStart s.fdState (bitIndex s) s.lastData s.crcLen then _ else _) = _
  unfold accumulate
  split <;> rfl

theorem takeBit_withPorts (L : Level) (r : Word) (ins : List CycleInput) (s : State) :
    takeBit L (withPorts r ins s) = mapNext (withPorts r ins) (takeBit L s) := by
  cases hr : isStuffPos s.rawIdx
  · have hr' : isStuffPos (withPorts r ins s).rawIdx = false := hr
    rw [takeBit_logical hr, takeBit_logical hr', ← handler_withPorts, ← accumulate_withPorts]; rfl
  · have hr' : isStuffPos (withPorts r ins s).rawIdx = true := hr
    cases hw : isEodWindow (shiftWindow s.win L)
    · rw [takeBit_stuff hr hw, takeBit_stuff hr' hw]; rfl
    · by_cases hd : s.fdState = fdDataCode
      · rw [takeBit_eod_data hr hw hd, takeBit_eod_data (s := withPorts r ins s) hr' hw hd]; rfl
      · rw [takeBit_eod hr hw hd, takeBit_eod (s := withPorts r ins s) hr' hw hd]; rfl

theorem takeIfDue_withPorts (L : Level) (r : Word) (ins : List CycleInput) (s : State) :
    takeIfDue L (withPorts r ins s) = mapNext (withPorts r ins) (takeIfDue L s) := by
  unfold takeIfDue
  rw [takeBit_withPorts]
  show (if sp s s.rawIdx = s.sampIdx then _ else _) = _
  split <;> rfl

theorem sampleBody_withPorts (L : Level) (r : Word) (ins : List CycleInput) (s : State) :
    sampleBody L (withPorts r ins s) = mapNext (withPorts r ins) (sampleBody L s) := by
  unfold sampleBody
  show (match s.bsState with | .idle => _ | .sync => _) = _
  cases s.bsState
  · show sampleIdle L (withPorts r ins s) = mapNext (withPorts r ins) (sampleIdle L s)
    unfold sampleIdle
    split
    · exact takeIfDue_withPorts L r ins (forcedResync s)
    · rfl
  · show (if sp s s.rawIdx = s.sampIdx then takeBit L (withPorts r ins s)
      else if isEdge s.prevLevel L then takeIfDue L (withPorts r ins (softResync s)) else _) = _
    show _ = mapNext (withPorts r ins) (if _ then _ else if _ then takeIfDue L (softResync s) else _)
    rw [takeBit_withPorts, takeIfDue_withPorts]
    split
    · rfl
    · split <;> rfl

/-- A sample neither reads nor writes the read-data port and the coming inputs. -/
theorem sampleStep_withPorts (L : Level) (r : Word) (ins : List CycleInput) (s : State) :
    sampleStep L (withPorts r ins s) = mapNext (withPorts r ins) (sampleStep L s) := by
  cases hr : s.run
  · rw [sampleStep_not_run hr, sampleStep_not_run (by exact hr)]; rfl
  · rw [sampleStep_run hr, sampleStep_run (by exact hr), sampleBody_withPorts]
    cases sampleBody L s <;> rfl

end Sys2Proof.Machine
end

