-- ==== Sys2Proof/Laws/Cycle.lean ====
section
/-! SUPPORT. What one cycle can do, said once: the read, the sample and the write of a cycle word, and the two kinds of step. -/

namespace Sys2Proof.Machine

open Sys2Proof

/-- The class of an address decides which register it names. -/
theorem classOf_register (a : RegAddr) :
    (classOf a = .id → a = addrId) ∧ (classOf a = .ctrl → a = addrCtrl) ∧
    (classOf a = .status → a = addrStatus) ∧ (classOf a = .bitWidth → a = addrBitWidth) ∧
    (classOf a = .spOffset → a = addrSpOffset) ∧ (classOf a = .sampleIdx → a = addrSampleIdx) ∧
    (classOf a = .bitIdx → a = addrBitIdx) ∧ (classOf a = .anchorSample → a = addrAnchorSample) ∧
    (classOf a = .anchorBit → a = addrAnchorBit) ∧ (classOf a = .nextSp → a = addrNextSp) ∧
    (classOf a = .frame → a = addrFrame) ∧ (classOf a = .offsets → a = addrOffsets) ∧
    (classOf a = .acc → a = addrAcc) ∧ (classOf a = .fieldStart → a = addrFieldStart) := by
  revert a; decide

/-- The read row of an address is the read of that address. -/
theorem exec_decodeReadAddr (a : RegAddr) (s : State) : exec (decodeReadAddr a) s = .next (busRead a s) := by
  obtain ⟨h1, h2, h3, h4, h5, h6, h7, h8, h9, h10, h11, h12, h13, h14⟩ := classOf_register a
  unfold decodeReadAddr
  split <;> rename_i h
  · rw [h1 h]; rfl
  · rw [h2 h]; rfl
  · rw [h3 h]; rfl
  · rw [h4 h]; rfl
  · rw [h5 h]; rfl
  · rw [h6 h]; rfl
  · rw [h7 h]; rfl
  · rw [h8 h]; rfl
  · rw [h9 h]; rfl
  · rw [h10 h]; rfl
  · rw [h11 h]; rfl
  · rw [h12 h]; rfl
  · rw [h13 h]; rfl
  · rw [h14 h]; rfl
  all_goals rfl

/-- The write row of an address is the write of that address. -/
theorem exec_decodeWriteAddr (a : RegAddr) (v : Word) (s : State) :
    exec (decodeWriteAddr a v) s = .next (regWrite a v s) := by
  obtain ⟨h1, h2, h3, h4, h5, h6, h7, h8, h9, h10, h11, h12, h13, h14⟩ := classOf_register a
  unfold decodeWriteAddr
  split <;> rename_i h
  · rw [h1 h]; rfl
  · rw [h2 h]; rfl
  · rw [h3 h]; rfl
  · rw [h4 h]; rfl
  · rw [h5 h]; rfl
  · rw [h6 h]; rfl
  · rw [h7 h]; rfl
  · rw [h8 h]; rfl
  · rw [h9 h]; rfl
  · rw [h10 h]; rfl
  · rw [h11 h]; rfl
  · rw [h12 h]; rfl
  · rw [h13 h]; rfl
  · rw [h14 h]; rfl
  all_goals rfl

/-- The beat row of a word is its sample part. -/
theorem exec_decodeBeat (w : CycleWord) (s : State) : exec (decodeBeat w) s = samplePart w s := by
  unfold decodeBeat samplePart
  rcases level_cases (CycleWord.sValid w) with h | h
  · simp only [h, if_true, show ¬ (0#1 = 1#1 : Prop) from by decide, if_false]; rfl
  · simp only [h, show ¬ (1#1 = 0#1 : Prop) from by decide, if_false, if_true]
    rcases level_cases (CycleWord.sLevel w) with h2 | h2
    · simp only [h2, if_true]; rfl
    · simp only [h2, show ¬ (1#1 = dominant : Prop) from by decide, if_false]; rfl

/-- The read part of a word on a state: the read data of `re = 1`. -/
def readState (w : CycleWord) (s : State) : State :=
  if CycleWord.re w = 1#1 then busRead (CycleWord.addr w) s else s

/-- The rows of a word are its read, its sample and its write, in that order (R9). -/
theorem runRows_cycleRows (w : CycleWord) (s : State) :
    runRows (cycleRows w) s = andThen (samplePart w (readState w s)) fun t => .next (writePart w t) := by
  have hb (u : State) : runRows (decodeBeat w :: busRowsAfter w) u =
      andThen (samplePart w u) fun t => .next (writePart w t) := by
    rw [runRows_cons, exec_decodeBeat]
    congr 1
    funext t
    unfold busRowsAfter decodeWrite writePart
    split
    · show andThen (exec _ t) _ = _
      rw [exec_decodeWriteAddr]; rfl
    · rfl
  unfold cycleRows busRowsBefore decodeRead readState
  rcases level_cases (CycleWord.re w) with h | h
  · simp only [h, show ¬ (0#1 = 1#1 : Prop) from by decide, if_false]
    cases decodeWrite w
    · exact hb s
    · exact hb s
  · simp only [h, if_true]
    show andThen (exec _ s) _ = _
    rw [exec_decodeReadAddr]
    exact hb _

/-- A state for the sample of a cycle: outputs cleared. -/
def clearRecords (s : State) : State := { s with outBm := none, outFs := none, outWn := none }

/-- The read data of a cycle are those of the state before it: no register shows the output records. -/
theorem regRead_clearRecords (a : RegAddr) (r : Word) (ins : List CycleInput) (s : State) :
    regRead a (withPorts r ins (clearRecords s)) = regRead a s := rfl

/-- A cycle without reset: the read of the state before it, then the sample, then the write. -/
theorem runCycle_eq (w : CycleWord) (s : State) :
    runCycle ⟨false, w⟩ s =
      andThen (samplePart w (withPorts (readPart w s) s.inputs (clearRecords s))) fun t =>
        .next (writePart w t) := by
  show runRows (cycleRows w) (beginCycle s) = _
  rw [runRows_cycleRows]
  congr 2
  unfold readState readPart
  split <;> rfl

/-- What a register write never touches. -/
theorem writePart_ports (w : CycleWord) (s : State) :
    (writePart w s).outBm = s.outBm ∧ (writePart w s).outFs = s.outFs ∧ (writePart w s).outWn = s.outWn ∧
      (writePart w s).rdata = s.rdata ∧ (writePart w s).inputs = s.inputs := by
  unfold writePart
  split
  · rcases regWrite_cases (CycleWord.addr w) (CycleWord.wdata w) s with h | ⟨-, h⟩ | ⟨-, -, h⟩ | ⟨-, -, h⟩
    · rw [h]; exact ⟨rfl, rfl, rfl, rfl, rfl⟩
    · rw [h]
      rcases ctrlWrite_cases (CycleWord.wdata w) s with ⟨-, k⟩ | ⟨-, -, k⟩ | ⟨-, -, -, k⟩ | ⟨-, -, -, k⟩ <;>
        rw [k] <;> exact ⟨rfl, rfl, rfl, rfl, rfl⟩
    · rw [h]; exact ⟨rfl, rfl, rfl, rfl, rfl⟩
    · rw [h]; exact ⟨rfl, rfl, rfl, rfl, rfl⟩
  · exact ⟨rfl, rfl, rfl, rfl, rfl⟩

/-- A register write neither reads nor writes the read-data port and the coming inputs. -/
theorem writePart_withPorts (w : CycleWord) (r : Word) (ins : List CycleInput) (s : State) :
    writePart w (withPorts r ins s) = withPorts r ins (writePart w s) := by
  have hc (v : Word) : ctrlWrite v (withPorts r ins s) = withPorts r ins (ctrlWrite v s) := by
    show (if _ then _ else if s.en then _ else if tooNarrow s.bitWidth then _ else _) =
      withPorts r ins (if _ then _ else if _ then _ else if _ then _ else _)
    split
    · rfl
    · split
      · rfl
      · split <;> rfl
  have hb (v : Word) : bitWidthWrite v (withPorts r ins s) = withPorts r ins (bitWidthWrite v s) := by
    show (if s.en then _ else _) = withPorts r ins (if _ then _ else _)
    split <;> rfl
  have ho (v : Word) : spOffsetWrite v (withPorts r ins s) = withPorts r ins (spOffsetWrite v s) := by
    show (if s.en then _ else _) = withPorts r ins (if _ then _ else _)
    split <;> rfl
  unfold writePart regWrite
  rw [hc, hb, ho]
  simp only [← apply_ite (withPorts r ins)]

/-- A sample part that goes on either took no sample and changed nothing, or was the sample step. -/
theorem samplePart_next {w : CycleWord} {s t : State} (h : samplePart w s = .next t) :
    (CycleWord.sValid w = 0#1 ∧ t = s) ∨
    (CycleWord.sValid w = 1#1 ∧ sampleStep (CycleWord.sLevel w) s = .next t) := by
  unfold samplePart at h
  rcases level_cases (CycleWord.sValid w) with hv | hv
  · rw [if_neg (by rw [hv]; decide)] at h; cases h; exact .inl ⟨hv, rfl⟩
  · rw [if_pos hv] at h; exact .inr ⟨hv, h⟩

/-- Everything a step that goes on can be: a reset, or a cycle whose sample part goes on and whose write is
then applied. -/
theorem step_next {s t : State} (h : step s = .next t) :
    ((nextInput s).rst = true ∧ t = resetCycle (takeInput s)) ∨
    ((nextInput s).rst = false ∧ ∃ u,
      samplePart (nextInput s).word
        (withPorts (readPart (nextInput s).word s) s.inputs.tail (clearRecords s)) = .next u ∧
      t = writePart (nextInput s).word u) := by
  unfold step at h
  cases hr : (nextInput s).rst
  · have e : nextInput s = ⟨false, (nextInput s).word⟩ := by rw [← hr]
    rw [e, runCycle_eq, andThen_eq_next] at h
    obtain ⟨u, hu, ht⟩ := h
    cases ht
    exact .inr ⟨rfl, u, hu, rfl⟩
  · unfold runCycle at h
    rw [if_pos hr] at h
    cases h
    exact .inl ⟨rfl, rfl⟩

end Sys2Proof.Machine
end

