-- ==== Sys2Proof/Laws/Frame.lean ====
section
/-! SUPPORT. What a raw bit does to a frame in progress: in each FrameDecoder state, where the indices, the fields and the accumulator stand before and after it. -/

namespace Sys2Proof.Machine

open Sys2Proof

/-- The frame part of `InFrame`: where the indices, the fields and the accumulator of a frame stand. -/
def FrameInOrder (s : State) : Prop := s.rawIdx.toNat ≤ 715 ∧ s.logIdx.toNat = logOfRaw s.rawIdx.toNat ∧ FieldPosition s ∧ AccWithinField s

/-! ### `FieldPosition`, state by state -/

theorem fieldPosition_0 {t : State} (h : t.fdState = 0#4) : FieldPosition t ↔ t.fmt = 0#1 ∧ t.ctrl4 = 0#4 ∧ NoLayout t ∧ t.logIdx = 0#16 := by
  simp [FieldPosition, h]

theorem fieldPosition_1 {t : State} (h : t.fdState = 1#4) : FieldPosition t ↔ t.fmt = 0#1 ∧ t.ctrl4 = 0#4 ∧ NoLayout t ∧ 1 ≤ t.logIdx.toNat ∧ t.logIdx.toNat ≤ 9 := by
  simp [FieldPosition, h]

theorem fieldPosition_2 {t : State} (h : t.fdState = 2#4) : FieldPosition t ↔ t.fmt = 0#1 ∧ t.ctrl4 = 0#4 ∧ NoLayout t ∧ 10 ≤ t.logIdx.toNat ∧ t.logIdx.toNat ≤ 23 := by
  simp [FieldPosition, h]

theorem fieldPosition_3 {t : State} (h : t.fdState = 3#4) : FieldPosition t ↔ t.ctrl4 = 0#4 ∧ NoLayout t ∧ 24 ≤ t.logIdx.toNat ∧ t.logIdx.toNat ≤ 27 := by
  simp [FieldPosition, h]

theorem fieldPosition_4 {t : State} (h : t.fdState = 4#4) : FieldPosition t ↔ NoLayout t ∧ 28 ≤ t.logIdx.toNat ∧ t.logIdx.toNat ≤ 31 := by
  simp [FieldPosition, h]

theorem fieldPosition_5 {t : State} (h : t.fdState = 5#4) : FieldPosition t ↔ Layout t ∧ 32 ≤ t.logIdx.toNat ∧ t.logIdx.toNat ≤ t.lastData.toNat ∧
      t.lastData.toNat = 31 + 8 * t.nbytes.toNat ∧ t.byteCnt.toNat = (t.logIdx.toNat - 32) / 8 := by
  simp [FieldPosition, h]

theorem fieldPosition_6 {t : State} (h : t.fdState = 6#4) : FieldPosition t ↔ Layout t ∧ t.byteCnt.toNat = (t.lastData.toNat - 31) / 8 ∧ t.lastData.toNat + 1 ≤ t.logIdx.toNat ∧ t.logIdx.toNat ≤ crcEnd t.lastData t.crcLen := by
  simp [FieldPosition, h]

theorem fieldPosition_7 {t : State} (h : t.fdState = 7#4) : FieldPosition t ↔ Layout t ∧ t.byteCnt.toNat = (t.lastData.toNat - 31) / 8 ∧ t.logIdx.toNat = crcEnd t.lastData t.crcLen + 1 := by
  simp [FieldPosition, h]

theorem fieldPosition_8 {t : State} (h : t.fdState = 8#4) : FieldPosition t ↔ Layout t ∧ t.byteCnt.toNat = (t.lastData.toNat - 31) / 8 ∧ t.logIdx.toNat = crcEnd t.lastData t.crcLen + 2 := by
  simp [FieldPosition, h]

theorem fieldPosition_9 {t : State} (h : t.fdState = 9#4) : FieldPosition t ↔ Layout t ∧ t.byteCnt.toNat = (t.lastData.toNat - 31) / 8 ∧ t.logIdx.toNat = crcEnd t.lastData t.crcLen + 3 := by
  simp [FieldPosition, h]

theorem fieldPosition_10 {t : State} (h : t.fdState = 10#4) : FieldPosition t ↔ Layout t ∧ t.byteCnt.toNat = (t.lastData.toNat - 31) / 8 ∧ crcEnd t.lastData t.crcLen + 4 ≤ t.logIdx.toNat ∧ t.logIdx.toNat ≤ crcEnd t.lastData t.crcLen + 10 := by
  simp [FieldPosition, h]

/-! ### The logical index awaited with a raw index (R85) -/

/-- Past a logical bit the awaited logical index is one more. -/
theorem logOfRaw_succ {r : BitIdx} (h : isStuffPos r = false) : logOfRaw (r.toNat + 1) = logOfRaw r.toNat + 1 := by
  rw [isStuffPos_eq_false] at h
  unfold logOfRaw; split <;> split <;> omega

/-- Past a stuff position the awaited logical index is the same. -/
theorem logOfRaw_stuff {r : BitIdx} (h : isStuffPos r = true) : logOfRaw (r.toNat + 1) = logOfRaw r.toNat := by
  rw [isStuffPos_iff] at h
  unfold logOfRaw; split <;> split <;> omega

/-- No logical index of a frame is above 574 (R190). -/
theorem logOfRaw_le {r : Nat} (h : r ≤ 715) : logOfRaw r ≤ 574 := by
  unfold logOfRaw; split <;> omega

/-- The last raw bit of the longest frame is its last logical bit (R190). -/
theorem logOfRaw_last {r : Nat} (h : r ≤ 715) (h2 : r = 715) : logOfRaw r = 574 := by
  subst h2; rfl

/-! ### Layout values -/

/-- At most 64 bytes (R91). -/
theorem dlcTable_le (d : BitVec 4) : (dlcTable d).toNat ≤ 64 := by revert d; decide

/-- The CRC has 15 to 21 bits (R92). -/
theorem crcLenOf_bounds (f : BitVec 1) (n : BitVec 7) : 15 ≤ (crcLenOf f n).toNat ∧ (crcLenOf f n).toNat ≤ 21 := by
  unfold crcLenOf; split_ifs <;> decide

/-- What a layout bounds. -/
theorem layout_bounds {s : State} (h : Layout s) : s.nbytes.toNat ≤ 64 ∧ 15 ≤ s.crcLen.toNat ∧ s.crcLen.toNat ≤ 21 := by
  obtain ⟨h1, h2, -, -⟩ := h
  rw [h1] at *
  have := crcLenOf_bounds s.fmt (dlcTable s.dlc)
  exact ⟨dlcTable_le _, by rw [h2]; exact this.1, by rw [h2]; exact this.2⟩

/-! ### Accumulation -/

/-- An accumulator that holds the `n` bits of its field so far holds `n + 1` bits after one more. -/
theorem accumulate_bound (u : State) (n : Nat) (hs : isFieldStart u.fdState (bitIndex u) u.lastData u.crcLen = decide (n = 0))
   (h : 0 < n → u.acc.toNat < 2 ^ n) (hn : n ≤ 20) :
   ∃ x f, accumulate u = {u with acc := x, fldStart := f} ∧ x.toNat < 2 ^ (n+1) ∧ x.toNat < 2 ^ 21 := by
  have hL := (bitLevel u).isLt
  have hp : 2 ^ (n+1) ≤ 2 ^ 21 := Nat.pow_le_pow_right (by omega) (by omega)
  by_cases h0 : n = 0
  · refine ⟨_, _, by unfold accumulate; rw [hs, if_pos (by simp [h0])], ?_⟩
    rw [load_toNat]; subst h0; omega
  · refine ⟨shiftAcc u.acc (bitLevel u), u.fldStart, by unfold accumulate; rw [hs, if_neg (by simp [h0])], ?_⟩
    rw [shiftAcc_toNat]
    have := h (by omega)
    have e : 2 ^ (n+1) = 2 * 2 ^ n := by rw [pow_succ]; omega
    generalize 2 ^ n = p at *
    omega

/-- The handler of a logical bit sees the index the bit took. -/
theorem bitIndex_beforeHandler (L : Level) (s : State) : bitIndex (beforeHandler L s) = s.logIdx := by
  show s.logIdx + 1#16 - 1#16 = _
  exact BitVec.add_sub_cancel _ _

/-- A bit index of a frame does not wrap. -/
theorem idx_succ_toNat (x : BitIdx) (h : x.toNat ≤ 1000) : (x + 1#16).toNat = x.toNat + 1 := by
  rw [BitVec.toNat_add]; simp; omega

/-- The state the handler of code `k` runs on: the logical bit taken, and accumulated to `x` with field start `f`. -/
def handlerState (L : Level) (s : State) (k : FdCode) (x f : Word) : State :=
  { s with
    rawIdx := s.rawIdx + 1#16
    win := shiftWindow s.win L
    outBm := some (markOf .ordinary L s)
    logIdx := s.logIdx + 1#16
    fdState := k
    acc := x
    fldStart := f }

theorem bitIndex_handlerState (L : Level) (s : State) (k x f) : bitIndex (handlerState L s k x f) = s.logIdx := BitVec.add_sub_cancel _ _

/-- A logical bit runs the handler of its state code, on an accumulator that stays in its field. -/
theorem takeBit_handlerState (L : Level) (s : State) (k : FdCode) (n : Nat) (hr : isStuffPos s.rawIdx = false)
    (hb : (if s.fdState = 0#4 then 1#4 else s.fdState) = k)
    (hs : isFieldStart k s.logIdx s.lastData s.crcLen = decide (n = 0))
    (h : 0 < n → s.acc.toNat < 2 ^ n) (hn : n ≤ 20) :
    ∃ x f, takeBit L s = exec (decodeHandler k) (handlerState L s k x f) ∧ x.toNat < 2 ^ (n+1) ∧ x.toNat < 2 ^ 21 := by
  have hb' : (beforeHandler L s).fdState = k := hb
  obtain ⟨x, f, hx, hx1, hx2⟩ := accumulate_bound (beforeHandler L s) n (by rw [hb', bitIndex_beforeHandler]; exact hs) h hn
  refine ⟨x, f, ?_, hx1, hx2⟩
  rw [takeBit_logical hr, hx, hb']
  congr 1

/-- What a frame in order gives of its indices when a logical bit is taken. -/
structure LogicalBitFacts (s : State) : Prop where
  hsr : (s.rawIdx + 1#16).toNat = s.rawIdx.toNat + 1
  hsl : (s.logIdx + 1#16).toNat = s.logIdx.toNat + 1
  hls : logOfRaw (s.rawIdx.toNat + 1) = s.logIdx.toNat + 1
  hraw : s.rawIdx.toNat ≤ 715
  htop : s.rawIdx.toNat = 715 → s.logIdx.toNat = 574

theorem logicalBitFacts {s : State} (hF : FrameInOrder s) (hr : isStuffPos s.rawIdx = false) : LogicalBitFacts s := by
  obtain ⟨hraw, hlog, hfp, hacc⟩ := hF
  have hl574 := logOfRaw_le hraw
  have htop := logOfRaw_last hraw
  refine ⟨idx_succ_toNat s.rawIdx (by omega), idx_succ_toNat s.logIdx (by omega), by rw [logOfRaw_succ hr, hlog], hraw, fun h => by rw [hlog, htop h]⟩

/-- A frame stays in order past a logical bit that is not its last possible one, if its fields do. -/
theorem frameInOrder_next {s t : State} (c : LogicalBitFacts s) (h1 : t.rawIdx = s.rawIdx + 1#16) (h2 : t.logIdx = s.logIdx + 1#16) (h3 : s.logIdx.toNat ≠ 574) (h5 : FieldPosition t) (h6 : AccWithinField t) : FrameInOrder t := by
  have hsr := c.hsr
  have hsl := c.hsl
  have htop := c.htop
  have hraw := c.hraw
  refine ⟨by rw [h1, hsr]; omega, by rw [h1, h2, hsr, hsl, c.hls], h5, h6⟩

/-- What a raw bit does to a frame in order: it ends the frame, at logical index 56 or later, or leaves it in
order one raw bit further. -/
def KeepsFrame (s t : State) : Prop := (frameEnd t = t ∧ 56 ≤ s.logIdx.toNat) ∨ (t.bsState = s.bsState ∧ t.rawIdx = s.rawIdx + 1#16 ∧ FrameInOrder t)

/-! ### Each handler keeps the frame in order -/

theorem sof_keepsFrame {L : Level} {s t : State} (c : LogicalBitFacts s) {x f : Word} (f1 : s.fmt = 0#1) (f2 : s.ctrl4 = 0#4) (f3 : NoLayout s) (h9 : s.logIdx.toNat ≤ 9)
   (hx1 : x.toNat < 2 ^ (s.logIdx.toNat + 1)) (hx2 : x.toNat < 2 ^ 21)
   (h : exec .fdSof (handlerState L s 1#4 x f) = .next t) : KeepsFrame s t := by
  have hsl := c.hsl
  replace h : Host.Outcome.next (if (bitIndex (handlerState L s 1#4 x f)).toNat = 9 then sofDone (handlerState L s 1#4 x f) else (handlerState L s 1#4 x f)) = .next t := h
  rw [bitIndex_handlerState] at h
  by_cases h9 : s.logIdx.toNat = 9
  · rw [if_pos h9, sofDone_eq] at h
    cases h
    refine .inr ⟨rfl, rfl, frameInOrder_next c rfl rfl (by omega) ((fieldPosition_2 rfl).2 ⟨f1, f2, f3, ?_, ?_⟩) ⟨hx2, fun hp => ?_⟩⟩
    · show 10 ≤ (s.logIdx + 1#16).toNat; omega
    · show (s.logIdx + 1#16).toNat ≤ 23; omega
    · change 0 < (s.logIdx + 1#16).toNat - 10 at hp; omega
  · rw [if_neg h9] at h
    cases h
    refine .inr ⟨rfl, rfl, frameInOrder_next c rfl rfl (by omega) ((fieldPosition_1 rfl).2 ⟨f1, f2, f3, ?_, ?_⟩) ⟨hx2, fun hp => ?_⟩⟩
    · show 1 ≤ (s.logIdx + 1#16).toNat; omega
    · show (s.logIdx + 1#16).toNat ≤ 9; omega
    · show x.toNat < 2 ^ (s.logIdx + 1#16).toNat
      rw [hsl]; exact hx1

theorem id_keepsFrame {L : Level} {s t : State} (c : LogicalBitFacts s) {x f : Word} (f1 : s.fmt = 0#1) (f2 : s.ctrl4 = 0#4) (f3 : NoLayout s) (h1 : 10 ≤ s.logIdx.toNat) (h2 : s.logIdx.toNat ≤ 23)
   (hx1 : x.toNat < 2 ^ (s.logIdx.toNat - 10 + 1)) (hx2 : x.toNat < 2 ^ 21)
   (h : exec .fdId (handlerState L s 2#4 x f) = .next t) : KeepsFrame s t := by
  have hsl := c.hsl
  replace h : Host.Outcome.next (if (bitIndex (handlerState L s 2#4 x f)).toNat = 23 then idDone (handlerState L s 2#4 x f) else (handlerState L s 2#4 x f)) = .next t := h
  rw [bitIndex_handlerState] at h
  by_cases h9 : s.logIdx.toNat = 23
  · rw [if_pos h9, idDone_eq] at h
    cases h
    refine .inr ⟨rfl, rfl, frameInOrder_next c rfl rfl (by omega) ((fieldPosition_3 rfl).2 ⟨f2, f3, ?_, ?_⟩) ⟨hx2, fun hp => ?_⟩⟩
    · show 24 ≤ (s.logIdx + 1#16).toNat; omega
    · show (s.logIdx + 1#16).toNat ≤ 27; omega
    · change 0 < (s.logIdx + 1#16).toNat - 24 at hp; omega
  · rw [if_neg h9] at h
    cases h
    refine .inr ⟨rfl, rfl, frameInOrder_next c rfl rfl (by omega) ((fieldPosition_2 rfl).2 ⟨f1, f2, f3, ?_, ?_⟩) ⟨hx2, fun hp => ?_⟩⟩
    · show 10 ≤ (s.logIdx + 1#16).toNat; omega
    · show (s.logIdx + 1#16).toNat ≤ 23; omega
    · show x.toNat < 2 ^ ((s.logIdx + 1#16).toNat - 10)
      rw [hsl, show s.logIdx.toNat + 1 - 10 = s.logIdx.toNat - 10 + 1 by omega]; exact hx1

theorem ctrl_keepsFrame {L : Level} {s t : State} (c : LogicalBitFacts s) {x f : Word} (f2 : s.ctrl4 = 0#4) (f3 : NoLayout s) (h1 : 24 ≤ s.logIdx.toNat) (h2 : s.logIdx.toNat ≤ 27)
   (hx1 : x.toNat < 2 ^ (s.logIdx.toNat - 24 + 1)) (hx2 : x.toNat < 2 ^ 21)
   (h : exec .fdCtrl (handlerState L s 3#4 x f) = .next t) : KeepsFrame s t := by
  have hsl := c.hsl
  replace h : Host.Outcome.next (if (bitIndex (handlerState L s 3#4 x f)).toNat = 24 then formatFlag (handlerState L s 3#4 x f) else if (bitIndex (handlerState L s 3#4 x f)).toNat = 27 then ctrlDone (controlBit (handlerState L s 3#4 x f)) else if 24 < (bitIndex (handlerState L s 3#4 x f)).toNat ∧ (bitIndex (handlerState L s 3#4 x f)).toNat < 27 then controlBit (handlerState L s 3#4 x f) else (handlerState L s 3#4 x f)) = .next t := h
  rw [bitIndex_handlerState] at h
  by_cases h9 : s.logIdx.toNat = 27
  · rw [if_neg (by omega), if_pos h9] at h
    cases h
    refine .inr ⟨rfl, rfl, frameInOrder_next c rfl rfl (by omega) ((fieldPosition_4 rfl).2 ⟨f3, ?_, ?_⟩) ⟨hx2, fun hp => ?_⟩⟩
    · show 28 ≤ (s.logIdx + 1#16).toNat; omega
    · show (s.logIdx + 1#16).toNat ≤ 31; omega
    · change 0 < (s.logIdx + 1#16).toNat - 28 at hp; omega
  · by_cases h8 : s.logIdx.toNat = 24
    · rw [if_pos h8] at h
      cases h
      refine .inr ⟨rfl, rfl, frameInOrder_next c rfl rfl (by omega) ((fieldPosition_3 rfl).2 ⟨f2, f3, ?_, ?_⟩) ⟨hx2, fun hp => ?_⟩⟩
      · show 24 ≤ (s.logIdx + 1#16).toNat; omega
      · show (s.logIdx + 1#16).toNat ≤ 27; omega
      · show x.toNat < 2 ^ ((s.logIdx + 1#16).toNat - 24)
        rw [hsl, show s.logIdx.toNat + 1 - 24 = s.logIdx.toNat - 24 + 1 by omega]; exact hx1
    · rw [if_neg h8, if_neg h9, if_pos (by omega)] at h
      cases h
      refine .inr ⟨rfl, rfl, frameInOrder_next c rfl rfl (by omega) ((fieldPosition_3 rfl).2 ⟨f2, f3, ?_, ?_⟩) ⟨hx2, fun hp => ?_⟩⟩
      · show 24 ≤ (s.logIdx + 1#16).toNat; omega
      · show (s.logIdx + 1#16).toNat ≤ 27; omega
      · show x.toNat < 2 ^ ((s.logIdx + 1#16).toNat - 24)
        rw [hsl, show s.logIdx.toNat + 1 - 24 = s.logIdx.toNat - 24 + 1 by omega]; exact hx1

theorem len_keepsFrame {L : Level} {s t : State} (c : LogicalBitFacts s) {x f : Word} (f3 : NoLayout s) (h1 : 28 ≤ s.logIdx.toNat) (h2 : s.logIdx.toNat ≤ 31)
   (hx1 : x.toNat < 2 ^ (s.logIdx.toNat - 28 + 1)) (hx2 : x.toNat < 2 ^ 21)
   (h : exec .fdLen (handlerState L s 4#4 x f) = .next t) : KeepsFrame s t := by
  have hsl := c.hsl
  replace h : Host.Outcome.next (if (bitIndex (handlerState L s 4#4 x f)).toNat = 31 then lenDone (handlerState L s 4#4 x f) else (handlerState L s 4#4 x f)) = .next t := h
  rw [bitIndex_handlerState] at h
  by_cases h9 : s.logIdx.toNat = 31
  · rw [if_pos h9, lenDone_eq] at h
    have hn := dlcTable_le (x.extractLsb' 0 4)
    have hc := crcLenOf_bounds s.fmt (dlcTable (x.extractLsb' 0 4))
    have hd : (lastDataOf (dlcTable (x.extractLsb' 0 4))).toNat = 31 + 8 * (dlcTable (x.extractLsb' 0 4)).toNat := by
      unfold lastDataOf; simp; omega
    have hb0 : s.byteCnt.toNat = 0 := by rw [f3.2.2.1]; rfl
    by_cases hn0 : 0 < (dlcTable (x.extractLsb' 0 4)).toNat
    · rw [show (if 0 < (dlcTable ((handlerState L s 4#4 x f).acc.extractLsb' 0 4)).toNat then fdDataCode else fdCrcCode) = 5#4 from if_pos hn0] at h
      cases h
      refine .inr ⟨rfl, rfl, frameInOrder_next c rfl rfl (by omega) ((fieldPosition_5 rfl).2 ⟨⟨rfl, rfl, ?_, ?_⟩, ?_, ?_, hd, ?_⟩) ⟨hx2, fun hp => ?_⟩⟩
      · show 31 ≤ (lastDataOf (dlcTable (x.extractLsb' 0 4))).toNat; omega
      · show (lastDataOf (dlcTable (x.extractLsb' 0 4))).toNat ≤ _; rw [hd]; exact Nat.le_refl _
      · show 32 ≤ (s.logIdx + 1#16).toNat; omega
      · show (s.logIdx + 1#16).toNat ≤ (lastDataOf (dlcTable (x.extractLsb' 0 4))).toNat; omega
      · show s.byteCnt.toNat = ((s.logIdx + 1#16).toNat - 32) / 8; omega
      · change 0 < ((s.logIdx + 1#16).toNat - 32) % 8 at hp; omega
    · rw [show (if 0 < (dlcTable ((handlerState L s 4#4 x f).acc.extractLsb' 0 4)).toNat then fdDataCode else fdCrcCode) = 6#4 from if_neg hn0] at h
      cases h
      refine .inr ⟨rfl, rfl, frameInOrder_next c rfl rfl (by omega) ((fieldPosition_6 rfl).2 ⟨⟨rfl, rfl, ?_, ?_⟩, ?_, ?_, ?_⟩) ⟨hx2, fun hp => ?_⟩⟩
      · show 31 ≤ (lastDataOf (dlcTable (x.extractLsb' 0 4))).toNat; omega
      · show (lastDataOf (dlcTable (x.extractLsb' 0 4))).toNat ≤ _; rw [hd]; exact Nat.le_refl _
      · show s.byteCnt.toNat = ((lastDataOf (dlcTable (x.extractLsb' 0 4))).toNat - 31) / 8; omega
      · show (lastDataOf (dlcTable (x.extractLsb' 0 4))).toNat + 1 ≤ (s.logIdx + 1#16).toNat; omega
      · show (s.logIdx + 1#16).toNat ≤ (lastDataOf (dlcTable (x.extractLsb' 0 4))).toNat + (crcLenOf s.fmt (dlcTable (x.extractLsb' 0 4))).toNat; omega
      · change 0 < (s.logIdx + 1#16).toNat - (lastDataOf (dlcTable (x.extractLsb' 0 4))).toNat - 1 at hp; omega
  · rw [if_neg h9] at h
    cases h
    refine .inr ⟨rfl, rfl, frameInOrder_next c rfl rfl (by omega) ((fieldPosition_4 rfl).2 ⟨f3, ?_, ?_⟩) ⟨hx2, fun hp => ?_⟩⟩
    · show 28 ≤ (s.logIdx + 1#16).toNat; omega
    · show (s.logIdx + 1#16).toNat ≤ 31; omega
    · show x.toNat < 2 ^ ((s.logIdx + 1#16).toNat - 28)
      rw [hsl, show s.logIdx.toNat + 1 - 28 = s.logIdx.toNat - 28 + 1 by omega]; exact hx1

theorem data_keepsFrame {L : Level} {s t : State} (c : LogicalBitFacts s) (hr : isStuffPos s.rawIdx = false) {x f : Word} (hl : Layout s) (h1 : 32 ≤ s.logIdx.toNat) (h2 : s.logIdx.toNat ≤ s.lastData.toNat)
   (h3 : s.lastData.toNat = 31 + 8 * s.nbytes.toNat) (h4 : s.byteCnt.toNat = (s.logIdx.toNat - 32) / 8)
   (hx1 : x.toNat < 2 ^ ((s.logIdx.toNat - 32) % 8 + 1)) (hx2 : x.toNat < 2 ^ 21)
   (h : exec .fdData (handlerState L s 5#4 x f) = .next t) : KeepsFrame s t := by
  have hsl := c.hsl
  obtain ⟨lb1, lb2, lb3⟩ := layout_bounds hl
  have he : eodTaken (handlerState L s 5#4 x f) = false := by
    show (isStuffPos (s.rawIdx + 1#16 - 1#16) && _) = false
    rw [BitVec.add_sub_cancel, hr]; rfl
  replace h : Host.Outcome.next (if eodTaken (handlerState L s 5#4 x f) then dataEod (handlerState L s 5#4 x f) else dataBit (handlerState L s 5#4 x f)) = .next t := h
  rw [if_neg (by rw [he]; simp), dataBit_eq, bitIndex_handlerState] at h
  have h7 := byteBit_eq s.logIdx 7 (by omega)
  have hlast : s.logIdx.toNat = s.lastData.toNat → s.logIdx.toNat % 8 = 7 := by omega
  by_cases hb7 : byteBit s.logIdx = 7
  · have hb7' := h7.1 hb7
    rw [if_pos hb7] at h
    have hbc : (s.byteCnt + 1#7).toNat = s.byteCnt.toNat + 1 := by rw [BitVec.toNat_add]; simp; omega
    by_cases hlst : s.logIdx.toNat = s.lastData.toNat
    · rw [show (if s.logIdx.toNat = (handlerState L s 5#4 x f).lastData.toNat then fdCrcCode else (handlerState L s 5#4 x f).fdState) = 6#4 from if_pos hlst] at h
      cases h
      refine .inr ⟨rfl, rfl, frameInOrder_next c rfl rfl (by omega) ((fieldPosition_6 rfl).2 ⟨hl, ?_, ?_, ?_⟩) ⟨hx2, fun hp => ?_⟩⟩
      · show (s.byteCnt + 1#7).toNat = (s.lastData.toNat - 31) / 8; omega
      · show s.lastData.toNat + 1 ≤ (s.logIdx + 1#16).toNat; omega
      · show (s.logIdx + 1#16).toNat ≤ s.lastData.toNat + s.crcLen.toNat; omega
      · change 0 < (s.logIdx + 1#16).toNat - s.lastData.toNat - 1 at hp; omega
    · rw [show (if s.logIdx.toNat = (handlerState L s 5#4 x f).lastData.toNat then fdCrcCode else (handlerState L s 5#4 x f).fdState) = 5#4 from if_neg hlst] at h
      cases h
      refine .inr ⟨rfl, rfl, frameInOrder_next c rfl rfl (by omega) ((fieldPosition_5 rfl).2 ⟨hl, ?_, ?_, h3, ?_⟩) ⟨hx2, fun hp => ?_⟩⟩
      · show 32 ≤ (s.logIdx + 1#16).toNat; omega
      · show (s.logIdx + 1#16).toNat ≤ s.lastData.toNat; omega
      · show (s.byteCnt + 1#7).toNat = ((s.logIdx + 1#16).toNat - 32) / 8; omega
      · change 0 < ((s.logIdx + 1#16).toNat - 32) % 8 at hp; omega
  · have hb7' : ¬ s.logIdx.toNat % 8 = 7 := fun e => hb7 (h7.2 e)
    rw [if_neg hb7] at h
    have hlst : ¬ s.logIdx.toNat = s.lastData.toNat := fun e => hb7' (hlast e)
    rw [show (if s.logIdx.toNat = (handlerState L s 5#4 x f).lastData.toNat then fdCrcCode else (handlerState L s 5#4 x f).fdState) = 5#4 from if_neg hlst] at h
    cases h
    refine .inr ⟨rfl, rfl, frameInOrder_next c rfl rfl (by omega) ((fieldPosition_5 rfl).2 ⟨hl, ?_, ?_, h3, ?_⟩) ⟨hx2, fun hp => ?_⟩⟩
    · show 32 ≤ (s.logIdx + 1#16).toNat; omega
    · show (s.logIdx + 1#16).toNat ≤ s.lastData.toNat; omega
    · show s.byteCnt.toNat = ((s.logIdx + 1#16).toNat - 32) / 8; omega
    · show x.toNat < 2 ^ (((s.logIdx + 1#16).toNat - 32) % 8)
      rw [show ((s.logIdx + 1#16).toNat - 32) % 8 = (s.logIdx.toNat - 32) % 8 + 1 by omega]; exact hx1

theorem crc_keepsFrame {L : Level} {s t : State} (c : LogicalBitFacts s) {x f : Word} (hl : Layout s) (hb : s.byteCnt.toNat = (s.lastData.toNat - 31) / 8) (h1 : s.lastData.toNat + 1 ≤ s.logIdx.toNat) (h2 : s.logIdx.toNat ≤ s.lastData.toNat + s.crcLen.toNat)
   (hx1 : x.toNat < 2 ^ (s.logIdx.toNat - s.lastData.toNat - 1 + 1)) (hx2 : x.toNat < 2 ^ 21)
   (h : exec .fdCrc (handlerState L s 6#4 x f) = .next t) : KeepsFrame s t := by
  have hsl := c.hsl
  have hl' := hl
  obtain ⟨lb1, lb2, lb3⟩ := layout_bounds hl
  obtain ⟨-, -, ld1, ld2⟩ := hl'
  replace h : Host.Outcome.next (if (bitIndex (handlerState L s 6#4 x f)).toNat = s.lastData.toNat + s.crcLen.toNat then crcDone (handlerState L s 6#4 x f) else (handlerState L s 6#4 x f)) = .next t := h
  rw [bitIndex_handlerState] at h
  by_cases h9 : s.logIdx.toNat = s.lastData.toNat + s.crcLen.toNat
  · rw [if_pos h9] at h
    cases h
    refine .inr ⟨rfl, rfl, frameInOrder_next c rfl rfl (by omega) ((fieldPosition_7 rfl).2 ⟨hl, hb, ?_⟩) ⟨hx2, fun hp => ?_⟩⟩
    · show (s.logIdx + 1#16).toNat = s.lastData.toNat + s.crcLen.toNat + 1; omega
    · change 0 < 0 at hp; omega
  · rw [if_neg h9] at h
    cases h
    refine .inr ⟨rfl, rfl, frameInOrder_next c rfl rfl (by omega) ((fieldPosition_6 rfl).2 ⟨hl, hb, ?_, ?_⟩) ⟨hx2, fun hp => ?_⟩⟩
    · show s.lastData.toNat + 1 ≤ (s.logIdx + 1#16).toNat; omega
    · show (s.logIdx + 1#16).toNat ≤ s.lastData.toNat + s.crcLen.toNat; omega
    · show x.toNat < 2 ^ ((s.logIdx + 1#16).toNat - s.lastData.toNat - 1)
      rw [show (s.logIdx + 1#16).toNat - s.lastData.toNat - 1 = s.logIdx.toNat - s.lastData.toNat - 1 + 1 by omega]; exact hx1

theorem singleBit_keepsFrame {L : Level} {s t : State} (c : LogicalBitFacts s) {x f : Word} (hl : Layout s) (hb : s.byteCnt.toNat = (s.lastData.toNat - 31) / 8)
   (hx2 : x.toNat < 2 ^ 21) {k : FdCode} {kind : FieldKind} {cnd : Bool} {code : WarningCode} {n : FdCode}
   (hn : n = 8#4 ∧ s.logIdx.toNat = s.lastData.toNat + s.crcLen.toNat + 1 ∨ n = 9#4 ∧ s.logIdx.toNat = s.lastData.toNat + s.crcLen.toNat + 2 ∨ n = 10#4 ∧ s.logIdx.toNat = s.lastData.toNat + s.crcLen.toNat + 3)
   (h : t = singleBit kind cnd code n (handlerState L s k x f)) : KeepsFrame s t := by
  have hsl := c.hsl
  have hl' := hl
  obtain ⟨lb1, lb2, lb3⟩ := layout_bounds hl
  obtain ⟨-, -, ld1, ld2⟩ := hl'
  rw [singleBit_eq] at h
  subst h
  rcases hn with ⟨rfl, hn⟩ | ⟨rfl, hn⟩ | ⟨rfl, hn⟩
  · refine .inr ⟨rfl, rfl, frameInOrder_next c rfl rfl (by omega) ((fieldPosition_8 rfl).2 ⟨hl, hb, ?_⟩) ⟨hx2, fun hp => ?_⟩⟩
    · show (s.logIdx + 1#16).toNat = s.lastData.toNat + s.crcLen.toNat + 2; omega
    · change 0 < 0 at hp; omega
  · refine .inr ⟨rfl, rfl, frameInOrder_next c rfl rfl (by omega) ((fieldPosition_9 rfl).2 ⟨hl, hb, ?_⟩) ⟨hx2, fun hp => ?_⟩⟩
    · show (s.logIdx + 1#16).toNat = s.lastData.toNat + s.crcLen.toNat + 3; omega
    · change 0 < 0 at hp; omega
  · refine .inr ⟨rfl, rfl, frameInOrder_next c rfl rfl (by omega) ((fieldPosition_10 rfl).2 ⟨hl, hb, ?_, ?_⟩) ⟨hx2, fun hp => ?_⟩⟩
    · show s.lastData.toNat + s.crcLen.toNat + 4 ≤ (s.logIdx + 1#16).toNat; omega
    · show (s.logIdx + 1#16).toNat ≤ s.lastData.toNat + s.crcLen.toNat + 10; omega
    · change 0 < (s.logIdx + 1#16).toNat - (s.lastData.toNat + s.crcLen.toNat) - 4 at hp; omega

theorem eof_keepsFrame {L : Level} {s t : State} (c : LogicalBitFacts s) {x f : Word} (hl : Layout s) (hb : s.byteCnt.toNat = (s.lastData.toNat - 31) / 8) (h1 : s.lastData.toNat + s.crcLen.toNat + 4 ≤ s.logIdx.toNat) (h2 : s.logIdx.toNat ≤ s.lastData.toNat + s.crcLen.toNat + 10)
   (hx1 : x.toNat < 2 ^ (s.logIdx.toNat - (s.lastData.toNat + s.crcLen.toNat) - 4 + 1)) (hx2 : x.toNat < 2 ^ 21)
   (h : exec .fdEof (handlerState L s 10#4 x f) = .next t) : KeepsFrame s t := by
  have hsl := c.hsl
  have hl' := hl
  obtain ⟨lb1, lb2, lb3⟩ := layout_bounds hl
  obtain ⟨-, -, ld1, ld2⟩ := hl'
  replace h : Host.Outcome.next (if (bitIndex (handlerState L s 10#4 x f)).toNat = s.lastData.toNat + s.crcLen.toNat + 10 then eofDone (eofBit (handlerState L s 10#4 x f)) else eofBit (handlerState L s 10#4 x f)) = .next t := h
  rw [bitIndex_handlerState] at h
  by_cases h9 : s.logIdx.toNat = s.lastData.toNat + s.crcLen.toNat + 10
  · rw [if_pos h9] at h
    cases h
    exact .inl ⟨rfl, by omega⟩
  · rw [if_neg h9, eofBit_eq] at h
    cases h
    refine .inr ⟨rfl, rfl, frameInOrder_next c rfl rfl (by omega) ((fieldPosition_10 rfl).2 ⟨hl, hb, ?_, ?_⟩) ⟨hx2, fun hp => ?_⟩⟩
    · show s.lastData.toNat + s.crcLen.toNat + 4 ≤ (s.logIdx + 1#16).toNat; omega
    · show (s.logIdx + 1#16).toNat ≤ s.lastData.toNat + s.crcLen.toNat + 10; omega
    · show x.toNat < 2 ^ ((s.logIdx + 1#16).toNat - (s.lastData.toNat + s.crcLen.toNat) - 4)
      rw [show (s.logIdx + 1#16).toNat - (s.lastData.toNat + s.crcLen.toNat) - 4 = s.logIdx.toNat - (s.lastData.toNat + s.crcLen.toNat) - 4 + 1 by omega]; exact hx1

/-- A logical bit keeps the frame in order. -/
theorem takeBit_logical_keepsFrame {L : Level} {s t : State} (hF : FrameInOrder s) (hr : isStuffPos s.rawIdx = false) (h : takeBit L s = .next t) : KeepsFrame s t := by
  have c := logicalBitFacts hF hr
  obtain ⟨hraw, hlog, hfp, hacc, hacc2⟩ := hF
  have hcode := hfp.1
  by_cases c0 : s.fdState = 0#4
  · rw [fieldPosition_0 c0] at hfp
    obtain ⟨f1, f2, f3, f4⟩ := hfp
    have hl0 : s.logIdx.toNat = 0 := by rw [f4]; rfl
    obtain ⟨x, f, hx, hx1, hx2⟩ := takeBit_handlerState L s 1#4 0 hr (if_pos c0) (by rw [f4]; rfl) (by omega) (by omega)
    rw [hx] at h
    exact sof_keepsFrame c f1 f2 f3 (by omega) (by rw [hl0]; exact hx1) hx2 h
  by_cases c1 : s.fdState = 1#4
  · rw [fieldPosition_1 c1] at hfp
    obtain ⟨f1, f2, f3, f4, f5⟩ := hfp
    have fb : fieldBits s = s.logIdx.toNat := by unfold fieldBits; rw [c1]; rfl
    rw [fb] at hacc2
    obtain ⟨x, f, hx, hx1, hx2⟩ := takeBit_handlerState L s 1#4 s.logIdx.toNat hr (by rw [if_neg c0, c1]) rfl hacc2 (by omega)
    rw [hx] at h
    exact sof_keepsFrame c f1 f2 f3 (by omega) hx1 hx2 h
  by_cases c2 : s.fdState = 2#4
  · rw [fieldPosition_2 c2] at hfp
    obtain ⟨f1, f2, f3, f4, f5⟩ := hfp
    have fb : fieldBits s = s.logIdx.toNat - 10 := by unfold fieldBits; rw [c2]; rfl
    rw [fb] at hacc2
    obtain ⟨x, f, hx, hx1, hx2⟩ := takeBit_handlerState L s 2#4 (s.logIdx.toNat - 10) hr (by rw [if_neg c0, c2]) (by show (s.logIdx.toNat == 10) = _; rw [beq_eq_decide]; congr 1; apply propext; omega) hacc2 (by omega)
    rw [hx] at h
    exact id_keepsFrame c f1 f2 f3 f4 f5 hx1 hx2 h
  by_cases c3 : s.fdState = 3#4
  · rw [fieldPosition_3 c3] at hfp
    obtain ⟨f2, f3, f4, f5⟩ := hfp
    have fb : fieldBits s = s.logIdx.toNat - 24 := by unfold fieldBits; rw [c3]; rfl
    rw [fb] at hacc2
    obtain ⟨x, f, hx, hx1, hx2⟩ := takeBit_handlerState L s 3#4 (s.logIdx.toNat - 24) hr (by rw [if_neg c0, c3]) (by show (s.logIdx.toNat == 24) = _; rw [beq_eq_decide]; congr 1; apply propext; omega) hacc2 (by omega)
    rw [hx] at h
    exact ctrl_keepsFrame c f2 f3 f4 f5 hx1 hx2 h
  by_cases c4 : s.fdState = 4#4
  · rw [fieldPosition_4 c4] at hfp
    obtain ⟨f3, f4, f5⟩ := hfp
    have fb : fieldBits s = s.logIdx.toNat - 28 := by unfold fieldBits; rw [c4]; rfl
    rw [fb] at hacc2
    obtain ⟨x, f, hx, hx1, hx2⟩ := takeBit_handlerState L s 4#4 (s.logIdx.toNat - 28) hr (by rw [if_neg c0, c4]) (by show (s.logIdx.toNat == 28) = _; rw [beq_eq_decide]; congr 1; apply propext; omega) hacc2 (by omega)
    rw [hx] at h
    exact len_keepsFrame c f3 f4 f5 hx1 hx2 h
  by_cases c5 : s.fdState = 5#4
  · rw [fieldPosition_5 c5] at hfp
    obtain ⟨f1, f2, f3, f4, f5⟩ := hfp
    have fb : fieldBits s = (s.logIdx.toNat - 32) % 8 := by unfold fieldBits; rw [c5]; rfl
    rw [fb] at hacc2
    have h0 := byteBit_eq s.logIdx 0 (by omega)
    simp only [Nat.cast_zero] at h0
    obtain ⟨x, f, hx, hx1, hx2⟩ := takeBit_handlerState L s 5#4 ((s.logIdx.toNat - 32) % 8) hr (by rw [if_neg c0, c5]) (by show (byteBit s.logIdx == 0) = _; rw [beq_eq_decide]; congr 1; apply propext; rw [h0]; omega) hacc2 (by omega)
    rw [hx] at h
    exact data_keepsFrame c hr f1 f2 f3 f4 f5 hx1 hx2 h
  by_cases c6 : s.fdState = 6#4
  · rw [fieldPosition_6 c6] at hfp
    obtain ⟨f1, f2, f3, f4⟩ := hfp
    obtain ⟨lb1, lb2, lb3⟩ := layout_bounds f1
    change s.logIdx.toNat ≤ s.lastData.toNat + s.crcLen.toNat at f4
    have fb : fieldBits s = s.logIdx.toNat - s.lastData.toNat - 1 := by unfold fieldBits; rw [c6]; rfl
    rw [fb] at hacc2
    obtain ⟨x, f, hx, hx1, hx2⟩ := takeBit_handlerState L s 6#4 (s.logIdx.toNat - s.lastData.toNat - 1) hr (by rw [if_neg c0, c6]) (by show (s.logIdx.toNat == s.lastData.toNat + 1) = _; rw [beq_eq_decide]; congr 1; apply propext; omega) hacc2 (by omega)
    rw [hx] at h
    exact crc_keepsFrame c f1 f2 f3 f4 hx1 hx2 h
  by_cases c7 : s.fdState = 7#4
  · rw [fieldPosition_7 c7] at hfp
    obtain ⟨f1, f2, f3⟩ := hfp
    change s.logIdx.toNat = s.lastData.toNat + s.crcLen.toNat + 1 at f3
    obtain ⟨x, f, hx, hx1, hx2⟩ := takeBit_handlerState L s 7#4 0 hr (by rw [if_neg c0, c7]) (by show (s.logIdx.toNat == s.lastData.toNat + s.crcLen.toNat + 1) = _; rw [f3]; simp) (by omega) (by omega)
    rw [hx] at h
    replace h : Host.Outcome.next (singleBit _ _ _ 8#4 (handlerState L s 7#4 x f)) = .next t := h
    exact singleBit_keepsFrame c f1 f2 hx2 (.inl ⟨rfl, f3⟩) (by cases h; rfl)
  by_cases c8 : s.fdState = 8#4
  · rw [fieldPosition_8 c8] at hfp
    obtain ⟨f1, f2, f3⟩ := hfp
    change s.logIdx.toNat = s.lastData.toNat + s.crcLen.toNat + 2 at f3
    obtain ⟨x, f, hx, hx1, hx2⟩ := takeBit_handlerState L s 8#4 0 hr (by rw [if_neg c0, c8]) (by show (s.logIdx.toNat == s.lastData.toNat + s.crcLen.toNat + 2) = _; rw [f3]; simp) (by omega) (by omega)
    rw [hx] at h
    replace h : Host.Outcome.next (singleBit _ _ _ 9#4 (handlerState L s 8#4 x f)) = .next t := h
    exact singleBit_keepsFrame c f1 f2 hx2 (.inr (.inl ⟨rfl, f3⟩)) (by cases h; rfl)
  by_cases c9 : s.fdState = 9#4
  · rw [fieldPosition_9 c9] at hfp
    obtain ⟨f1, f2, f3⟩ := hfp
    change s.logIdx.toNat = s.lastData.toNat + s.crcLen.toNat + 3 at f3
    obtain ⟨x, f, hx, hx1, hx2⟩ := takeBit_handlerState L s 9#4 0 hr (by rw [if_neg c0, c9]) (by show (s.logIdx.toNat == s.lastData.toNat + s.crcLen.toNat + 3) = _; rw [f3]; simp) (by omega) (by omega)
    rw [hx] at h
    replace h : Host.Outcome.next (singleBit _ _ _ 10#4 (handlerState L s 9#4 x f)) = .next t := h
    exact singleBit_keepsFrame c f1 f2 hx2 (.inr (.inr ⟨rfl, f3⟩)) (by cases h; rfl)
  have c10 : s.fdState = 10#4 := by
    simp only [← BitVec.toNat_inj, BitVec.toNat_ofNat] at c0 c1 c2 c3 c4 c5 c6 c7 c8 c9 ⊢
    omega
  · rw [fieldPosition_10 c10] at hfp
    obtain ⟨f1, f2, f3, f4⟩ := hfp
    change s.lastData.toNat + s.crcLen.toNat + 4 ≤ s.logIdx.toNat at f3
    change s.logIdx.toNat ≤ s.lastData.toNat + s.crcLen.toNat + 10 at f4
    have fb : fieldBits s = s.logIdx.toNat - (s.lastData.toNat + s.crcLen.toNat) - 4 := by unfold fieldBits; rw [c10]; rfl
    rw [fb] at hacc2
    obtain ⟨x, f, hx, hx1, hx2⟩ := takeBit_handlerState L s 10#4 (s.logIdx.toNat - (s.lastData.toNat + s.crcLen.toNat) - 4) hr (by rw [if_neg c0, c10]) (by show (s.logIdx.toNat == s.lastData.toNat + s.crcLen.toNat + 4) = _; rw [beq_eq_decide]; congr 1; apply propext; omega) hacc2 (by omega)
    rw [hx] at h
    exact eof_keepsFrame c f1 f2 f3 f4 hx1 hx2 h

/-- Every raw bit keeps the frame in order (R190, R37). -/
theorem takeBit_keepsFrame {L : Level} {s t : State} (hF : FrameInOrder s) (h : takeBit L s = .next t) : KeepsFrame s t := by
  cases hr : isStuffPos s.rawIdx
  · exact takeBit_logical_keepsFrame hF hr h
  · obtain ⟨hraw, hlog, hfp, hacc⟩ := hF
    have hsr := idx_succ_toNat s.rawIdx (by omega)
    have hls := logOfRaw_stuff hr
    have hr' := (isStuffPos_iff s.rawIdx).1 hr
    cases hw : isEodWindow (shiftWindow s.win L)
    · rw [takeBit_stuff hr hw] at h; cases h
      exact .inr ⟨rfl, rfl, by show (s.rawIdx + 1#16).toNat ≤ 715; omega, by show s.logIdx.toNat = logOfRaw (s.rawIdx + 1#16).toNat; rw [hsr, hls, hlog], hfp, hacc⟩
    · by_cases hd : s.fdState = fdDataCode
      · rw [takeBit_eod_data hr hw hd] at h; cases h
        rw [fieldPosition_5 hd] at hfp
        obtain ⟨f1, f2, f3, f4, f5⟩ := hfp
        obtain ⟨lb1, lb2, lb3⟩ := layout_bounds f1
        have hm : (s.logIdx - 1#16).toNat = s.logIdx.toNat - 1 := by rw [BitVec.toNat_sub]; simp; omega
        refine .inr ⟨rfl, rfl, by show (s.rawIdx + 1#16).toNat ≤ 715; omega, by show s.logIdx.toNat = logOfRaw (s.rawIdx + 1#16).toNat; rw [hsr, hls, hlog], (fieldPosition_6 rfl).2 ⟨⟨f1.1, f1.2.1, ?_, ?_⟩, ?_, ?_, ?_⟩, by show (0#32).toNat < 2 ^ 21; decide, fun hp => ?_⟩
        · show 31 ≤ (s.logIdx - 1#16).toNat; omega
        · show (s.logIdx - 1#16).toNat ≤ 31 + 8 * s.nbytes.toNat; omega
        · show s.byteCnt.toNat = ((s.logIdx - 1#16).toNat - 31) / 8; omega
        · show (s.logIdx - 1#16).toNat + 1 ≤ s.logIdx.toNat; omega
        · show s.logIdx.toNat ≤ (s.logIdx - 1#16).toNat + s.crcLen.toNat; omega
        · change 0 < s.logIdx.toNat - (s.logIdx - 1#16).toNat - 1 at hp; omega
      · rw [takeBit_eod hr hw hd] at h; cases h
        exact .inr ⟨rfl, rfl, by show (s.rawIdx + 1#16).toNat ≤ 715; omega, by show s.logIdx.toNat = logOfRaw (s.rawIdx + 1#16).toNat; rw [hsr, hls, hlog], hfp, hacc⟩

/-- The shift of R171 as R171 writes it. -/
theorem shiftAcc_eq (a : Word) (L : Level) : shiftAcc a L = (a <<< 1) ||| L.setWidth 32 := by
  apply BitVec.eq_of_toNat_eq
  rw [shiftAcc_toNat, BitVec.toNat_or, load_toNat, BitVec.toNat_shiftLeft]
  have := L.isLt
  have e : a.toNat <<< 1 % 2 ^ 32 = 2 ^ 1 * (a.toNat % 2 ^ 31) := by rw [Nat.shiftLeft_eq]; omega
  rw [e, ← Nat.two_pow_add_eq_or_of_lt (by simpa using this)]
  omega

/-- A logical bit that is not the first of its field runs its handler on the shifted accumulator. -/
theorem takeBit_handlerState_shift (L : Level) (s : State) (k : FdCode) (hr : isStuffPos s.rawIdx = false)
    (hb : (if s.fdState = 0#4 then 1#4 else s.fdState) = k)
    (hs : isFieldStart k s.logIdx s.lastData s.crcLen = false) :
    takeBit L s = exec (decodeHandler k) (handlerState L s k ((s.acc <<< 1) ||| L.setWidth 32) s.fldStart) := by
  have hb' : (beforeHandler L s).fdState = k := hb
  have hx : accumulate (beforeHandler L s) = {beforeHandler L s with acc := shiftAcc s.acc (bitLevel (beforeHandler L s))} := by
    unfold accumulate
    rw [if_neg (by rw [hb', bitIndex_beforeHandler]; rw [show (beforeHandler L s).lastData = s.lastData from rfl, show (beforeHandler L s).crcLen = s.crcLen from rfl, hs]; simp)]; rfl
  have hl : bitLevel (beforeHandler L s) = L := newest_shiftWindow s.win L
  rw [takeBit_logical hr, hx, hb', hl, shiftAcc_eq]
  congr 1
  subst hb
  rfl

/-- A logical bit runs its handler on some accumulator. -/
theorem takeBit_handlerState_any (L : Level) (s : State) (k : FdCode) (hr : isStuffPos s.rawIdx = false)
    (hb : (if s.fdState = 0#4 then 1#4 else s.fdState) = k) :
    ∃ x f, takeBit L s = exec (decodeHandler k) (handlerState L s k x f) := by
  have hb' : (beforeHandler L s).fdState = k := hb
  obtain ⟨x, f, hx⟩ := accumulate_eq (beforeHandler L s)
  refine ⟨x, f, ?_⟩
  rw [takeBit_logical hr, hx, hb']
  congr 1

theorem bitLevel_handlerState (L : Level) (s : State) (k x f) : bitLevel (handlerState L s k x f) = L := newest_shiftWindow s.win L

end Sys2Proof.Machine
end

