-- ==== Sys2Proof/Laws/PerInstr.lean ====
section
/-! SUPPORT. Per row of spec/opcode_table.json: the word the encoder gives a well-formed row agrees with the table's match under the table's mask. -/

namespace Sys2Proof.Laws

open Sys2Proof

/-- A row's match and mask, as spec/opcode_table.json gives them. -/
structure TableMask.Row where
  value : RowWord
  mask : RowWord
  deriving DecidableEq, Repr

/-- The table. -/
def TableMask.row : Instr → TableMask.Row
  | .smpD => ⟨.cycle 0x80000000000#44, .cycle 0xC0000000000#44⟩
  | .smpR => ⟨.cycle 0xC0000000000#44, .cycle 0xC0000000000#44⟩
  | .nos => ⟨.cycle 0x00000000000#44, .cycle 0x80000000000#44⟩
  | .nop => ⟨.cycle 0x00000000000#44, .cycle 0x30000000000#44⟩
  | .rdId => ⟨.cycle 0x10000000000#44, .cycle 0x1FF00000000#44⟩
  | .wrId _ => ⟨.cycle 0x20000000000#44, .cycle 0x2FF00000000#44⟩
  | .rdCtrl => ⟨.cycle 0x10400000000#44, .cycle 0x1FF00000000#44⟩
  | .wrCtrl _ => ⟨.cycle 0x20400000000#44, .cycle 0x2FF00000000#44⟩
  | .rdStatus => ⟨.cycle 0x10800000000#44, .cycle 0x1FF00000000#44⟩
  | .wrStatus _ => ⟨.cycle 0x20800000000#44, .cycle 0x2FF00000000#44⟩
  | .rdBitWidth => ⟨.cycle 0x10C00000000#44, .cycle 0x1FF00000000#44⟩
  | .wrBitWidth _ => ⟨.cycle 0x20C00000000#44, .cycle 0x2FF00000000#44⟩
  | .rdSpOffset => ⟨.cycle 0x11000000000#44, .cycle 0x1FF00000000#44⟩
  | .wrSpOffset _ => ⟨.cycle 0x21000000000#44, .cycle 0x2FF00000000#44⟩
  | .rdSampleIdx => ⟨.cycle 0x11400000000#44, .cycle 0x1FF00000000#44⟩
  | .wrSampleIdx _ => ⟨.cycle 0x21400000000#44, .cycle 0x2FF00000000#44⟩
  | .rdBitIdx => ⟨.cycle 0x11800000000#44, .cycle 0x1FF00000000#44⟩
  | .wrBitIdx _ => ⟨.cycle 0x21800000000#44, .cycle 0x2FF00000000#44⟩
  | .rdAnchorSample => ⟨.cycle 0x11C00000000#44, .cycle 0x1FF00000000#44⟩
  | .wrAnchorSample _ => ⟨.cycle 0x21C00000000#44, .cycle 0x2FF00000000#44⟩
  | .rdAnchorBit => ⟨.cycle 0x12000000000#44, .cycle 0x1FF00000000#44⟩
  | .wrAnchorBit _ => ⟨.cycle 0x22000000000#44, .cycle 0x2FF00000000#44⟩
  | .rdNextSp => ⟨.cycle 0x12400000000#44, .cycle 0x1FF00000000#44⟩
  | .wrNextSp _ => ⟨.cycle 0x22400000000#44, .cycle 0x2FF00000000#44⟩
  | .rdFrame => ⟨.cycle 0x12800000000#44, .cycle 0x1FF00000000#44⟩
  | .wrFrame _ => ⟨.cycle 0x22800000000#44, .cycle 0x2FF00000000#44⟩
  | .rdOffsets => ⟨.cycle 0x12C00000000#44, .cycle 0x1FF00000000#44⟩
  | .wrOffsets _ => ⟨.cycle 0x22C00000000#44, .cycle 0x2FF00000000#44⟩
  | .rdAcc => ⟨.cycle 0x13000000000#44, .cycle 0x1FF00000000#44⟩
  | .wrAcc _ => ⟨.cycle 0x23000000000#44, .cycle 0x2FF00000000#44⟩
  | .rdFieldStart => ⟨.cycle 0x13400000000#44, .cycle 0x1FF00000000#44⟩
  | .wrFieldStart _ => ⟨.cycle 0x23400000000#44, .cycle 0x2FF00000000#44⟩
  | .rdUnmapped38 _ => ⟨.cycle 0x13800000000#44, .cycle 0x1FB00000000#44⟩
  | .wrUnmapped38 _ _ => ⟨.cycle 0x23800000000#44, .cycle 0x2FB00000000#44⟩
  | .rdUnmapped40 _ => ⟨.cycle 0x14000000000#44, .cycle 0x1C300000000#44⟩
  | .wrUnmapped40 _ _ => ⟨.cycle 0x24000000000#44, .cycle 0x2C300000000#44⟩
  | .rdUnmapped80 _ => ⟨.cycle 0x18000000000#44, .cycle 0x18300000000#44⟩
  | .wrUnmapped80 _ _ => ⟨.cycle 0x28000000000#44, .cycle 0x28300000000#44⟩
  | .rdMisaligned01 _ => ⟨.cycle 0x10100000000#44, .cycle 0x10300000000#44⟩
  | .wrMisaligned01 _ _ => ⟨.cycle 0x20100000000#44, .cycle 0x20300000000#44⟩
  | .rdMisaligned10 _ => ⟨.cycle 0x10200000000#44, .cycle 0x10300000000#44⟩
  | .wrMisaligned10 _ _ => ⟨.cycle 0x20200000000#44, .cycle 0x20300000000#44⟩
  | .rdMisaligned11 _ => ⟨.cycle 0x10300000000#44, .cycle 0x10300000000#44⟩
  | .wrMisaligned11 _ _ => ⟨.cycle 0x20300000000#44, .cycle 0x20300000000#44⟩
  | .fdAwaitSof => ⟨.handler 0x0#4, .handler 0xF#4⟩
  | .fdSof => ⟨.handler 0x1#4, .handler 0xF#4⟩
  | .fdId => ⟨.handler 0x2#4, .handler 0xF#4⟩
  | .fdCtrl => ⟨.handler 0x3#4, .handler 0xF#4⟩
  | .fdLen => ⟨.handler 0x4#4, .handler 0xF#4⟩
  | .fdData => ⟨.handler 0x5#4, .handler 0xF#4⟩
  | .fdCrc => ⟨.handler 0x6#4, .handler 0xF#4⟩
  | .fdCrcDel => ⟨.handler 0x7#4, .handler 0xF#4⟩
  | .fdAck => ⟨.handler 0x8#4, .handler 0xF#4⟩
  | .fdAckDel => ⟨.handler 0x9#4, .handler 0xF#4⟩
  | .fdEof => ⟨.handler 0xA#4, .handler 0xF#4⟩
  | .fdReserved11 => ⟨.handler 0xB#4, .handler 0xF#4⟩
  | .fdReserved12 _ => ⟨.handler 0xC#4, .handler 0xC#4⟩

/-- A word agrees with a row: its bits under the mask are the row's match. -/
def TableMask.Agrees (w : RowWord) : TableMask.Row → Prop
  | ⟨.cycle m, .cycle k⟩ => ∃ x, w = .cycle x ∧ x &&& k = m
  | ⟨.handler m, .handler k⟩ => ∃ x, w = .handler x ∧ x &&& k = m
  | _ => False

/-- The word of a well-formed row agrees with its row of the table. -/
def TableMask.Statement (i : Instr) : Prop := i.wf = true → TableMask.Agrees (encode i) (TableMask.row i)

/-! ### Words under a mask -/

/-- Two made words and-ed are made of their fields and-ed. -/
theorem make_and (a a' : BitVec 1) (b b' : Level) (c c' d d' : BitVec 1) (e e' : RegAddr) (f f' : Word) :
    CycleWord.make a b c d e f &&& CycleWord.make a' b' c' d' e' f' =
      CycleWord.make (a &&& a') (b &&& b') (c &&& c') (d &&& d') (e &&& e') (f &&& f') := by
  apply BitVec.eq_of_getLsbD_eq
  intro i hi
  simp only [CycleWord.make, BitVec.getLsbD_and, BitVec.getLsbD_cast, BitVec.getLsbD_append]
  split_ifs <;> rfl

/-- A read word agrees with a row that fixes `re` and some address bits. -/
theorem read_matches {a k e : RegAddr} {m mask : CycleWord}
    (hm : m = CycleWord.make 0#1 0#1 0#1 1#1 e 0#32) (hk : mask = CycleWord.make 0#1 0#1 0#1 1#1 k 0#32)
    (h : a &&& k = e) : TableMask.Agrees (readWord a) ⟨.cycle m, .cycle mask⟩ :=
  ⟨_, rfl, by rw [hm, hk, make_and, h]; simp⟩

/-- A write word agrees with a row that fixes `we` and some address bits. -/
theorem write_matches {a k e : RegAddr} {v : Word} {m mask : CycleWord}
    (hm : m = CycleWord.make 0#1 0#1 1#1 0#1 e 0#32) (hk : mask = CycleWord.make 0#1 0#1 1#1 0#1 k 0#32)
    (h : a &&& k = e) : TableMask.Agrees (writeWord a v) ⟨.cycle m, .cycle mask⟩ :=
  ⟨_, rfl, by rw [hm, hk, make_and, h]; simp⟩

theorem unmapped38_bits (a : RegAddr) (h : isUnmapped38 a = true) : a &&& 0xFB#8 = 0x38#8 := by
  revert a; decide

theorem unmapped40_bits (a : RegAddr) (h : isUnmapped40 a = true) : a &&& 0xC3#8 = 0x40#8 := by
  revert a; decide

theorem unmapped80_bits (a : RegAddr) (h : isUnmapped80 a = true) : a &&& 0x83#8 = 0x80#8 := by
  revert a; decide

theorem misaligned01_bits (a : RegAddr) (h : (addrLow a == 1#2) = true) : a &&& 0x03#8 = 0x01#8 := by
  revert a; decide

theorem misaligned10_bits (a : RegAddr) (h : (addrLow a == 2#2) = true) : a &&& 0x03#8 = 0x02#8 := by
  revert a; decide

theorem misaligned11_bits (a : RegAddr) (h : (addrLow a == 3#2) = true) : a &&& 0x03#8 = 0x03#8 := by
  revert a; decide

/-! ### The rows -/

theorem TableMask.smpD : TableMask.Statement (.smpD) := fun _ => ⟨_, rfl, by decide⟩

theorem TableMask.smpR : TableMask.Statement (.smpR) := fun _ => ⟨_, rfl, by decide⟩

theorem TableMask.nos : TableMask.Statement (.nos) := fun _ => ⟨_, rfl, by decide⟩

theorem TableMask.nop : TableMask.Statement (.nop) := fun _ => ⟨_, rfl, by decide⟩

theorem TableMask.rdId : TableMask.Statement (.rdId) := fun _ => ⟨_, rfl, by decide⟩

theorem TableMask.wrId (wdata : Word) : TableMask.Statement (.wrId wdata) := fun _ =>
  write_matches (e := 0x00#8) (k := 0xFF#8) (by decide) (by decide) (by decide)

theorem TableMask.rdCtrl : TableMask.Statement (.rdCtrl) := fun _ => ⟨_, rfl, by decide⟩

theorem TableMask.wrCtrl (wdata : Word) : TableMask.Statement (.wrCtrl wdata) := fun _ =>
  write_matches (e := 0x04#8) (k := 0xFF#8) (by decide) (by decide) (by decide)

theorem TableMask.rdStatus : TableMask.Statement (.rdStatus) := fun _ => ⟨_, rfl, by decide⟩

theorem TableMask.wrStatus (wdata : Word) : TableMask.Statement (.wrStatus wdata) := fun _ =>
  write_matches (e := 0x08#8) (k := 0xFF#8) (by decide) (by decide) (by decide)

theorem TableMask.rdBitWidth : TableMask.Statement (.rdBitWidth) := fun _ => ⟨_, rfl, by decide⟩

theorem TableMask.wrBitWidth (wdata : Word) : TableMask.Statement (.wrBitWidth wdata) := fun _ =>
  write_matches (e := 0x0C#8) (k := 0xFF#8) (by decide) (by decide) (by decide)

theorem TableMask.rdSpOffset : TableMask.Statement (.rdSpOffset) := fun _ => ⟨_, rfl, by decide⟩

theorem TableMask.wrSpOffset (wdata : Word) : TableMask.Statement (.wrSpOffset wdata) := fun _ =>
  write_matches (e := 0x10#8) (k := 0xFF#8) (by decide) (by decide) (by decide)

theorem TableMask.rdSampleIdx : TableMask.Statement (.rdSampleIdx) := fun _ => ⟨_, rfl, by decide⟩

theorem TableMask.wrSampleIdx (wdata : Word) : TableMask.Statement (.wrSampleIdx wdata) := fun _ =>
  write_matches (e := 0x14#8) (k := 0xFF#8) (by decide) (by decide) (by decide)

theorem TableMask.rdBitIdx : TableMask.Statement (.rdBitIdx) := fun _ => ⟨_, rfl, by decide⟩

theorem TableMask.wrBitIdx (wdata : Word) : TableMask.Statement (.wrBitIdx wdata) := fun _ =>
  write_matches (e := 0x18#8) (k := 0xFF#8) (by decide) (by decide) (by decide)

theorem TableMask.rdAnchorSample : TableMask.Statement (.rdAnchorSample) := fun _ => ⟨_, rfl, by decide⟩

theorem TableMask.wrAnchorSample (wdata : Word) : TableMask.Statement (.wrAnchorSample wdata) := fun _ =>
  write_matches (e := 0x1C#8) (k := 0xFF#8) (by decide) (by decide) (by decide)

theorem TableMask.rdAnchorBit : TableMask.Statement (.rdAnchorBit) := fun _ => ⟨_, rfl, by decide⟩

theorem TableMask.wrAnchorBit (wdata : Word) : TableMask.Statement (.wrAnchorBit wdata) := fun _ =>
  write_matches (e := 0x20#8) (k := 0xFF#8) (by decide) (by decide) (by decide)

theorem TableMask.rdNextSp : TableMask.Statement (.rdNextSp) := fun _ => ⟨_, rfl, by decide⟩

theorem TableMask.wrNextSp (wdata : Word) : TableMask.Statement (.wrNextSp wdata) := fun _ =>
  write_matches (e := 0x24#8) (k := 0xFF#8) (by decide) (by decide) (by decide)

theorem TableMask.rdFrame : TableMask.Statement (.rdFrame) := fun _ => ⟨_, rfl, by decide⟩

theorem TableMask.wrFrame (wdata : Word) : TableMask.Statement (.wrFrame wdata) := fun _ =>
  write_matches (e := 0x28#8) (k := 0xFF#8) (by decide) (by decide) (by decide)

theorem TableMask.rdOffsets : TableMask.Statement (.rdOffsets) := fun _ => ⟨_, rfl, by decide⟩

theorem TableMask.wrOffsets (wdata : Word) : TableMask.Statement (.wrOffsets wdata) := fun _ =>
  write_matches (e := 0x2C#8) (k := 0xFF#8) (by decide) (by decide) (by decide)

theorem TableMask.rdAcc : TableMask.Statement (.rdAcc) := fun _ => ⟨_, rfl, by decide⟩

theorem TableMask.wrAcc (wdata : Word) : TableMask.Statement (.wrAcc wdata) := fun _ =>
  write_matches (e := 0x30#8) (k := 0xFF#8) (by decide) (by decide) (by decide)

theorem TableMask.rdFieldStart : TableMask.Statement (.rdFieldStart) := fun _ => ⟨_, rfl, by decide⟩

theorem TableMask.wrFieldStart (wdata : Word) : TableMask.Statement (.wrFieldStart wdata) := fun _ =>
  write_matches (e := 0x34#8) (k := 0xFF#8) (by decide) (by decide) (by decide)

theorem TableMask.rdUnmapped38 (addr : RegAddr) : TableMask.Statement (.rdUnmapped38 addr) := fun h =>
  read_matches (by decide) (by decide) (unmapped38_bits addr h)

theorem TableMask.wrUnmapped38 (addr : RegAddr) (wdata : Word) : TableMask.Statement (.wrUnmapped38 addr wdata) := fun h =>
  write_matches (by decide) (by decide) (unmapped38_bits addr h)

theorem TableMask.rdUnmapped40 (addr : RegAddr) : TableMask.Statement (.rdUnmapped40 addr) := fun h =>
  read_matches (by decide) (by decide) (unmapped40_bits addr h)

theorem TableMask.wrUnmapped40 (addr : RegAddr) (wdata : Word) : TableMask.Statement (.wrUnmapped40 addr wdata) := fun h =>
  write_matches (by decide) (by decide) (unmapped40_bits addr h)

theorem TableMask.rdUnmapped80 (addr : RegAddr) : TableMask.Statement (.rdUnmapped80 addr) := fun h =>
  read_matches (by decide) (by decide) (unmapped80_bits addr h)

theorem TableMask.wrUnmapped80 (addr : RegAddr) (wdata : Word) : TableMask.Statement (.wrUnmapped80 addr wdata) := fun h =>
  write_matches (by decide) (by decide) (unmapped80_bits addr h)

theorem TableMask.rdMisaligned01 (addr : RegAddr) : TableMask.Statement (.rdMisaligned01 addr) := fun h =>
  read_matches (by decide) (by decide) (misaligned01_bits addr h)

theorem TableMask.wrMisaligned01 (addr : RegAddr) (wdata : Word) : TableMask.Statement (.wrMisaligned01 addr wdata) := fun h =>
  write_matches (by decide) (by decide) (misaligned01_bits addr h)

theorem TableMask.rdMisaligned10 (addr : RegAddr) : TableMask.Statement (.rdMisaligned10 addr) := fun h =>
  read_matches (by decide) (by decide) (misaligned10_bits addr h)

theorem TableMask.wrMisaligned10 (addr : RegAddr) (wdata : Word) : TableMask.Statement (.wrMisaligned10 addr wdata) := fun h =>
  write_matches (by decide) (by decide) (misaligned10_bits addr h)

theorem TableMask.rdMisaligned11 (addr : RegAddr) : TableMask.Statement (.rdMisaligned11 addr) := fun h =>
  read_matches (by decide) (by decide) (misaligned11_bits addr h)

theorem TableMask.wrMisaligned11 (addr : RegAddr) (wdata : Word) : TableMask.Statement (.wrMisaligned11 addr wdata) := fun h =>
  write_matches (by decide) (by decide) (misaligned11_bits addr h)

theorem TableMask.fdAwaitSof : TableMask.Statement (.fdAwaitSof) := fun _ => ⟨_, rfl, by decide⟩

theorem TableMask.fdSof : TableMask.Statement (.fdSof) := fun _ => ⟨_, rfl, by decide⟩

theorem TableMask.fdId : TableMask.Statement (.fdId) := fun _ => ⟨_, rfl, by decide⟩

theorem TableMask.fdCtrl : TableMask.Statement (.fdCtrl) := fun _ => ⟨_, rfl, by decide⟩

theorem TableMask.fdLen : TableMask.Statement (.fdLen) := fun _ => ⟨_, rfl, by decide⟩

theorem TableMask.fdData : TableMask.Statement (.fdData) := fun _ => ⟨_, rfl, by decide⟩

theorem TableMask.fdCrc : TableMask.Statement (.fdCrc) := fun _ => ⟨_, rfl, by decide⟩

theorem TableMask.fdCrcDel : TableMask.Statement (.fdCrcDel) := fun _ => ⟨_, rfl, by decide⟩

theorem TableMask.fdAck : TableMask.Statement (.fdAck) := fun _ => ⟨_, rfl, by decide⟩

theorem TableMask.fdAckDel : TableMask.Statement (.fdAckDel) := fun _ => ⟨_, rfl, by decide⟩

theorem TableMask.fdEof : TableMask.Statement (.fdEof) := fun _ => ⟨_, rfl, by decide⟩

theorem TableMask.fdReserved11 : TableMask.Statement (.fdReserved11) := fun _ => ⟨_, rfl, by decide⟩

theorem TableMask.fdReserved12 (code : FdCode) : TableMask.Statement (.fdReserved12 code) := fun h =>
  ⟨code, rfl, by revert h; revert code; decide⟩

end Sys2Proof.Laws
end

