-- ==== Sys2Proof/Laws/TimeShift.lean ====
section
/-! SUPPORT. Sample time has no origin: the sample point, the records, a handler and a taken raw bit, in a state whose sample time runs ahead (70_reset_and_hazards.md R287). -/

namespace Sys2Proof.Machine

open Sys2Proof

/-- The state with sample time `k` ahead, and `f` as the start of its current field (R287). -/
def aheadBy (k f : Word) (s : State) : State :=
  { s with
    sampIdx := s.sampIdx + k
    anchorS := s.anchorS + k
    fldStart := f
    outBm := s.outBm.map (shiftMark k)
    outFs := s.outFs.map (shiftSpan k)
    outWn := s.outWn.map (shiftWarning k) }

/-- The sample point moves with the anchor, mod 2^32 (R287). -/
theorem sp_aheadBy (s : State) (k f : Word) (b : BitIdx) : sp (aheadBy k f s) b = sp s b + k := by
  rw [sp_eq, sp_eq, ← BitVec.toNat_inj, BitVec.toNat_add, BitVec.toNat_ofInt, BitVec.toNat_ofInt]
  have : ∃ p : Int, exactSp s b = s.anchorS.toNat + p ∧ exactSp (aheadBy k f s) b = (s.anchorS + k).toNat + p := ⟨_, rfl, rfl⟩
  obtain ⟨p, h1, h2⟩ := this
  rw [h1, h2, BitVec.toNat_add]
  have := k.isLt
  omega

/-- The sample being processed is the sample point in both states or in neither. -/
theorem sp_aheadBy_iff (s : State) (k f : Word) : sp (aheadBy k f s) (aheadBy k f s).rawIdx = (aheadBy k f s).sampIdx ↔ sp s s.rawIdx = s.sampIdx := by
  rw [sp_aheadBy]
  show sp s s.rawIdx + k = s.sampIdx + k ↔ _
  exact BitVec.add_left_inj k

/-- The mark of a bit moves with sample time. -/
theorem markOf_aheadBy (kind L) (s : State) (k f : Word) : markOf kind L (aheadBy k f s) = shiftMark k (markOf kind L s) := by
  simp only [markOf, shiftMark, aheadBy]
  congr 1
  · rw [BitVec.sub_eq_add_neg, BitVec.sub_eq_add_neg, BitVec.add_assoc, BitVec.add_assoc, BitVec.add_comm k]
  · rw [BitVec.add_assoc, BitVec.add_assoc, BitVec.add_comm k]

/-- A conditional warning moves with sample time. -/
theorem warning_map_shift (c : Bool) (code a b k) (w : Option Warning) : (if c then some ⟨code, a, b⟩ else w : Option Warning).map (shiftWarning k) = if c then some ⟨code, a + k, b + k⟩ else w.map (shiftWarning k) := by
  cases c <;> rfl

/-- A handler row run `k` samples later leaves the same state, `k` samples ahead. -/
theorem handler_aheadBy (c : FdCode) (k : Word) (s t : State) (h : exec (decodeHandler c) s = .next t) :
    ∃ g, exec (decodeHandler c) (aheadBy k (s.fldStart + k) s) = .next (aheadBy k g t) ∧ (g = t.fldStart + k ∨ t.fdState = 0#4) := by
  unfold decodeHandler at h ⊢
  split at h
  · cases h; exact ⟨_, rfl, .inl rfl⟩
  · cases h
    show ∃ g, Host.Outcome.next (if (bitIndex s).toNat = sofLast then sofDone (aheadBy k (s.fldStart + k) s) else aheadBy k (s.fldStart + k) s) = _ ∧ _
    refine ⟨s.fldStart + k, ?_, .inl ?_⟩
    · split
      · rw [sofDone_eq, sofDone_eq]; unfold aheadBy; simp only [warning_map_shift]; rfl
      · rfl
    · split
      · rw [sofDone_eq]
      · rfl
  · cases h
    show ∃ g, Host.Outcome.next (if (bitIndex s).toNat = idLast then idDone (aheadBy k (s.fldStart + k) s) else aheadBy k (s.fldStart + k) s) = _ ∧ _
    refine ⟨s.fldStart + k, ?_, .inl ?_⟩
    · split
      · rw [idDone_eq, idDone_eq]; unfold aheadBy; simp only [warning_map_shift]; rfl
      · rfl
    · split
      · rw [idDone_eq]
      · rfl
  · cases h
    refine ⟨s.fldStart + k, ?_, .inl ?_⟩
    · show Host.Outcome.next (if (bitIndex s).toNat = ctrlFirst then _ else if (bitIndex s).toNat = ctrlLast then _ else if ctrlFirst < (bitIndex s).toNat ∧ (bitIndex s).toNat < ctrlLast then _ else _) = _
      split
      · rfl
      · split
        · rfl
        · split <;> rfl
    · split
      · rfl
      · split
        · rfl
        · split <;> rfl
  · cases h
    show ∃ g, Host.Outcome.next (if (bitIndex s).toNat = lenLast then lenDone (aheadBy k (s.fldStart + k) s) else aheadBy k (s.fldStart + k) s) = _ ∧ _
    refine ⟨s.fldStart + k, ?_, .inl ?_⟩
    · split
      · rw [lenDone_eq, lenDone_eq]; unfold aheadBy; simp only [warning_map_shift]; rfl
      · rfl
    · split
      · rw [lenDone_eq]
      · rfl
  · cases h
    show ∃ g, Host.Outcome.next (if eodTaken s = true then dataEod (aheadBy k (s.fldStart + k) s) else dataBit (aheadBy k (s.fldStart + k) s)) = _ ∧ _
    refine ⟨s.fldStart + k, ?_, .inl ?_⟩
    · split
      · rfl
      · rw [dataBit_eq, dataBit_eq]
        by_cases h7 : byteBit (bitIndex s) = 7
        · rw [if_pos h7, if_pos (show byteBit (bitIndex (aheadBy k (s.fldStart + k) s)) = 7 from h7)]; rfl
        · rw [if_neg h7, if_neg (show ¬ byteBit (bitIndex (aheadBy k (s.fldStart + k) s)) = 7 from h7)]; rfl
    · split
      · rfl
      · rw [dataBit_eq]; dsimp only; split <;> rfl
  · cases h
    refine ⟨s.fldStart + k, ?_, .inl ?_⟩
    · show Host.Outcome.next (if (bitIndex s).toNat = crcEnd s.lastData s.crcLen then _ else _) = _
      split <;> rfl
    · split <;> rfl
  · cases h
    refine ⟨s.fldStart + k, ?_, .inl ?_⟩
    · show Host.Outcome.next (singleBit _ _ _ _ (aheadBy k (s.fldStart + k) s)) = _
      rw [singleBit_eq, singleBit_eq]; unfold aheadBy; simp only [warning_map_shift]; rfl
    · rw [singleBit_eq]
  · cases h
    refine ⟨s.fldStart + k, ?_, .inl ?_⟩
    · show Host.Outcome.next (singleBit _ _ _ _ (aheadBy k (s.fldStart + k) s)) = _
      rw [singleBit_eq, singleBit_eq]; unfold aheadBy; simp only [warning_map_shift]; rfl
    · rw [singleBit_eq]
  · cases h
    refine ⟨s.fldStart + k, ?_, .inl ?_⟩
    · show Host.Outcome.next (singleBit _ _ _ _ (aheadBy k (s.fldStart + k) s)) = _
      rw [singleBit_eq, singleBit_eq]; unfold aheadBy; simp only [warning_map_shift]; rfl
    · rw [singleBit_eq]
  · cases h
    by_cases he : (bitIndex s).toNat = crcEnd s.lastData s.crcLen + eofLastOffset
    · refine ⟨0#32, ?_, .inr ?_⟩
      · show Host.Outcome.next (if (bitIndex s).toNat = crcEnd s.lastData s.crcLen + eofLastOffset then eofDone (eofBit (aheadBy k (s.fldStart + k) s)) else _) = _
        rw [if_pos he, if_pos he, eofBit_eq, eofBit_eq]; unfold aheadBy eofDone frameEnd emitSpan; simp only [warning_map_shift]; rfl
      · rw [if_pos he]; rfl
    · refine ⟨s.fldStart + k, ?_, .inl ?_⟩
      · show Host.Outcome.next (if (bitIndex s).toNat = crcEnd s.lastData s.crcLen + eofLastOffset then _ else eofBit (aheadBy k (s.fldStart + k) s)) = _
        rw [if_neg he, if_neg he, eofBit_eq, eofBit_eq]; unfold aheadBy; simp only [warning_map_shift]; rfl
      · rw [if_neg he, eofBit_eq]
  · cases h
  · cases h

/-- Accumulation commutes with the shift, if the field start is shifted too or the bit loads it. -/
theorem accumulate_aheadBy (k g : Word) (s : State) (h : g = s.fldStart + k ∨ isFieldStart s.fdState (bitIndex s) s.lastData s.crcLen = true) :
    accumulate (aheadBy k g s) = aheadBy k ((accumulate s).fldStart + k) (accumulate s) := by
  unfold accumulate
  show (if isFieldStart s.fdState (bitIndex s) s.lastData s.crcLen = true then _ else _) = _
  by_cases hf : isFieldStart s.fdState (bitIndex s) s.lastData s.crcLen = true
  · rw [if_pos hf, if_pos hf]; rfl
  · rw [if_neg hf, if_neg hf]
    rcases h with h | h
    · subst h; rfl
    · exact absurd h hf

/-- A raw bit taken `k` samples later leaves the same state, `k` samples ahead. -/
theorem takeBit_aheadBy (k g : Word) (L : Level) (s t : State) (hA : AwaitIffNoBit s) (hg : s.fdState ≠ 0#4 → g = s.fldStart + k) (h : takeBit L s = .next t) :
    ∃ g', takeBit L (aheadBy k g s) = .next (aheadBy k g' t) ∧ (t.fdState ≠ 0#4 → g' = t.fldStart + k) := by
  cases hr : isStuffPos s.rawIdx
  · have hr' : isStuffPos (aheadBy k g s).rawIdx = false := hr
    rw [takeBit_logical hr] at h
    rw [takeBit_logical hr']
    have e : beforeHandler L (aheadBy k g s) = aheadBy k g (beforeHandler L s) := by
      unfold beforeHandler
      rw [markOf_aheadBy]; rfl
    have e2 : accumulate (aheadBy k g (beforeHandler L s)) = aheadBy k ((accumulate (beforeHandler L s)).fldStart + k) (accumulate (beforeHandler L s)) := by
      apply accumulate_aheadBy
      by_cases h0 : s.fdState = 0#4
      · right
        have hl : s.logIdx = 0#16 := hA.1 h0
        have e1 : bitIndex (beforeHandler L s) = s.logIdx := BitVec.add_sub_cancel _ _
        have e2 : (beforeHandler L s).fdState = 1#4 := if_pos h0
        rw [e1, e2, hl]; rfl
      · left; exact hg h0
    rw [e, e2]
    obtain ⟨g', h1, h2⟩ := handler_aheadBy _ k _ t h
    exact ⟨g', h1, fun hn => h2.resolve_right hn⟩
  · have hr' : isStuffPos (aheadBy k g s).rawIdx = true := hr
    cases hw : isEodWindow (shiftWindow s.win L)
    · rw [takeBit_stuff hr hw] at h
      rw [takeBit_stuff (s := aheadBy k g s) hr' hw, markOf_aheadBy]; cases h
      exact ⟨g, rfl, hg⟩
    · by_cases hd : s.fdState = fdDataCode
      · rw [takeBit_eod_data hr hw hd] at h
        rw [takeBit_eod_data (s := aheadBy k g s) hr' hw hd, markOf_aheadBy]; cases h
        exact ⟨g, rfl, fun _ => hg (by rw [hd]; decide)⟩
      · rw [takeBit_eod hr hw hd] at h
        rw [takeBit_eod (s := aheadBy k g s) hr' hw hd, markOf_aheadBy]; cases h
        exact ⟨g, rfl, hg⟩

end Sys2Proof.Machine
end

