-- ==== Sys2Proof/Tests/Slice0.lean ====
section
/-! SUPPORT. Tests: the checks of WellFormed, the decoder on words of the spec, one step of each row against 95_test_vectors.md, and for every statement with hypotheses a state and operands that meet them. -/

namespace Sys2Proof.Tests

open Sys2Proof Sys2Proof.Machine

/-! ### Helpers -/

/-- The outcome is a next state with the property. -/
def answers (o : Result) (p : State → Bool) : Bool :=
  match o with
  | .next t => p t
  | .fault _ => false
  | .refused _ => false

/-- A test of an outcome, as the existence of the next state. -/
theorem exists_of_answers {o : Result} {p : State → Bool} (h : answers o p = true) :
    ∃ t, o = .next t ∧ p t = true := by
  unfold answers at h
  split at h
  · exact ⟨_, rfl, h⟩
  · cases h
  · cases h

/-- The outcome is this next state. -/
def gives (o : Result) (u : State) : Bool := answers o fun t => t = u

/-- The outcome is this refusal. -/
def refuses (o : Result) (r : Refusal) : Bool :=
  match o with
  | .next _ => false
  | .fault _ => false
  | .refused q => q = r

/-- The standard configuration of 95_test_vectors.md §0, disabled. -/
def configured : State := { State.reset with bitWidth := 0x00040000#32, spOffset := 0x0002CCCC#32 }

/-- The same, enabled, with `n` samples counted. -/
def running (n : Word) : State := { configured with en := true, sampIdx := n }

/-- A frame in progress whose raw bit `r`, logical index `l`, is due at sample `n` (§0: `SP` is two samples past
the anchor). -/
def due (n : Word) (r l : BitIdx) (fd : FdCode) : State :=
  { running n with
    bsState := .sync
    anchorS := n - 2#32
    anchorB := r
    rawIdx := r
    logIdx := l
    fdState := fd }

/-- The fields of a classic frame with DLC 0 (§2.1). -/
def minimal (s : State) : State := { s with crcLen := 15#5, lastData := 31#16, ctrl4 := 2#4 }

/-- `s` with one cycle word to come. -/
def given (w : CycleWord) (s : State) : State := { s with inputs := [inputOf w] }

/-! ### WellFormed refuses an ill-formed term of each check -/

theorem test_wf_refuses_unmapped38 :
    (Instr.rdUnmapped38 0x34#8).wf = false ∧ (Instr.wrUnmapped38 0x40#8 0#32).wf = false ∧
    (Instr.rdUnmapped38 0x39#8).wf = false := by decide

theorem test_wf_refuses_unmapped40 :
    (Instr.rdUnmapped40 0x3C#8).wf = false ∧ (Instr.wrUnmapped40 0x80#8 0#32).wf = false ∧
    (Instr.rdUnmapped40 0x41#8).wf = false := by decide

theorem test_wf_refuses_unmapped80 :
    (Instr.rdUnmapped80 0x7C#8).wf = false ∧ (Instr.wrUnmapped80 0x82#8 0#32).wf = false := by decide

theorem test_wf_refuses_misaligned :
    (Instr.rdMisaligned01 0x02#8).wf = false ∧ (Instr.wrMisaligned01 0x04#8 0#32).wf = false ∧
    (Instr.rdMisaligned10 0x03#8).wf = false ∧ (Instr.wrMisaligned10 0x01#8 0#32).wf = false ∧
    (Instr.rdMisaligned11 0x00#8).wf = false ∧ (Instr.wrMisaligned11 0x06#8 0#32).wf = false := by decide

theorem test_wf_refuses_reserved_code : (Instr.fdReserved12 11#4).wf = false := by decide

/-! ### Decoding: words written out from 30_encoding.md R80 to R83 and 95_test_vectors.md §9 -/

theorem test_decode_beats :
    decodeTableWord 48 0x80000000000 = some .smpD ∧ decodeTableWord 48 0xC0000000000 = some .smpR ∧
    decodeTableWord 48 0x40000000000 = some .nos ∧ decodeTableWord 48 0x00000000000 = some .nop := by decide

theorem test_decode_reads :
    [0x10000000000, 0x10400000000, 0x10800000000, 0x10C00000000, 0x11000000000, 0x11400000000,
      0x11800000000, 0x11C00000000, 0x12000000000, 0x12400000000, 0x12800000000, 0x12C00000000,
      0x13000000000, 0x13400000000].map (decodeTableWord 48) =
    [Instr.rdId, .rdCtrl, .rdStatus, .rdBitWidth, .rdSpOffset, .rdSampleIdx, .rdBitIdx, .rdAnchorSample,
      .rdAnchorBit, .rdNextSp, .rdFrame, .rdOffsets, .rdAcc, .rdFieldStart].map some := by decide

theorem test_decode_writes :
    [0x20000000001, 0x20400000001, 0x208FFFFFFFF, 0x20C00040000, 0x2100002CCCC, 0x21400000001,
      0x21800000001, 0x21C00000001, 0x22000000001, 0x22400000001, 0x22800000001, 0x22C00000001,
      0x23000000001, 0x23400000001].map (decodeTableWord 48) =
    [Instr.wrId 1#32, .wrCtrl 1#32, .wrStatus 0xFFFFFFFF#32, .wrBitWidth 0x40000#32, .wrSpOffset 0x2CCCC#32,
      .wrSampleIdx 1#32, .wrBitIdx 1#32, .wrAnchorSample 1#32, .wrAnchorBit 1#32, .wrNextSp 1#32,
      .wrFrame 1#32, .wrOffsets 1#32, .wrAcc 1#32, .wrFieldStart 1#32].map some := by decide

theorem test_decode_unmapped :
    [0x13800000000, 0x13C00000000, 0x14000000000, 0x17C00000000, 0x18000000000, 0x1FC00000000,
      0x23800000001, 0x24000000001, 0x28000000001].map (decodeTableWord 48) =
    [Instr.rdUnmapped38 0x38#8, .rdUnmapped38 0x3C#8, .rdUnmapped40 0x40#8, .rdUnmapped40 0x7C#8,
      .rdUnmapped80 0x80#8, .rdUnmapped80 0xFC#8, .wrUnmapped38 0x38#8 1#32, .wrUnmapped40 0x40#8 1#32,
      .wrUnmapped80 0x80#8 1#32].map some := by decide

theorem test_decode_misaligned :
    [0x10100000000, 0x1FE00000000, 0x10700000000, 0x20100000001, 0x20600000001, 0x2FF00000001].map
      (decodeTableWord 48) =
    [Instr.rdMisaligned01 0x01#8, .rdMisaligned10 0xFE#8, .rdMisaligned11 0x07#8, .wrMisaligned01 0x01#8 1#32,
      .wrMisaligned10 0x06#8 1#32, .wrMisaligned11 0xFF#8 1#32].map some := by decide

theorem test_decode_handlers :
    [0, 1, 2, 3, 4, 5, 6, 7, 8, 9, 10, 11, 12, 15].map (decodeTableWord 8) =
    [Instr.fdAwaitSof, .fdSof, .fdId, .fdCtrl, .fdLen, .fdData, .fdCrc, .fdCrcDel, .fdAck, .fdAckDel, .fdEof,
      .fdReserved11, .fdReserved12 12#4, .fdReserved12 15#4].map some := by decide

theorem test_decode_refuses_by_name :
    wordOfTable 48 (2 ^ 44) = .error .widerThanCycleWord ∧ wordOfTable 8 16 = .error .widerThanHandlerCode ∧
    decodeTableWord 48 (2 ^ 44) = none ∧ decodeTableWord 8 16 = none := by decide

/-- P2: a sample and a read in one line are both there (0x918_0000_0000 is `SMP.D | RD BIT_IDX`). -/
theorem test_decode_both_parts :
    cycleRows 0x91800000000#44 = [.rdBitIdx, .smpD] ∧ cycleRows 0xB0400000000#44 = [.rdCtrl, .smpD, .wrCtrl 0#32] ∧
    lineWord ⟨.smpD, .rd 0x18#8⟩ = 0x91800000000#44 ∧ lineWord ⟨.nos, .rdwr 0x04#8 3#32⟩ = 0x30400000003#44 := by
  decide

/-! ### One step of each row (95_test_vectors.md §3 to §8) -/

/-- §4.1: a dominant sample in IDLE anchors the frame. -/
theorem test_smpD_starts_frame :
    answers (step (given 0x80000000000#44 (running 3#32))) (fun t =>
      t.bsState = .sync && t.anchorS = 3#32 && t.anchorB = 0#16 && t.sampIdx = 4#32 && t.outBm = none &&
        nextSpWord t = 5#32) = true := by decide

/-- §4.1: sample 5 takes raw bit 0. -/
theorem test_smpD_takes_bit_0 :
    answers (step (given 0x80000000000#44 (due 5#32 0#16 0#16 0#4))) (fun t =>
      t.outBm = some ⟨.ordinary, 0#1, 0#16, 0#16, 5#32, 3#32, 6#32⟩ && t.rawIdx = 1#16 && t.logIdx = 1#16 &&
        t.fdState = 1#4) = true := by decide

/-- §4.2: a dominant-going edge before the sample point re-anchors: edge at sample 36, awaited raw 8, `SP(8) = 38`. -/
theorem test_smpD_soft_resync :
    answers (step (given 0x80000000000#44
      { due 37#32 8#16 8#16 1#4 with sampIdx := 36#32, prevLevel := 1#1 })) (fun t =>
      t.anchorS = 36#32 && t.anchorB = 8#16 && t.rawIdx = 8#16 && nextSpWord t = 38#32) = true := by decide

/-- §4.4: an offset below one sample takes raw bit 0 at the edge itself. -/
theorem test_smpD_same_sample :
    answers (step (given 0x80000000000#44 { running 3#32 with spOffset := 0x8000#32 })) (fun t =>
      t.outBm = some ⟨.ordinary, 0#1, 0#16, 0#16, 3#32, 3#32, 6#32⟩ && t.rawIdx = 1#16) = true := by decide

/-- §5.3: raw 14 is a stuff bit with the logical index to come. -/
theorem test_smpR_stuff_bit :
    answers (step (given 0xC0000000000#44 (due 61#32 14#16 14#16 2#4))) (fun t =>
      t.outBm = some ⟨.stuff, 1#1, 14#16, 14#16, 61#32, 59#32, 62#32⟩ && bitIdxWord t = 0x000E000F#32) = true := by
  decide

/-- §4.7: a sample while not running is discarded. -/
theorem test_smpR_discarded :
    gives (step (given 0xC0000000000#44 { configured with en := true, cfgErr := true }))
      { configured with en := true, cfgErr := true } = true := by decide

theorem test_nos_nop_change_nothing :
    gives (step (given 0x40000000000#44 (running 7#32))) (running 7#32) = true ∧
    gives (step (given 0x0FF12345678#44 (running 7#32))) (running 7#32) = true := by decide

/-- The registers of vector 6.5 just before its EOD sample. -/
def beforeEod : State :=
  { due 201#32 49#16 42#16 5#4 with
    dlc := 2#4, nbytes := 2#7, byteCnt := 1#7, crcLen := 15#5, lastData := 47#16, win := 0x04#5 }

/-- §6.5: what software reads just before the EOD sample. -/
theorem test_reads_before_eod :
    answers (exec .rdOffsets beforeEod) (fun t => t.rdata = 0x000F002F#32) = true ∧
    answers (exec .rdFrame beforeEod) (fun t => t.rdata = 0x00102200#32) = true ∧
    answers (exec .rdStatus beforeEod) (fun t => t.rdata = 0x00000056#32) = true := by decide

/-- §7 and P2: the other registers. -/
theorem test_reads :
    answers (exec .rdId State.reset) (fun t => t.rdata = 0x56414E01#32) = true ∧
    answers (exec .rdCtrl (running 0#32)) (fun t => t.rdata = 1#32) = true ∧
    answers (exec .rdBitWidth (running 0#32)) (fun t => t.rdata = 0x00040000#32) = true ∧
    answers (exec .rdSpOffset (running 0#32)) (fun t => t.rdata = 0x0002CCCC#32) = true ∧
    answers (exec .rdSampleIdx (running 281#32)) (fun t => t.rdata = 281#32) = true ∧
    answers (exec .rdBitIdx (due 61#32 14#16 14#16 2#4)) (fun t => t.rdata = 0x000E000E#32) = true ∧
    answers (exec .rdAnchorSample (due 145#32 35#16 30#16 4#4)) (fun t => t.rdata = 143#32) = true ∧
    answers (exec .rdAnchorBit (due 145#32 35#16 30#16 4#4)) (fun t => t.rdata = 35#32) = true ∧
    answers (exec .rdNextSp { due 145#32 35#16 30#16 4#4 with rawIdx := 37#16 }) (fun t => t.rdata = 153#32) =
      true ∧
    answers (exec .rdAcc { due 157#32 38#16 33#16 6#4 with acc := 0x1234#32 }) (fun t => t.rdata = 0x1234#32) =
      true ∧
    answers (exec .rdFieldStart { due 157#32 38#16 33#16 6#4 with fldStart := 153#32 }) (fun t =>
      t.rdata = 153#32) = true := by decide

/-- §7: NEXT_SP is 0 in IDLE; unmapped and misaligned addresses read 0. -/
theorem test_reads_zero :
    [Instr.rdNextSp, .rdUnmapped38 0x38#8, .rdUnmapped40 0x40#8, .rdUnmapped80 0x80#8, .rdMisaligned01 0x01#8,
      .rdMisaligned10 0x06#8, .rdMisaligned11 0x37#8].all (fun i =>
        answers (exec i (running 281#32)) (fun t => t = running 281#32)) = true := by decide

/-- §7: a configuration write, disabled and enabled. -/
theorem test_write_configuration :
    gives (exec (.wrBitWidth 0x40000#32) State.reset) { State.reset with bitWidth := 0x40000#32 } = true ∧
    gives (exec (.wrSpOffset 0x2CCCC#32) State.reset) { State.reset with spOffset := 0x2CCCC#32 } = true ∧
    gives (exec (.wrBitWidth 0x10000#32) (running 0#32)) (running 0#32) = true ∧
    gives (exec (.wrSpOffset 0x10000#32) (running 0#32)) (running 0#32) = true := by decide

/-- §7: enable, the reserved bits ignored; enable with `bit_width = 0`; disable. -/
theorem test_write_ctrl :
    gives (exec (.wrCtrl 3#32) configured) (running 0#32) = true ∧
    gives (exec (.wrCtrl 1#32) State.reset) { State.reset with en := true, cfgErr := true } = true ∧
    gives (exec (.wrCtrl 0#32) { beforeEod with cfgErr := true }) configured = true := by decide

/-- §7: every other write changes nothing. -/
theorem test_writes_ignored :
    [Instr.wrId 1#32, .wrStatus 0xFFFFFFFF#32, .wrSampleIdx 1#32, .wrBitIdx 1#32, .wrAnchorSample 1#32,
      .wrAnchorBit 1#32, .wrNextSp 1#32, .wrFrame 1#32, .wrOffsets 1#32, .wrAcc 1#32, .wrFieldStart 1#32,
      .wrUnmapped38 0x3C#8 1#32, .wrUnmapped40 0x7C#8 1#32, .wrUnmapped80 0xFC#8 1#32,
      .wrMisaligned01 0x05#8 1#32, .wrMisaligned10 0x06#8 0#32, .wrMisaligned11 0x0F#8 1#32].all (fun i =>
        answers (exec i configured) (fun t => t = configured)) = true := by decide

/-- §8: the cycle of an enable discards its sample; P3 cycle 35: `RDWR CTRL, 0` reads the old value. -/
theorem test_sample_and_ctrl_write :
    gives (step (given 0xA0400000001#44 configured)) (running 0#32) = true ∧
    gives (step (given 0xB0400000000#44 (running 23#32))) { configured with rdata := 1#32 } = true := by decide

/-- §2.1 and §6.1: the tenth bit of SOF. -/
theorem test_sof :
    answers (step (given 0xC0000000000#44 { due 41#32 9#16 9#16 1#4 with acc := 0x1E#32, fldStart := 5#32 }))
      (fun t => t.outFs = some ⟨.sof, 5#32, 41#32, 0x3D#32⟩ && t.outWn = none && t.fdState = 2#4) = true ∧
    answers (step (given 0xC0000000000#44 { due 41#32 9#16 9#16 1#4 with acc := 0x1F#32, fldStart := 5#32 }))
      (fun t => t.outFs = some ⟨.sof, 5#32, 41#32, 0x3F#32⟩ && t.outWn = some ⟨.sofMismatch, 5#32, 41#32⟩ &&
        t.fdState = 2#4) = true := by decide

/-- §2.1 and §6.2: the fourteenth bit of the identifier. -/
theorem test_id :
    answers (step (given 0xC0000000000#44 { due 109#32 26#16 23#16 2#4 with acc := 0x52A#32, fldStart := 45#32 }))
      (fun t => t.outFs = some ⟨.id, 45#32, 109#32, 0x0A55#32⟩ && t.outWn = none && t.fdState = 3#4) = true ∧
    answers (step (given 0x80000000000#44 { due 109#32 26#16 23#16 2#4 with acc := 0x1FC0#32, fldStart := 45#32 }))
      (fun t => t.outFs = some ⟨.id, 45#32, 109#32, 0x3F80#32⟩ &&
        t.outWn = some ⟨.idReserved, 45#32, 109#32⟩) = true := by decide

/-- §2.1: the format flag and the last control bit. -/
theorem test_ctrl :
    answers (step (given 0xC0000000000#44 (due 113#32 27#16 24#16 3#4)))
      (fun t => t.outFs = some ⟨.fmt, 113#32, 113#32, 1#32⟩ && t.fmt = 1#1 && t.fdState = 3#4) = true ∧
    answers (step (given 0x80000000000#44 { due 129#32 31#16 27#16 3#4 with acc := 1#32 }))
      (fun t => t.outFs = some ⟨.rtr, 129#32, 129#32, 0#32⟩ && t.ctrl4 = 2#4 && t.fdState = 4#4) = true := by decide

/-- §6.4 and §6.6: DLC 9 classic, DLC 10 extended. -/
theorem test_len :
    answers (step (given 0xC0000000000#44 { due 149#32 36#16 31#16 4#4 with acc := 4#32, fldStart := 133#32 }))
      (fun t => t.outFs = some ⟨.len, 133#32, 149#32, 0x0C09#32⟩ &&
        t.outWn = some ⟨.dlcClassic, 133#32, 149#32⟩ && offsetsWord t = 0x000F007F#32 && t.fdState = 5#4) = true ∧
    answers (step (given 0x80000000000#44
      { due 149#32 36#16 31#16 4#4 with fmt := 1#1, acc := 5#32, fldStart := 133#32 }))
      (fun t => t.outFs = some ⟨.len, 133#32, 149#32, 0x100A#32⟩ && t.outWn = none &&
        offsetsWord t = 0x0015009F#32) = true := by decide

/-- §6.5: a completed byte, and the EOD that cuts the field. -/
theorem test_data :
    answers (step (given 0xC0000000000#44
      { due 189#32 46#16 39#16 5#4 with
        dlc := 2#4, nbytes := 2#7, crcLen := 15#5, lastData := 47#16, acc := 0x52#32, fldStart := 153#32 }))
      (fun t => t.outFs = some ⟨.data, 153#32, 189#32, 0x00A5#32⟩ && t.byteCnt = 1#7 && t.fdState = 5#4) = true ∧
    answers (step (given 0x80000000000#44 beforeEod))
      (fun t => t.outBm = some ⟨.eod, 0#1, 49#16, 42#16, 201#32, 199#32, 202#32⟩ &&
        offsetsWord t = 0x000F0029#32 && frameWord t = 0x00102200#32 && statusWord t = 0x00000066#32 &&
        t.acc = 0#32 && t.logIdx = 42#16 && t.rawIdx = 50#16) = true := by decide

/-- §2.1: the last CRC bit. -/
theorem test_crc :
    answers (step (given 0x80000000000#44
      (minimal { due 225#32 55#16 46#16 6#4 with acc := 0x91A#32, fldStart := 153#32 })))
      (fun t => t.outFs = some ⟨.crc, 153#32, 225#32, 0x1234#32⟩ && t.fdState = 7#4) = true := by decide

/-- §2.1: the three single-bit fields of a conforming trailer. -/
theorem test_trailer :
    answers (step (given 0xC0000000000#44 (minimal (due 229#32 56#16 47#16 7#4))))
      (fun t => t.outFs = some ⟨.crcDel, 229#32, 229#32, 1#32⟩ && t.outWn = none && t.fdState = 8#4) = true ∧
    answers (step (given 0x80000000000#44 (minimal (due 233#32 57#16 48#16 8#4))))
      (fun t => t.outFs = some ⟨.ack, 233#32, 233#32, 0#32⟩ && t.outWn = none && t.fdState = 9#4) = true ∧
    answers (step (given 0xC0000000000#44 (minimal (due 237#32 58#16 49#16 9#4))))
      (fun t => t.outFs = some ⟨.ackDel, 237#32, 237#32, 1#32⟩ && t.outWn = none && t.fdState = 10#4) = true := by
  decide

/-- §6.7: the same fields violated. -/
theorem test_trailer_warnings :
    answers (step (given 0x80000000000#44 (minimal (due 229#32 56#16 47#16 7#4))))
      (fun t => t.outWn = some ⟨.crcDelDominant, 229#32, 229#32⟩) = true ∧
    answers (step (given 0xC0000000000#44 (minimal (due 233#32 57#16 48#16 8#4))))
      (fun t => t.outWn = some ⟨.notAcknowledged, 233#32, 233#32⟩) = true ∧
    answers (step (given 0x80000000000#44 (minimal (due 237#32 58#16 49#16 9#4))))
      (fun t => t.outWn = some ⟨.ackDelDominant, 237#32, 237#32⟩) = true := by decide

/-- §2.1 and §6.7: the last EOF bit, conforming and dominant. -/
theorem test_eof :
    answers (step (given 0xC0000000000#44
      (minimal { due 273#32 67#16 56#16 10#4 with acc := 0x3F#32, fldStart := 245#32 })))
      (fun t => t.outFs = some ⟨.eof, 245#32, 273#32, 0x7F#32⟩ && t.outWn = none && statusWord t = 2#32 &&
        bitIdxWord t = 0#32 && t.anchorS = 271#32 && t.sampIdx = 274#32) = true ∧
    answers (step (given 0x80000000000#44
      (minimal { due 273#32 67#16 56#16 10#4 with acc := 0x37#32, fldStart := 245#32 })))
      (fun t => t.outFs = some ⟨.eof, 245#32, 273#32, 0x6E#32⟩ &&
        t.outWn = some ⟨.eofDominant, 273#32, 273#32⟩) = true := by decide

/-- R83: the reserved codes are refused, by name. -/
theorem test_reserved :
    refuses (exec .fdReserved11 State.reset) (.reservedFdState 11#4) = true ∧
    refuses (exec (.fdReserved12 15#4) State.reset) (.reservedFdState 15#4) = true ∧
    refuses (step (State.reset.withFetchWord 8 11)) (.reservedFdState 11#4) = true ∧
    refuses (step (State.reset.withFetchWord 8 12)) (.reservedFdState 12#4) = true := by decide

/-- From reset, a placed word is what the next step runs. -/
theorem test_withFetchWord :
    answers (step (State.reset.withFetchWord 48 0x20C00040000)) (fun t =>
      t = { State.reset with bitWidth := 0x40000#32 }) = true ∧
    answers (step (State.reset.withFetchWord 48 0x10000000000)) (fun t => t.rdata = 0x56414E01#32) = true ∧
    answers (step (State.reset.withFetchWord 8 8)) (fun t => t.fdState = 9#4) = true := by decide

/-- The reset pin, with a sample and a write in the same cycle (R280). -/
theorem test_rst :
    gives (step { beforeEod with inputs := [⟨true, 0xA0400000001#44⟩] }) State.reset = true := by decide

/-- §3.1: the sample-point table, its fractional and its wrapping row. -/
theorem test_sample_point_table :
    [7, 8, 9, 10, 20].map (fun b => samplePoint 100#32 7#16 0x40000#32 0x2CCCC#32 (BitVec.ofNat 16 b)) =
      [102#32, 106#32, 110#32, 114#32, 154#32] ∧
    [7, 8, 9, 10, 20].map (fun b => samplePoint 100#32 7#16 0x48000#32 0x2CCCC#32 (BitVec.ofNat 16 b)) =
      [102#32, 107#32, 111#32, 116#32, 161#32] ∧
    [7, 8, 9, 10, 20].map (fun b => samplePoint 0xFFFFFFF0#32 7#16 0x40000#32 0x2CCCC#32 (BitVec.ofNat 16 b)) =
      [0xFFFFFFF2#32, 0xFFFFFFF6#32, 0xFFFFFFFA#32, 0xFFFFFFFE#32, 0x26#32] := by decide

/-- Table K and Table W: the codes the ports show with an EOD mark (§6.5), a CRC span (§2.1) and an ACK warning (§6.7). -/
theorem test_port_codes :
    (ports { running 0#32 with
      outBm := some ⟨.eod, 0#1, 49#16, 42#16, 201#32, 199#32, 202#32⟩
      outFs := some ⟨.crc, 153#32, 225#32, 0x1234#32⟩
      outWn := some ⟨.notAcknowledged, 233#32, 233#32⟩ }).bmKind = 2#2 ∧
    (ports { running 0#32 with outFs := some ⟨.crc, 153#32, 225#32, 0x1234#32⟩ }).fsKind = 11#4 ∧
    (ports { running 0#32 with outWn := some ⟨.notAcknowledged, 233#32, 233#32⟩ }).wnCode = 5#4 := by decide

/-- §5.1: stuff positions. -/
theorem test_stuff_positions :
    [4, 9, 13, 14, 15, 19, 714, 715].map (fun r => isStuffPos (BitVec.ofNat 16 r)) =
      [false, false, false, true, false, true, true, false] := by decide

/-- §7: the host formulas, at 1 MHz and at 500 kHz. -/
theorem test_host_formulas :
    hostBitWidth 1000000 125000 = 0x80000 ∧ hostSpOffset 1000000 70 1 125000 = 0x59999 ∧
    hostBitWidth 500000 125000 = 0x40000 ∧ hostSpOffset 500000 70 1 125000 = 0x2CCCC := by decide

/-! ### Witnesses: a state and operands that meet the hypotheses of each statement

Where a statement has several clauses, each has its own, at boundary values. -/

theorem witness_rowsRoundTrip :
    [Instr.smpD, .rdUnmapped38 0x3C#8, .wrUnmapped80 0xFC#8 7#32, .rdMisaligned11 0xFF#8,
      .fdReserved12 15#4].all Instr.wf = true := by decide

theorem witness_tableNumberNamesItsRow :
    ((Instr.wrCtrl 3#32).wf = true ∧ Instr.wrCtrl 3#32 ≠ .nos ∧ encode (.wrCtrl 3#32) = .cycle 0x20400000003#44) ∧
    (Instr.fdReserved12 12#4).wf = true ∧ Instr.fdReserved12 12#4 ≠ .nos ∧
    encode (.fdReserved12 12#4) = .handler 12#4 := by decide

/-- Of `StepRunsTheDecodedRows`, `StepIsTheSpecsStep` and, with a row alone in its word, `StepOfOneRowIsItsExec`. -/
theorem witness_step :
    (given 0xB0400000000#44 (running 23#32)).inputs = ⟨false, 0xB0400000000#44⟩ :: [] ∧
    (Instr.rdUnmapped40 0x40#8).wf = true ∧ encode (.rdUnmapped40 0x40#8) = .cycle 0x14000000000#44 ∧
    (given 0x14000000000#44 (running 23#32)).inputs = ⟨false, 0x14000000000#44⟩ :: [] := by decide

theorem witness_inputsBeyondTheList :
    (running 23#32).inputs = [] ∧
    ({ beforeEod with inputs := [⟨true, 0#44⟩, ⟨false, 0x80000000000#44⟩] } : State).inputs =
      ⟨true, 0#44⟩ :: [⟨false, 0x80000000000#44⟩] := by decide

theorem witness_resetPin :
    ({ beforeEod with inputs := [⟨true, 0xA0400000001#44⟩] } : State).inputs = ⟨true, 0xA0400000001#44⟩ :: [] := by
  decide

theorem witness_misaligned :
    (0x01#8).toNat % 4 = 1 ∧ (0xFD#8).toNat % 4 = 1 ∧ (0x02#8).toNat % 4 = 2 ∧ (0xFE#8).toNat % 4 = 2 ∧
    (0x03#8).toNat % 4 = 3 ∧ (0xFF#8).toNat % 4 = 3 := by decide

theorem witness_unmapped :
    (∀ a ∈ [0x38#8, 0x3C#8], a.toNat % 4 = 0 ∧ 0x38 ≤ a.toNat ∧ a.toNat ≤ 0x3C) ∧
    (∀ a ∈ [0x40#8, 0x7C#8], a.toNat % 4 = 0 ∧ 0x40 ≤ a.toNat ∧ a.toNat ≤ 0x7C) ∧
    (∀ a ∈ [0x80#8, 0xFC#8], a.toNat % 4 = 0 ∧ 0x80 ≤ a.toNat) := by decide

/-- `CtrlRegister`: a disable; an enable of an enabled block, of a disabled one with the narrowest width that is
accepted, and with the widest that is not. -/
theorem witness_ctrlRegister :
    (0xFFFFFFFE#32).toNat % 2 = 0 ∧
    ((3#32).toNat % 2 = 1 ∧ (running 0#32).en = true) ∧
    ((1#32).toNat % 2 = 1 ∧ ({ configured with bitWidth := 0x10000#32 } : State).en = false ∧
      0x10000 ≤ ({ configured with bitWidth := 0x10000#32 } : State).bitWidth.toNat) ∧
    ((1#32).toNat % 2 = 1 ∧ ({ configured with bitWidth := 0xFFFF#32 } : State).en = false ∧
      ({ configured with bitWidth := 0xFFFF#32 } : State).bitWidth.toNat < 0x10000) := by decide

/-- `TimingRegisters`: the widest value that makes an enable an error. -/
theorem witness_timingRegisters : configured.en = false ∧ (0xFFFF#32).toNat < 0x10000 := by decide

theorem witness_nextSp : beforeEod.bsState = .sync ∧ configured.bsState = .idle := by decide

/-- The configuration of a machine that an enable finds one step too narrow. -/
def narrow : State := { configured with bitWidth := 0xFFFF#32 }

/-- `ConfigErrorLifeCycle`: an enable that raises the error (also the second clause), a disable that clears it, and
its standing. -/
theorem witness_configError :
    (answers (step (given 0x20400000001#44 narrow)) (fun t => t.cfgErr = true) = true ∧
      (nextInput (given 0x20400000001#44 narrow)).rst = false ∧ (given 0x20400000001#44 narrow).en = false ∧
      (given 0x20400000001#44 narrow).cfgErr = false ∧
      (given 0x20400000001#44 narrow).bitWidth.toNat < 0x10000 ∧
      CycleWord.we (nextInput (given 0x20400000001#44 narrow)).word = 1#1 ∧
      CycleWord.addr (nextInput (given 0x20400000001#44 narrow)).word = 0x04#8 ∧
      (CycleWord.wdata (nextInput (given 0x20400000001#44 narrow)).word).toNat % 2 = 1) ∧
    (answers (step (given 0x20400000000#44 { narrow with en := true, cfgErr := true }))
        (fun t => t.cfgErr = false) = true ∧
      (given 0x20400000000#44 { narrow with en := true, cfgErr := true }).cfgErr = true) := by decide

theorem witness_configurationLock :
    answers (step (given 0x20C00010000#44 (running 0#32))) (fun _ => true) = true ∧
    (given 0x20C00010000#44 (running 0#32)).en = true ∧
    (nextInput (given 0x20C00010000#44 (running 0#32))).rst = false := by decide

/-- `SampleAndWriteInOneCycle`: an enable, a disable and a configuration write, each with a sample, and an address
of the last case. -/
theorem witness_sampleAndWrite :
    (configured.en = false ∧ (1#32).toNat % 2 = 1 ∧
      (given 0xA0400000001#44 configured).inputs =
        ⟨false, CycleWord.make 1#1 0#1 1#1 0#1 0x04#8 1#32⟩ :: [] ∧
      answers (step (given 0xA0400000001#44 configured)) (fun _ => true) = true) ∧
    ((0#32).toNat % 2 = 0 ∧
      (given 0xB0400000000#44 (running 23#32)).inputs =
        ⟨false, CycleWord.make 1#1 0#1 1#1 1#1 0x04#8 0#32⟩ :: [] ∧
      answers (step (given 0xB0400000000#44 (running 23#32))) (fun _ => true) = true) ∧
    ((given 0xA1000000000#44 (running 23#32)).en = true ∧
      (given 0xA1000000000#44 (running 23#32)).inputs =
        ⟨false, CycleWord.make 1#1 0#1 1#1 0#1 0x10#8 0#32⟩ :: [] ∧
      answers (step (given 0xA1000000000#44 (running 23#32))) (fun _ => true) = true) ∧
    (0x08#8 ≠ 0x04#8 ∧ 0x08#8 ≠ 0x0C#8 ∧ 0x08#8 ≠ 0x10#8) := by decide

/-- `EventPortsShowOneCyclesRecords`: silent channels, channels with records, and the cycles that silence them. -/
theorem witness_eventPorts :
    (State.reset.outBm = none ∧ State.reset.outFs = none ∧ State.reset.outWn = none) ∧
    answers (step (given 0xC0000000000#44 { due 41#32 9#16 9#16 1#4 with acc := 0x1F#32, fldStart := 5#32 }))
      (fun t => t.outBm = some ⟨.ordinary, 1#1, 9#16, 9#16, 41#32, 39#32, 42#32⟩ &&
        t.outFs = some ⟨.sof, 5#32, 41#32, 0x3F#32⟩ && t.outWn = some ⟨.sofMismatch, 5#32, 41#32⟩) = true ∧
    (answers (step { beforeEod with inputs := [⟨true, 0x80000000000#44⟩] }) (fun _ => true) = true ∧
      (nextInput { beforeEod with inputs := [⟨true, 0x80000000000#44⟩] }).rst = true) ∧
    (answers (step beforeEod) (fun _ => true) = true ∧
      CycleWord.sValid (nextInput beforeEod).word = 0#1) := by decide

theorem witness_discardedSamples :
    configured.en = false ∧ ({ narrow with en := true, cfgErr := true } : State).cfgErr = true := by decide

theorem witness_samplePoint :
    beforeEod.anchorB.toNat ≤ (49#16).toNat ∧ beforeEod.anchorB.toNat ≤ (0xFFFF#16).toNat ∧
    (50#16).toNat = (49#16).toNat + 1 ∧ 0x10000 ≤ ({ configured with bitWidth := 0x10000#32 } : State).bitWidth.toNat := by
  decide

/-- `AcceptedSampleIsCounted`, `SampleLeavesControlAlone`, `SampleAlwaysCompletes`. -/
theorem witness_samples :
    beforeEod.en = true ∧ beforeEod.cfgErr = false ∧ beforeEod.fdState.toNat ≤ 10 ∧ configured.en = false ∧
    (due 5#32 0#16 0#16 10#4).fdState.toNat ≤ 10 ∧
    answers (exec (smpRow 0#1) beforeEod) (fun _ => true) = true ∧
    answers (exec (smpRow 1#1) beforeEod) (fun _ => true) = true := by decide

/-- `SampleInIdle`: both offsets at the boundary. -/
theorem witness_sampleInIdle :
    (running 3#32).en = true ∧ (running 3#32).cfgErr = false ∧ (running 3#32).bsState = .idle ∧
    0x10000 ≤ ({ running 3#32 with spOffset := 0x10000#32 } : State).spOffset.toNat ∧
    ({ running 3#32 with spOffset := 0xFFFF#32 } : State).spOffset.toNat < 0x10000 := by decide

/-- A frame between sample points, after a recessive sample. -/
def waiting (spo : Word) : State := { due 37#32 8#16 8#16 1#4 with sampIdx := 35#32, spOffset := spo, anchorS := 36#32 }

/-- `SoftResynchronisation` and `SameSampleRule`, both offsets at the boundary, from SYNC and from IDLE. -/
theorem witness_resynchronisation :
    ([0x10000#32, 0xFFFF#32].map waiting).all (fun s => s.en = true && s.cfgErr = false && s.bsState = .sync &&
      sp s s.rawIdx != s.sampIdx && s.prevLevel = 1#1) = true ∧
    0x10000 ≤ (waiting 0x10000#32).spOffset.toNat ∧ (waiting 0xFFFF#32).spOffset.toNat < 0x10000 ∧
    (running 3#32).bsState = .idle ∧ (running 3#32).en = true ∧ (running 3#32).cfgErr = false := by decide

/-- `WaitForSamplePoint`: no edge because the level stays, because it rises, and because it stays dominant. -/
theorem witness_wait :
    (waiting 0x10000#32).en = true ∧ (waiting 0x10000#32).cfgErr = false ∧ (waiting 0x10000#32).bsState = .sync ∧
    sp (waiting 0x10000#32) (waiting 0x10000#32).rawIdx ≠ (waiting 0x10000#32).sampIdx ∧
    ¬((waiting 0x10000#32).prevLevel = 1#1 ∧ (1#1 : Level) = 0#1) ∧
    ¬(({ waiting 0x10000#32 with prevLevel := 0#1 } : State).prevLevel = 1#1 ∧ (0#1 : Level) = 0#1) := by decide

/-- A sample point in order: the hypotheses all the statements of a taken bit share. -/
abbrev AtSamplePoint (s : State) : Prop :=
  s.en = true ∧ s.cfgErr = false ∧ s.bsState = .sync ∧ sp s s.rawIdx = s.sampIdx

/-- `OrdinaryStuffBit`: at the first stuff position, a 1 after a 0, and a 0 after a 1. -/
theorem witness_stuffBit :
    AtSamplePoint (due 61#32 14#16 14#16 2#4) ∧ 10 < (due 61#32 14#16 14#16 2#4).rawIdx.toNat ∧
    (due 61#32 14#16 14#16 2#4).rawIdx.toNat % 5 = 4 ∧
    ¬((due 61#32 14#16 14#16 2#4).win.getLsbD 0 = false ∧ (1#1 : Level) = 0#1) ∧
    ¬(({ due 61#32 14#16 14#16 2#4 with win := 1#5 } : State).win.getLsbD 0 = false ∧ (0#1 : Level) = 0#1) := by
  decide

/-- `EodMarker`: in DATA, and in another state. -/
theorem witness_eodMarker :
    (AtSamplePoint beforeEod ∧ 10 < beforeEod.rawIdx.toNat ∧ beforeEod.rawIdx.toNat % 5 = 4 ∧
      beforeEod.win.getLsbD 0 = false ∧ beforeEod.fdState = 5#4) ∧
    (AtSamplePoint (due 61#32 14#16 14#16 2#4) ∧ 10 < (due 61#32 14#16 14#16 2#4).rawIdx.toNat ∧
      (due 61#32 14#16 14#16 2#4).rawIdx.toNat % 5 = 4 ∧
      (due 61#32 14#16 14#16 2#4).win.getLsbD 0 = false ∧ (due 61#32 14#16 14#16 2#4).fdState ≠ 5#4) := by decide

/-- `LogicalBitRunsItsHandler`: the raw index 9, exempt though 9 mod 5 = 4, and 13, just before the first stuff
position. -/
theorem witness_logicalBit :
    AtSamplePoint (due 41#32 9#16 9#16 1#4) ∧
    ¬(10 < (due 41#32 9#16 9#16 1#4).rawIdx.toNat ∧ (due 41#32 9#16 9#16 1#4).rawIdx.toNat % 5 = 4) ∧
    AtSamplePoint (due 57#32 13#16 13#16 2#4) ∧
    ¬(10 < (due 57#32 13#16 13#16 2#4).rawIdx.toNat ∧ (due 57#32 13#16 13#16 2#4).rawIdx.toNat % 5 = 4) := by decide

/-- `OneMarkPerRawBit`: a sample that waits, and one that takes a bit. -/
theorem witness_oneMark :
    (waiting 0x10000#32).outBm = none ∧
    answers (exec (smpRow 1#1) (waiting 0x10000#32)) (fun t => t.outBm = none) = true ∧ beforeEod.outBm = none ∧
    answers (exec (smpRow 0#1) beforeEod) (fun t =>
      t.outBm = some ⟨.eod, 0#1, 49#16, 42#16, 201#32, 199#32, 202#32⟩ && t.bsState = .sync) = true := by decide

/-- The header states at a bit that is not the last of its field, and at the last, all within the invariant. -/
def headerStates : List State :=
  [due 9#32 1#16 1#16 1#4, { due 41#32 9#16 9#16 1#4 with acc := 0x1E#32 },
    due 45#32 10#16 10#16 2#4, { due 109#32 26#16 23#16 2#4 with acc := 0x52A#32 },
    due 113#32 27#16 24#16 3#4, due 117#32 28#16 25#16 3#4, due 125#32 30#16 26#16 3#4,
    { due 129#32 31#16 27#16 3#4 with acc := 1#32 },
    { due 133#32 32#16 28#16 4#4 with ctrl4 := 2#4 },
    { due 149#32 36#16 31#16 4#4 with acc := 4#32, ctrl4 := 2#4 }]

set_option synthInstance.maxSize 1000 in
set_option synthInstance.maxHeartbeats 200000 in
/-- `HeaderFieldsInTheSampleStep`: each clause has its state, in the order of the clauses but for those of one
field. -/
theorem witness_headerFields :
    (∀ s ∈ headerStates, AtSamplePoint s ∧ s.Inv ∧ ¬(10 < s.rawIdx.toNat ∧ s.rawIdx.toNat % 5 = 4) ∧
      answers (exec (smpRow 1#1) s) (fun _ => true) = true) ∧
    headerStates.map (fun s => (s.fdState.toNat, s.logIdx.toNat)) =
      [(1, 1), (1, 9), (2, 10), (2, 23), (3, 24), (3, 25), (3, 26), (3, 27), (4, 28), (4, 31)] := by decide

/-- A frame with DLC 1. -/
def oneByte (s : State) : State :=
  { s with dlc := 1#4, nbytes := 1#7, crcLen := 15#5, lastData := 39#16, ctrl4 := 2#4 }

/-- The data and trailer states, at a bit that is not the last of its field, and at the last. -/
def trailerStates : List State :=
  [oneByte (due 153#32 37#16 32#16 5#4), oneByte { due 189#32 46#16 39#16 5#4 with acc := 0x52#32 },
    minimal (due 153#32 37#16 32#16 6#4), minimal { due 225#32 55#16 46#16 6#4 with acc := 0x91A#32 },
    minimal (due 229#32 56#16 47#16 7#4), minimal (due 233#32 57#16 48#16 8#4),
    minimal (due 237#32 58#16 49#16 9#4), minimal (due 245#32 60#16 50#16 10#4),
    minimal { due 273#32 67#16 56#16 10#4 with acc := 0x3F#32 }]

set_option synthInstance.maxSize 1000 in
set_option synthInstance.maxHeartbeats 200000 in
/-- `DataAndTrailerFieldsInTheSampleStep`: each clause has its state. -/
theorem witness_trailerFields :
    (∀ s ∈ trailerStates, AtSamplePoint s ∧ s.Inv ∧ ¬(10 < s.rawIdx.toNat ∧ s.rawIdx.toNat % 5 = 4) ∧
      answers (exec (smpRow 1#1) s) (fun _ => true) = true) ∧
    trailerStates.map (fun s =>
      (s.fdState.toNat, s.logIdx.toNat, s.lastData.toNat + s.crcLen.toNat)) =
      [(5, 32, 54), (5, 39, 54), (6, 32, 46), (6, 46, 46), (7, 47, 46), (8, 48, 46), (9, 49, 46), (10, 50, 46),
        (10, 56, 46)] := by decide

/-- `s` as a handler finds it: the logical index already past the bit, the bit newest in the window. -/
def atBit (i : BitIdx) (L : Level) (s : State) : State :=
  { s with logIdx := i + 1#16, rawIdx := s.rawIdx + 1#16, win := L.setWidth 5 }

/-- The field-start hypothesis of `AccumulationLoadsAndShifts`. -/
abbrev AtFieldStart (s : State) (i e : Nat) : Prop :=
  (s.fdState = 1#4 ∧ i = 0) ∨ (s.fdState = 2#4 ∧ i = 10) ∨ (s.fdState = 3#4 ∧ i = 24) ∨
    (s.fdState = 4#4 ∧ i = 28) ∨ (s.fdState = 5#4 ∧ i % 8 = 0) ∨
    (s.fdState = 6#4 ∧ i = s.lastData.toNat + 1) ∨ (s.fdState = 7#4 ∧ i = e + 1) ∨
    (s.fdState = 8#4 ∧ i = e + 2) ∨ (s.fdState = 9#4 ∧ i = e + 3) ∨ (s.fdState = 10#4 ∧ i = e + 4)

/-- The first bit of each field, as its handler finds it. -/
def fieldStarts : List State :=
  [atBit 0#16 1#1 (due 5#32 0#16 0#16 1#4), atBit 10#16 1#1 (due 45#32 10#16 10#16 2#4),
    atBit 24#16 1#1 (due 113#32 27#16 24#16 3#4), atBit 28#16 1#1 (due 133#32 32#16 28#16 4#4),
    atBit 32#16 1#1 (oneByte (due 153#32 37#16 32#16 5#4)), atBit 32#16 1#1 (minimal (due 153#32 37#16 32#16 6#4)),
    atBit 47#16 1#1 (minimal (due 229#32 56#16 47#16 7#4)), atBit 48#16 1#1 (minimal (due 233#32 57#16 48#16 8#4)),
    atBit 49#16 1#1 (minimal (due 237#32 58#16 49#16 9#4)),
    atBit 50#16 1#1 (minimal (due 245#32 60#16 50#16 10#4))]

/-- `AccumulationLoadsAndShifts`: each field start, and a later bit. -/
theorem witness_accumulation :
    (∀ s ∈ fieldStarts, AtFieldStart s (bitIndex s).toNat (s.lastData.toNat + s.crcLen.toNat)) ∧
    ¬ AtFieldStart (atBit 1#16 1#1 (due 9#32 1#16 1#16 1#4))
      (bitIndex (atBit 1#16 1#1 (due 9#32 1#16 1#16 1#4))).toNat 0 := by decide

/-- The handler rows: the bit their field ends at, and one it does not (`SofHandler`, `IdHandler`, `CtrlHandler`,
`LenHandler`, `CrcHandler`, `EofHandler`). -/
theorem witness_handlers :
    (bitIndex (atBit 9#16 1#1 (due 41#32 9#16 9#16 1#4))).toNat = 9 ∧
    (bitIndex (atBit 23#16 1#1 (due 109#32 26#16 23#16 2#4))).toNat = 23 ∧
    [24#16, 25#16, 26#16, 27#16].map (fun i => (bitIndex (atBit i 1#1 (due 113#32 27#16 24#16 3#4))).toNat) =
      [24, 25, 26, 27] ∧
    (bitIndex (atBit 23#16 1#1 (due 113#32 27#16 24#16 3#4))).toNat < 24 ∧
    27 < (bitIndex (atBit 28#16 1#1 (due 113#32 27#16 24#16 3#4))).toNat ∧
    (bitIndex (atBit 30#16 1#1 (due 149#32 36#16 31#16 4#4))).toNat ≠ 31 ∧
    (bitIndex (atBit 31#16 1#1 (due 149#32 36#16 31#16 4#4))).toNat = 31 ∧
    (bitIndex (atBit 45#16 1#1 (minimal (due 225#32 55#16 46#16 6#4)))).toNat ≠
      (minimal (due 225#32 55#16 46#16 6#4)).lastData.toNat + (minimal (due 225#32 55#16 46#16 6#4)).crcLen.toNat ∧
    (bitIndex (atBit 46#16 1#1 (minimal (due 225#32 55#16 46#16 6#4)))).toNat =
      (minimal (due 225#32 55#16 46#16 6#4)).lastData.toNat + (minimal (due 225#32 55#16 46#16 6#4)).crcLen.toNat ∧
    (bitIndex (atBit 55#16 1#1 (minimal (due 269#32 66#16 55#16 10#4)))).toNat ≠
      (minimal (due 269#32 66#16 55#16 10#4)).lastData.toNat +
        (minimal (due 269#32 66#16 55#16 10#4)).crcLen.toNat + 10 ∧
    (bitIndex (atBit 56#16 1#1 (minimal (due 273#32 67#16 56#16 10#4)))).toNat =
      (minimal (due 273#32 67#16 56#16 10#4)).lastData.toNat +
        (minimal (due 273#32 67#16 56#16 10#4)).crcLen.toNat + 10 := by decide

/-- `LengthTables`. -/
theorem witness_lengthTables :
    (0#4).toNat ≤ 8 ∧ (8#4).toNat ≤ 8 ∧ (15#7).toNat < 16 ∧ 16 ≤ (16#7).toNat := by decide

/-- `DataHandlerOnALogicalBit`, at both clauses, and `DataHandlerOnAnEodMarker`. -/
theorem witness_dataHandler :
    (∀ s ∈ [atBit 32#16 1#1 (oneByte (due 153#32 37#16 32#16 5#4)),
        atBit 39#16 0#1 (oneByte (due 189#32 46#16 39#16 5#4))],
      ¬(10 < (s.rawIdx - 1#16).toNat ∧ (s.rawIdx - 1#16).toNat % 5 = 4 ∧ s.win.getLsbD 0 = false ∧
        s.win.getLsbD 1 = false)) ∧
    (bitIndex (atBit 32#16 1#1 (oneByte (due 153#32 37#16 32#16 5#4)))).toNat % 8 ≠ 7 ∧
    (bitIndex (atBit 39#16 0#1 (oneByte (due 189#32 46#16 39#16 5#4)))).toNat % 8 = 7 ∧
    (10 < (({ beforeEod with rawIdx := 50#16 } : State).rawIdx - 1#16).toNat ∧
      (({ beforeEod with rawIdx := 50#16 } : State).rawIdx - 1#16).toNat % 5 = 4 ∧
      beforeEod.win.getLsbD 0 = false ∧ beforeEod.win.getLsbD 1 = false) := by decide

/-- `ReservedCodesAreRefused` and `OnlyReservedCodesRefuse`: the conditions and the refusal at the sample point, at
an edge in SYNC, and at a dominant sample in IDLE, and no refusal with an offset of one sample. -/
theorem witness_reservedCodes :
    12 ≤ (12#4).toNat ∧ 12 ≤ (15#4).toNat ∧
    (AtSamplePoint (due 5#32 0#16 0#16 11#4) ∧ 11 ≤ (due 5#32 0#16 0#16 11#4).fdState.toNat ∧
      ¬(10 < (due 5#32 0#16 0#16 11#4).rawIdx.toNat ∧ (due 5#32 0#16 0#16 11#4).rawIdx.toNat % 5 = 4) ∧
      refuses (exec (smpRow 1#1) (due 5#32 0#16 0#16 11#4)) (.reservedFdState 11#4) = true) ∧
    ((sp { waiting 0xFFFF#32 with fdState := 15#4 } 8#16 != 35#32) = true ∧
      refuses (exec (smpRow 0#1) { waiting 0xFFFF#32 with fdState := 15#4 }) (.reservedFdState 15#4) = true) ∧
    refuses (exec (smpRow 0#1) { running 3#32 with spOffset := 0xFFFF#32, fdState := 12#4 })
      (.reservedFdState 12#4) = true ∧
    answers (exec (smpRow 0#1) { waiting 0x10000#32 with fdState := 15#4 }) (fun _ => true) = true ∧
    answers (exec (smpRow 0#1) { running 3#32 with spOffset := 0x10000#32, fdState := 12#4 }) (fun _ => true) =
      true ∧
    refuses (step (given 0x80000000000#44 (due 5#32 0#16 0#16 11#4))) (.reservedFdState 11#4) = true := by decide

/-- `ViolationsChangeNoLayout`: a classic frame with DLC 9 at the end of its length field. -/
theorem witness_violations :
    (bitIndex (atBit 31#16 1#1 { due 149#32 36#16 31#16 4#4 with acc := 9#32 })).toNat = 31 ∧
    (atBit 31#16 1#1 { due 149#32 36#16 31#16 4#4 with acc := 9#32 }).fmt = 0#1 ∧
    8 < (atBit 31#16 1#1 { due 149#32 36#16 31#16 4#4 with acc := 9#32 }).acc.toNat % 16 := by decide

set_option synthInstance.maxSize 1000 in
set_option synthInstance.maxHeartbeats 200000 in
/-- `StepKeepsInvariant` and `NoInputStopsTheMachine`: the invariant at reset, enabled, in error, and in a frame, and a
step from there. -/
theorem witness_invariant :
    (∀ s ∈ [State.reset, running 5#32, { State.reset with en := true, cfgErr := true }, beforeEod], s.Inv) ∧
    answers (step (given 0x80000000000#44 beforeEod)) (fun _ => true) = true := by decide

/-- `ReachableStatesKeepR37`: a reachable state, and one that a step reaches. -/
theorem witness_reachable : Reachable State.reset ∧ ∃ t, step State.reset = .next t ∧ Reachable t :=
  ⟨.reset [], _, rfl, .step (.reset []) rfl⟩

/-- The 67 logical bits of an extended frame with one data byte, 0x5A, and a CRC of ones: more than the 57 of the
shortest frame. -/
def oneByteFrame : List Level :=
  [0, 0, 0, 0, 1, 1, 1, 1, 0, 1] ++ [0, 0, 0, 0, 0, 1, 0, 0, 1, 0, 0, 0, 1, 1] ++ [1, 0, 1, 0] ++ [0, 0, 0, 1] ++
    [0, 1, 0, 1, 1, 0, 1, 0] ++ List.replicate 17 1 ++ [1, 0, 1] ++ List.replicate 7 1

set_option synthInstance.maxSize 1000 in
set_option synthInstance.maxHeartbeats 200000 in
/-- `StuffInsertionRoundTrip`: the complement of the raw bit before, into a frame at its start; and a frame with
data that lasts to its last bit, and not past it. -/
theorem witness_stuffInsertion :
    (∀ (r : Nat) (p : Level), ¬(p = 0#1 ∧ (fun (_ : Nat) (q : Level) => ~~~q) r p = 0#1)) ∧
    (due 5#32 0#16 0#16 0#4).Inv ∧ (due 5#32 0#16 0#16 0#4).bsState = .sync ∧
    (due 5#32 0#16 0#16 0#4).rawIdx = 0#16 ∧ (List.replicate 57 (1#1 : Level)).length ≤ 57 ∧
    oneByteFrame.length = 67 ∧
    frameLasts (insertStuff (fun _ q => ~~~q) 0 0#1 oneByteFrame) (due 5#32 0#16 0#16 0#4) = true ∧
    frameLasts (insertStuff (fun _ q => ~~~q) 0 0#1 (oneByteFrame ++ [1#1])) (due 5#32 0#16 0#16 0#4) = false := by
  refine ⟨fun _ p => ?_, by decide⟩
  show ¬(p = 0#1 ∧ ~~~p = 0#1)
  revert p; decide

/-- `SampleTimeShift`: vector §8, 128 samples before the wrap. -/
theorem witness_sampleTimeShift :
    AwaitIffNoBit (running 0#32) ∧ ShiftedBy 0xFFFFFF80#32 (running 0#32)
      { running 0xFFFFFF80#32 with anchorS := 0xFFFFFF80#32 } ∧
    answers (exec (smpRow 0#1) (running 0#32)) (fun _ => true) = true :=
  ⟨by decide, ⟨rfl, fun h => absurd rfl h⟩, by decide⟩

end Sys2Proof.Tests
end

section
/-! PROOFS. The words of single rows (30_encoding.md R80 to R83) and a step on one of them (00_scope.md R9, 43_host_interface.md R221). -/

namespace Sys2Proof

/-! ### Which rows a bus command decodes to -/

/-- Every well-formed read row is the read row of some address. -/
theorem exists_decodeReadAddr_eq {i : Instr} (hp : partOf i = .read) (hw : i.wf = true) :
    ∃ a, decodeReadAddr a = i := by
  cases i <;> cases hp
  case rdId => exact ⟨0x00#8, rfl⟩
  case rdCtrl => exact ⟨0x04#8, rfl⟩
  case rdStatus => exact ⟨0x08#8, rfl⟩
  case rdBitWidth => exact ⟨0x0C#8, rfl⟩
  case rdSpOffset => exact ⟨0x10#8, rfl⟩
  case rdSampleIdx => exact ⟨0x14#8, rfl⟩
  case rdBitIdx => exact ⟨0x18#8, rfl⟩
  case rdAnchorSample => exact ⟨0x1C#8, rfl⟩
  case rdAnchorBit => exact ⟨0x20#8, rfl⟩
  case rdNextSp => exact ⟨0x24#8, rfl⟩
  case rdFrame => exact ⟨0x28#8, rfl⟩
  case rdOffsets => exact ⟨0x2C#8, rfl⟩
  case rdAcc => exact ⟨0x30#8, rfl⟩
  case rdFieldStart => exact ⟨0x34#8, rfl⟩
  case rdUnmapped38 a => exact ⟨a, by rw [decodeReadAddr, (classOf_eq_unmapped38 a).2 hw]⟩
  case rdUnmapped40 a => exact ⟨a, by rw [decodeReadAddr, (classOf_eq_unmapped40 a).2 hw]⟩
  case rdUnmapped80 a => exact ⟨a, by rw [decodeReadAddr, (classOf_eq_unmapped80 a).2 hw]⟩
  case rdMisaligned01 a => exact ⟨a, by rw [decodeReadAddr, (classOf_eq_misaligned01 a).2 (eq_of_beq hw)]⟩
  case rdMisaligned10 a => exact ⟨a, by rw [decodeReadAddr, (classOf_eq_misaligned10 a).2 (eq_of_beq hw)]⟩
  case rdMisaligned11 a => exact ⟨a, by rw [decodeReadAddr, (classOf_eq_misaligned11 a).2 (eq_of_beq hw)]⟩

/-- Every well-formed write row is the write row of some address and data. -/
theorem exists_decodeWriteAddr_eq {i : Instr} (hp : partOf i = .write) (hw : i.wf = true) :
    ∃ a v, decodeWriteAddr a v = i := by
  cases i <;> cases hp
  case wrId v => exact ⟨0x00#8, v, rfl⟩
  case wrCtrl v => exact ⟨0x04#8, v, rfl⟩
  case wrStatus v => exact ⟨0x08#8, v, rfl⟩
  case wrBitWidth v => exact ⟨0x0C#8, v, rfl⟩
  case wrSpOffset v => exact ⟨0x10#8, v, rfl⟩
  case wrSampleIdx v => exact ⟨0x14#8, v, rfl⟩
  case wrBitIdx v => exact ⟨0x18#8, v, rfl⟩
  case wrAnchorSample v => exact ⟨0x1C#8, v, rfl⟩
  case wrAnchorBit v => exact ⟨0x20#8, v, rfl⟩
  case wrNextSp v => exact ⟨0x24#8, v, rfl⟩
  case wrFrame v => exact ⟨0x28#8, v, rfl⟩
  case wrOffsets v => exact ⟨0x2C#8, v, rfl⟩
  case wrAcc v => exact ⟨0x30#8, v, rfl⟩
  case wrFieldStart v => exact ⟨0x34#8, v, rfl⟩
  case wrUnmapped38 a v => exact ⟨a, v, by rw [decodeWriteAddr, (classOf_eq_unmapped38 a).2 hw]⟩
  case wrUnmapped40 a v => exact ⟨a, v, by rw [decodeWriteAddr, (classOf_eq_unmapped40 a).2 hw]⟩
  case wrUnmapped80 a v => exact ⟨a, v, by rw [decodeWriteAddr, (classOf_eq_unmapped80 a).2 hw]⟩
  case wrMisaligned01 a v => exact ⟨a, v, by rw [decodeWriteAddr, (classOf_eq_misaligned01 a).2 (eq_of_beq hw)]⟩
  case wrMisaligned10 a v => exact ⟨a, v, by rw [decodeWriteAddr, (classOf_eq_misaligned10 a).2 (eq_of_beq hw)]⟩
  case wrMisaligned11 a v => exact ⟨a, v, by rw [decodeWriteAddr, (classOf_eq_misaligned11 a).2 (eq_of_beq hw)]⟩

/-! ### The rows of a row's own word -/

/-- A lone read decodes to its row and the absent beat. -/
theorem decodeRows_readWord (a : RegAddr) : decodeRows (readWord a) = [decodeReadAddr a, .nos] := by
  simp [decodeRows, readWord, cycleRows, busRowsBefore, busRowsAfter, decodeRead, decodeWrite, decodeBeat]

/-- A lone write decodes to the absent beat and its row. -/
theorem decodeRows_writeWord (a : RegAddr) (v : Word) :
    decodeRows (writeWord a v) = [.nos, decodeWriteAddr a v] := by
  simp [decodeRows, writeWord, cycleRows, busRowsBefore, busRowsAfter, decodeRead, decodeWrite, decodeBeat]

theorem decodeHandler_of_le {c : FdCode} (hc : 12 ≤ c.toNat) : decodeHandler c = .fdReserved12 c := by
  revert c; decide

/-- The word of a well-formed row decodes to that row, beside the idle rows of its cycle. -/
theorem decodeRows_encode {i : Instr} (hw : i.wf = true) : decodeRows (encode i) = withIdleParts i := by
  cases hp : partOf i
  case beat => cases i <;> cases hp <;> rfl
  case idleBus => cases i <;> cases hp; rfl
  case read =>
    obtain ⟨a, rfl⟩ := exists_decodeReadAddr_eq hp hw
    rw [encode_decodeReadAddr, decodeRows_readWord, withIdleParts, hp]
  case write =>
    obtain ⟨a, v, rfl⟩ := exists_decodeWriteAddr_eq hp hw
    rw [encode_decodeWriteAddr, decodeRows_writeWord, withIdleParts, hp]
  case handler =>
    cases i <;> cases hp
    case fdReserved12 c => exact congrArg (fun j => [j]) (decodeHandler_of_le (of_decide_eq_true hw))
    all_goals rfl

end Sys2Proof

namespace Sys2Proof.Machine

open Sys2Proof

/-! ### Idle rows -/

@[simp] theorem exec_nos (s : State) : exec .nos s = .next s := rfl

@[simp] theorem exec_nop (s : State) : exec .nop s = .next s := rfl

/-- The idle rows beside a row add nothing to its meaning. -/
theorem runRows_withIdleParts (i : Instr) (s : State) : runRows (withIdleParts i) s = exec i s := by
  have hrow : runRows [i] s = exec i s := andThen_next_right _
  have hnos : runRows [.nos] = .next := by funext t; simp
  unfold withIdleParts
  split
  case h_1 | h_4 => simpa using hrow
  case h_2 | h_3 => rw [runRows_cons, hnos, andThen_next_right]
  case h_5 => exact hrow

/-! ### The step on a cycle without reset -/

/-- Settles O6: the step takes the first input, and a cycle without reset is its decoded rows run on the
state with cleared outputs. -/
theorem stepRunsTheDecodedRows : Obligations.StepRunsTheDecodedRows := by
  intro s w rest h
  have hn : nextInput s = ⟨false, w⟩ := by rw [nextInput, h]; rfl
  have ht : takeInput s = { s with inputs := rest } := by rw [takeInput, h]; rfl
  rw [step, hn, ht]
  rfl

/-- Settles O7: by O6 the step runs the rows that the row's own word decodes to, which are the row and idle
ones. -/
theorem stepOfOneRowIsItsExec : Obligations.StepOfOneRowIsItsExec := by
  intro i w s rest hw he h
  have hrows : cycleRows w = withIdleParts i := by
    rw [← decodeRows_encode hw, he]; rfl
  rw [stepRunsTheDecodedRows s w rest h, hrows, runRows_withIdleParts]

end Sys2Proof.Machine
end

section
/-! PROOFS. The family of 10_state.md: what a sample leaves alone (R23, R123), the invariant at reset and across a step, and R37 of every reachable state. -/

namespace Sys2Proof.Machine

open Sys2Proof

/-! ### What a sample leaves alone -/

/-- Settles O28: a discarded sample changes nothing; an accepted one leaves control as the BitSampler's action
leaves it, and its count touches only the level and the sample index. -/
theorem sampleLeavesControlAlone : Obligations.SampleLeavesControlAlone := by
  intro s t L h
  rw [exec_smpRow] at h
  rcases sampleStep_next h with ⟨-, rfl⟩ | ⟨-, u, -, c, rfl⟩
  · exact ⟨rfl, rfl, rfl, rfl, rfl, rfl⟩
  · exact ⟨c.en, c.cfgErr, c.bitWidth, c.spOffset, c.rdata, c.inputs⟩

/-! ### The invariant, by the kind of state -/

/-- The datapath clauses of the invariant: what a running machine has to keep across a sample. -/
def DatapathInOrder (s : State) : Prop :=
  (s.bsState = .idle → frameEnd s = s) ∧ (s.bsState = .sync → InFrame s)

theorem bsState_of_frameEnd_eq {s : State} (h : frameEnd s = s) : s.bsState = .idle :=
  (congrArg State.bsState h).symm

theorem datapathInOrder_of_frameEnd {s : State} (h : frameEnd s = s) : DatapathInOrder s :=
  ⟨fun _ => h, fun hb => absurd ((bsState_of_frameEnd_eq h).symm.trans hb) (by decide)⟩

theorem datapathInOrder_of_inFrame {s : State} (hb : s.bsState = .sync) (h : InFrame s) : DatapathInOrder s :=
  ⟨fun hi => absurd (hb.symm.trans hi) (by decide), fun _ => h⟩

theorem frameEnd_eq_of_datapathReset {s : State} (h : datapathReset s = s) : frameEnd s = s := by
  rw [← h, frameEnd_datapathReset]

/-- A machine with its datapath at reset values keeps the invariant if its control bits do. -/
theorem inv_of_datapathReset {s : State} (h : datapathReset s = s)
    (hw : s.run = true → minBitWidth.toNat ≤ s.bitWidth.toNat) (he : s.en = false → s.cfgErr = false) : s.Inv :=
  ⟨hw, he, fun _ => h, datapathInOrder_of_frameEnd (frameEnd_eq_of_datapathReset h)⟩

/-- A running machine keeps the invariant if its bit width and its datapath do. -/
theorem inv_of_run {s : State} (hr : s.run = true) (hw : minBitWidth.toNat ≤ s.bitWidth.toNat)
    (hd : DatapathInOrder s) : s.Inv := by
  have hc := (run_eq_true s).1 hr
  exact ⟨fun _ => hw, fun _ => hc.2, fun h => absurd (hr.symm.trans h) (by decide), hd⟩

/-- Settles O54: a reset leaves the machine disabled, its datapath at its reset values. -/
theorem invariantAtReset : Obligations.InvariantAtReset := by
  intro ins
  exact inv_of_datapathReset rfl (fun hr => by cases hr) fun _ => rfl

/-- The outputs and the coming inputs play no part in the invariant. -/
theorem inv_withPorts_clearRecords {s : State} (r : Word) (ins : List CycleInput) (h : s.Inv) :
    (withPorts r ins (clearRecords s)).Inv := by
  obtain ⟨hw, he, hreset, hidle, hsync⟩ := h
  exact ⟨hw, he, fun hr => congrArg (fun u => withPorts r ins (clearRecords u)) (hreset hr),
    fun hb => congrArg (fun u => withPorts r ins (clearRecords u)) (hidle hb), hsync⟩

/-! ### The invariant across a sample -/

theorem frameInOrder_of_inFrame {s : State} (h : InFrame s) : FrameInOrder s := by
  obtain ⟨-, -, hO⟩ := h
  exact hO

/-- A frame in order whose awaited sample point lies after the current sample stays in progress past its count. -/
theorem inFrame_sampleEnd {L : Level} {n : Word} {s : State} (hF : FrameInOrder s)
    (ha : s.anchorB.toNat ≤ s.rawIdx.toNat) (hp : (n.toNat : Int) + 1 ≤ exactSp s s.rawIdx) :
    InFrame (sampleEnd L n s) := by
  have hwrap : (n + 1#32).toNat ≤ n.toNat + 1 := by rw [BitVec.toNat_add]; exact Nat.mod_le _ _
  refine ⟨ha, ?_, hF⟩
  show ((n + 1#32).toNat : Int) ≤ exactSp s s.rawIdx
  omega

/-- A frame that takes no bit waits on, since its sample point is still to come. -/
theorem wait_keepsDatapath (L : Level) {s : State} (hb : s.bsState = .sync) (hF : InFrame s)
    (hn : sp s s.rawIdx ≠ s.sampIdx) : DatapathInOrder (sampleEnd L s.sampIdx s) := by
  obtain ⟨ha, hp, hO⟩ := hF
  have hne := exactSp_ne s s.rawIdx hn
  exact datapathInOrder_of_inFrame hb (inFrame_sampleEnd hO ha (by omega))

/-- A raw bit taken ends the frame, or moves its sample point one bit, so at least one sample, on (R122). -/
theorem takeBit_keepsDatapath {L : Level} {s t : State} (hb : s.bsState = .sync) (hF : InFrame s)
    (hw : minBitWidth.toNat ≤ s.bitWidth.toNat) (h : takeBit L s = .next t) :
    DatapathInOrder (sampleEnd L s.sampIdx t) := by
  have o := (takeBit_outside h).1
  rcases takeBit_keepsFrame (frameInOrder_of_inFrame hF) h with ⟨hend, -⟩ | ⟨htb, htr, htF⟩
  · exact datapathInOrder_of_frameEnd (congrArg (sampleEnd L s.sampIdx) hend)
  · obtain ⟨ha, hp, hraw, -⟩ := hF
    have hsucc : t.rawIdx.toNat = s.rawIdx.toNat + 1 := by rw [htr, idx_succ_toNat _ (by omega)]
    have hsp : exactSp t t.rawIdx = exactSp s t.rawIdx := by
      rw [exactSp, exactSp, o.anchorS, o.anchorB, o.bitWidth, o.spOffset]
    have hlater := exactSp_succ s s.rawIdx t.rawIdx hsucc hw
    have hta : t.anchorB.toNat = s.anchorB.toNat := by rw [o.anchorB]
    exact datapathInOrder_of_inFrame (htb.trans hb) (inFrame_sampleEnd htF (by omega) (by omega))

/-- A forced resynchronisation begins a frame in order, every field at its reset value (R126). -/
theorem inFrame_forcedResync {s : State} (h : frameEnd s = s) : InFrame (forcedResync s) := by
  rw [← h]
  refine ⟨Nat.le_refl _, ?_, Nat.zero_le _, rfl, (fieldPosition_0 rfl).2 ⟨rfl, rfl, ⟨rfl, rfl, rfl, rfl, rfl⟩, rfl⟩,
    by show (0#32).toNat < 2 ^ 21; decide, fun hp => absurd hp (Nat.lt_irrefl 0)⟩
  have e : exactSp (forcedResync (frameEnd s)) 0#16 = _ := exactSp_anchor (frameEnd s) s.sampIdx 0#16
  show (s.sampIdx.toNat : Int) ≤ exactSp (forcedResync (frameEnd s)) 0#16
  omega

/-- A soft resynchronisation moves the anchor to the awaited bit and leaves the frame as it is (R128). -/
theorem inFrame_softResync {s : State} (h : FrameInOrder s) : InFrame (softResync s) := by
  refine ⟨Nat.le_refl _, ?_, h⟩
  have e : exactSp (softResync s) s.rawIdx = _ := exactSp_anchor s s.sampIdx s.rawIdx
  show (s.sampIdx.toNat : Int) ≤ exactSp (softResync s) s.rawIdx
  omega

/-- An offset of a sample or more puts the new sample point after the edge (R129). -/
theorem sp_recordEdge_ne {s : State} {n : Word} {b : BitIdx} (ho : 65536 ≤ s.spOffset.toNat) :
    sp (recordEdge n b s) b ≠ n := by
  rw [ne_eq, sp_recordEdge_eq_iff]
  omega

/-- Whatever the BitSampler does with an accepted sample, the datapath is in order once it is counted. -/
theorem sampleBody_keepsDatapath {L : Level} {s t : State} (hw : minBitWidth.toNat ≤ s.bitWidth.toNat)
    (hd : DatapathInOrder s) (h : sampleBody L s = .next t) : DatapathInOrder (sampleEnd L s.sampIdx t) := by
  obtain ⟨hidle, hsync⟩ := hd
  have a := sampleBody_action L s
  rw [h] at a
  generalize ho : (Host.Outcome.next t : Result) = o at a
  cases a
  case quietIdle hb _ =>
    cases ho
    exact datapathInOrder_of_frameEnd (congrArg (sampleEnd L s.sampIdx) (hidle hb))
  case quietSync hb hn _ =>
    cases ho
    exact wait_keepsDatapath L hb (hsync hb) hn
  case forced hb _ hoff =>
    cases ho
    exact wait_keepsDatapath L rfl (inFrame_forcedResync (hidle hb)) (sp_recordEdge_ne (s := s) hoff)
  case soft hb _ _ hoff =>
    cases ho
    exact wait_keepsDatapath L hb (inFrame_softResync (frameInOrder_of_inFrame (hsync hb)))
      (sp_recordEdge_ne (s := s) hoff)
  case take hb _ => exact takeBit_keepsDatapath hb (hsync hb) hw ho.symm
  case forcedTake hb _ _ =>
    exact takeBit_keepsDatapath (s := forcedResync s) rfl (inFrame_forcedResync (hidle hb)) hw ho.symm
  case softTake hb _ _ _ =>
    exact takeBit_keepsDatapath (s := softResync s) hb
      (inFrame_softResync (frameInOrder_of_inFrame (hsync hb))) hw ho.symm

/-- A sample keeps the invariant. -/
theorem sampleStep_inv {L : Level} {s t : State} (hi : s.Inv) (h : sampleStep L s = .next t) : t.Inv := by
  rcases sampleStep_next h with ⟨-, rfl⟩ | ⟨hr, u, hu, c, rfl⟩
  · exact hi
  · obtain ⟨hw, -, -, hd⟩ := hi
    have hrun : u.run = s.run := by rw [State.run, State.run, c.en, c.cfgErr]
    have hwu : minBitWidth.toNat ≤ u.bitWidth.toNat := by rw [c.bitWidth]; exact hw hr
    exact inv_of_run (hrun.trans hr) hwu (sampleBody_keepsDatapath (hw hr) hd hu)

/-! ### The invariant across a register write -/

/-- A disabled machine has no configuration error and its datapath at its reset values. -/
theorem disabled_of_inv {s : State} (hi : s.Inv) (he : s.en = false) :
    s.cfgErr = false ∧ datapathReset s = s := by
  obtain ⟨-, herr, hreset, -⟩ := hi
  exact ⟨herr he, hreset ((run_eq_false s).2 (.inl he))⟩

/-- A CTRL write keeps the invariant: it disables, does nothing, or enables a machine at its reset values, into
an error where the bit width is too narrow (R224, R252). -/
theorem ctrlWrite_inv {v : Word} {s : State} (hi : s.Inv) : (ctrlWrite v s).Inv := by
  rcases ctrlWrite_cases v s with ⟨-, e⟩ | ⟨-, -, e⟩ | ⟨-, he, -, e⟩ | ⟨-, he, hn, e⟩ <;> rw [e]
  · exact inv_of_datapathReset (datapathReset_disable s) (fun hr => by cases hr) fun _ => rfl
  · exact hi
  · obtain ⟨-, hreset⟩ := disabled_of_inv hi he
    exact inv_of_datapathReset (congrArg (fun u : State => { u with en := true, cfgErr := true }) hreset)
      (fun hr => by cases hr) fun hf => by cases hf
  · obtain ⟨-, hreset⟩ := disabled_of_inv hi he
    have hwide : minBitWidth.toNat ≤ s.bitWidth.toNat := Nat.not_lt.1 (of_decide_eq_false hn)
    exact inv_of_datapathReset (congrArg (fun u : State => { u with en := true }) hreset)
      (fun _ => hwide) fun hf => by cases hf

/-- A register write keeps the invariant: the configuration changes only while disabled (R226, R227). -/
theorem regWrite_inv {a : RegAddr} {v : Word} {s : State} (hi : s.Inv) : (regWrite a v s).Inv := by
  have hrun {u : State} (he : u.en = false) : ¬ u.run = true := by rw [(run_eq_false u).2 (.inl he)]; decide
  rcases regWrite_cases a v s with e | ⟨-, e⟩ | ⟨-, he, e⟩ | ⟨-, he, e⟩ <;> rw [e]
  · exact hi
  · exact ctrlWrite_inv hi
  · obtain ⟨herr, hreset⟩ := disabled_of_inv hi he
    exact inv_of_datapathReset (congrArg (fun u : State => { u with bitWidth := v }) hreset)
      (fun hr => absurd hr (hrun he)) fun _ => herr
  · obtain ⟨herr, hreset⟩ := disabled_of_inv hi he
    exact inv_of_datapathReset (congrArg (fun u : State => { u with spOffset := v }) hreset)
      (fun hr => absurd hr (hrun he)) fun _ => herr

theorem samplePart_inv {w : CycleWord} {s t : State} (hi : s.Inv) (h : samplePart w s = .next t) : t.Inv := by
  rcases samplePart_next h with ⟨-, rfl⟩ | ⟨-, hs⟩
  · exact hi
  · exact sampleStep_inv hi hs

theorem writePart_inv {w : CycleWord} {s : State} (hi : s.Inv) : (writePart w s).Inv := by
  unfold writePart
  split
  · exact regWrite_inv hi
  · exact hi

/-- Settles O55: a reset establishes the invariant; in every other cycle the sample keeps it, then the write. -/
theorem stepKeepsInvariant : Obligations.StepKeepsInvariant := by
  intro s t hi h
  rcases step_next h with ⟨-, rfl⟩ | ⟨-, u, hu, rfl⟩
  · exact invariantAtReset _
  · exact writePart_inv (samplePart_inv (inv_withPorts_clearRecords _ _ hi) hu)

/-! ### R37 from the invariant -/

/-- The invariant holds of every reachable state. -/
theorem Reachable.inv {s : State} (h : Reachable s) : s.Inv := by
  induction h with
  | reset ins => exact invariantAtReset ins
  | step _ hstep ih => exact stepKeepsInvariant _ _ ih hstep

/-- The awaited logical index is never ahead of the raw index (R37 item 4). -/
theorem logOfRaw_le_self (r : Nat) : logOfRaw r ≤ r := by
  unfold logOfRaw
  split <;> omega

/-- A state as a frame end leaves it has everything R37 speaks of at 0. -/
theorem specInvariants_of_frameEnd {s : State} (h : frameEnd s = s) : SpecInvariants s ∧ IndexBounds s := by
  have hraw : s.rawIdx = 0#16 := (congrArg State.rawIdx h).symm
  have hlog : s.logIdx = 0#16 := (congrArg State.logIdx h).symm
  have hfd : s.fdState = 0#4 := (congrArg State.fdState h).symm
  have hcnt : s.byteCnt = 0#7 := (congrArg State.byteCnt h).symm
  have hbytes : s.nbytes = 0#7 := (congrArg State.nbytes h).symm
  have hnot : ¬ s.bsState = .sync := by rw [bsState_of_frameEnd_eq h]; decide
  refine ⟨⟨fun _ => ⟨hraw, hlog, hfd⟩, ⟨fun _ => hlog, fun _ => hfd⟩, fun hb => absurd hb hnot, ?_, ?_⟩, ?_⟩
  · simp [LogicalWithinRaw, hraw]
  · simp [BytesWithinLength, hcnt, hbytes]
  · simp [IndexBounds, hraw, hlog]

/-- Only AWAIT_SOF awaits logical bit 0 (R37 item 2). -/
theorem awaitIffNoBit_of_fieldPosition {s : State} (h : FieldPosition s) : AwaitIffNoBit s := by
  obtain ⟨hcode, -, -, -, -, h0, h1, h2, h3, h4, h5, -, h6, h7, h8, h9, h10⟩ := h
  refine ⟨h0, fun hlog => ?_⟩
  simp only [hlog, crcEnd, ← BitVec.toNat_inj, BitVec.toNat_ofNat] at *
  omega

/-- The bytes completed are at most the bytes of the field, and those at most 64 (R37 item 5). -/
theorem bytesWithinLength_of_fieldPosition {s : State} (h : FieldPosition s) : BytesWithinLength s := by
  obtain ⟨-, -, -, hno, hlay, -, -, -, -, -, h5, hcnt, -⟩ := h
  by_cases h4 : s.fdState.toNat ≤ 4
  · obtain ⟨-, hbytes, hcount, -⟩ := hno h4
    simp [BytesWithinLength, hbytes, hcount]
  · have hl := hlay (by omega)
    have hmax := (layout_bounds hl).1
    obtain ⟨-, -, -, hlast⟩ := hl
    refine ⟨?_, hmax⟩
    by_cases h6 : 6 ≤ s.fdState.toNat
    · have hc := hcnt h6
      omega
    · obtain ⟨-, hle, hD, hc⟩ := h5 (BitVec.eq_of_toNat_eq (by show s.fdState.toNat = 5; omega))
      omega

/-- A frame in progress has the invariants of R37 and the bounds of R190. -/
theorem specInvariants_of_inFrame {s : State} (hb : s.bsState = .sync) (h : InFrame s) :
    SpecInvariants s ∧ IndexBounds s := by
  obtain ⟨ha, hp, hraw, hlog, hpos, -⟩ := h
  have hself := logOfRaw_le_self s.rawIdx.toNat
  have hmax := logOfRaw_le hraw
  refine ⟨⟨fun hi => ?_, awaitIffNoBit_of_fieldPosition hpos, fun _ => ⟨ha, hp⟩, fun _ => by omega,
    bytesWithinLength_of_fieldPosition hpos⟩, by omega, by omega⟩
  rw [hb] at hi
  cases hi

/-- Settles O58: every reachable state has the invariant of O55, and so is idle as a frame end leaves it or in
a frame in order. -/
theorem reachableStatesKeepR37 : Obligations.ReachableStatesKeepR37 := by
  intro s h
  obtain ⟨-, -, -, hidle, hsync⟩ := h.inv
  cases hb : s.bsState with
  | idle =>
    obtain ⟨hspec, hbounds⟩ := specInvariants_of_frameEnd (hidle hb)
    exact ⟨hspec, hbounds, fun hs => by cases hs⟩
  | sync =>
    have hF := hsync hb
    obtain ⟨hspec, hbounds⟩ := specInvariants_of_inFrame hb hF
    obtain ⟨-, -, -, hlog, -⟩ := hF
    exact ⟨hspec, hbounds, fun _ => hlog⟩

end Sys2Proof.Machine
end

section
/-! PROOFS. The family of 20_memory.md: accesses that name no register (R65, R66), read-only registers and the reserved bits of CTRL (R66). -/

namespace Sys2Proof.Machine

open Sys2Proof

/-! ### Addresses that name no register -/

/-- A misaligned address, or one at or above 0x38, is none of the registers of Table M (R69). -/
theorem ne_register {a r : RegAddr} (h : a.toNat % 4 ≠ 0 ∨ 0x38 ≤ a.toNat)
    (hr : r.toNat % 4 = 0 ∧ r.toNat < 0x38) : a ≠ r := by
  rintro rfl
  omega

/-- Where no register is, a read gives 0. -/
theorem regRead_of_noRegister {a : RegAddr} (h : a.toNat % 4 ≠ 0 ∨ 0x38 ≤ a.toNat) (s : State) :
    regRead a s = 0#32 := by
  simp (disch := decide) only [regRead, ne_register h, if_false, ite_self]

/-- Only CTRL, BIT_WIDTH and SP_OFFSET take a write (R237). -/
theorem regWrite_of_notWritable {a : RegAddr} (h : a ∉ [addrCtrl, addrBitWidth, addrSpOffset]) (v : Word)
    (s : State) : regWrite a v s = s := by
  simp only [List.mem_cons, List.not_mem_nil, or_false, not_or] at h
  obtain ⟨hctrl, hwidth, hoffset⟩ := h
  rcases regWrite_cases a v s with e | ⟨ha, -⟩ | ⟨ha, -⟩ | ⟨ha, -⟩
  · exact e
  · exact absurd ha hctrl
  · exact absurd ha hwidth
  · exact absurd ha hoffset

/-- Where no register is, a write changes nothing. -/
theorem regWrite_of_noRegister {a : RegAddr} (h : a.toNat % 4 ≠ 0 ∨ 0x38 ≤ a.toNat) (v : Word) (s : State) :
    regWrite a v s = s := by
  apply regWrite_of_notWritable
  simp (disch := decide) only [List.mem_cons, List.not_mem_nil, ne_register h, or_self, not_false_iff]

/-- The read and the write row of an address where no register is: what the rows of all its classes do. -/
theorem busRows_of_noRegister {a : RegAddr} (h : a.toNat % 4 ≠ 0 ∨ 0x38 ≤ a.toNat) (v : Word) (s : State) :
    (.next (busRead a s) : Result) = .next { s with rdata := 0#32 } ∧
    (.next (regWrite a v s) : Result) = .next s := by
  rw [busRead, regRead_of_noRegister h, regWrite_of_noRegister h]
  exact ⟨rfl, rfl⟩

/-- Settles O11: the rows of the three misaligned classes are accesses where no register is. -/
theorem misalignedAccessIsHarmless : Obligations.MisalignedAccessIsHarmless := by
  intro a v s
  refine ⟨fun h => ?_, fun h => ?_, fun h => ?_⟩
  all_goals exact busRows_of_noRegister (.inl (by omega)) v s

/-! ### The reserved bits of CTRL -/

/-- CTRL reads as the bit `en` (R224). -/
theorem ctrlWord_eq (s : State) : ctrlWord s = if s.en then 1#32 else 0#32 := by
  unfold ctrlWord
  cases s.en <;> decide

/-- A CTRL write sees bit 0 of the word alone (R224). -/
theorem ctrlWrite_and_one (v : Word) (s : State) : ctrlWrite (v &&& 1#32) s = ctrlWrite v s := by
  have hmask : (v &&& 1#32).toNat = v.toNat % 2 := toNat_and_mask v 1 (by decide)
  have hbit : (v &&& 1#32).extractLsb' 0 1 = 0#1 ↔ v.extractLsb' 0 1 = 0#1 := by
    rw [bit0_eq_zero, bit0_eq_zero, hmask, Nat.mod_mod]
  unfold ctrlWrite
  simp only [hbit]

/-! ### Unmapped addresses, read-only registers and reserved bits -/

/-- The write of a read-only register changes nothing (R66, R237). -/
theorem exec_readOnlyWrite (v : Word) (s : State) :
    ∀ i ∈ [Instr.wrId v, .wrStatus v, .wrSampleIdx v, .wrBitIdx v, .wrAnchorSample v, .wrAnchorBit v,
      .wrNextSp v, .wrFrame v, .wrOffsets v, .wrAcc v, .wrFieldStart v], exec i s = .next s := by
  intro i hi
  fin_cases hi
  all_goals exact congrArg Host.Outcome.next (regWrite_of_notWritable (by decide) v s)

/-- Settles O12: the unmapped classes are accesses where no register is, a read-only register is not one of the
three that take a write, and CTRL reads and writes bit 0 alone. -/
theorem unmappedAndReadOnlyAccessIsHarmless : Obligations.UnmappedAndReadOnlyAccessIsHarmless := by
  intro a v s
  have harmless (hlow : 0x38 ≤ a.toNat) := busRows_of_noRegister (.inr hlow) v s
  refine ⟨fun ⟨_, hlow, _⟩ => harmless hlow, fun ⟨_, hlow, _⟩ => harmless (by omega),
    fun ⟨_, hlow⟩ => harmless (by omega), exec_readOnlyWrite v s,
    congrArg Host.Outcome.next (ctrlWrite_and_one v s).symm, ctrlWord s, rfl, ?_⟩
  rw [ctrlWord_eq]
  cases s.en <;> decide

end Sys2Proof.Machine
end

section
/-! PROOFS. The family of 30_encoding.md: rows and their words (R80 to R83, R102), the length tables (R91, R92), and where a step can refuse (R83, R253). -/

namespace Sys2Proof

/-! ### The rows of a word -/

theorem mem_withIdleParts (i : Instr) : i ∈ withIdleParts i := by
  unfold withIdleParts
  split <;> simp

/-- Settles O1: the row's own word decodes to the row beside idle ones, and the row is among those. -/
theorem rowsRoundTrip : Obligations.RowsRoundTrip := by
  intro i hw
  rw [decodeRows_encode hw]
  exact ⟨rfl, mem_withIdleParts i⟩

/-- The rows of a cycle word, by its `re` and `we` bits. -/
theorem cycleRows_eq (w : CycleWord) :
    cycleRows w =
      (if CycleWord.re w = 1#1 then [decodeReadAddr (CycleWord.addr w)]
        else if CycleWord.we w = 1#1 then [] else [.nop]) ++
      decodeBeat w ::
        (if CycleWord.we w = 1#1 then [decodeWriteAddr (CycleWord.addr w) (CycleWord.wdata w)] else []) := by
  unfold cycleRows busRowsBefore busRowsAfter decodeRead decodeWrite
  split_ifs <;> rfl

theorem mem_cycleRows {w : CycleWord} {i : Instr} (h : i ∈ cycleRows w) :
    i = .nop ∨ i = decodeBeat w ∨ i = decodeReadAddr (CycleWord.addr w) ∨
      i = decodeWriteAddr (CycleWord.addr w) (CycleWord.wdata w) := by
  rw [cycleRows_eq] at h
  split_ifs at h <;> simp at h <;> tauto

/-- How many rows of each part a cycle word has. -/
theorem length_filter_cycleRows (w : CycleWord) :
    ((cycleRows w).filter fun i => partOf i = .beat).length = 1 ∧
    ((cycleRows w).filter fun i => partOf i = .read).length = (CycleWord.re w).toNat ∧
    ((cycleRows w).filter fun i => partOf i = .write).length = (CycleWord.we w).toNat := by
  have hbeat := (decodeBeat_wf w).2
  have hnop : partOf .nop = .idleBus := rfl
  rcases level_cases (CycleWord.re w) with hr | hr <;> rcases level_cases (CycleWord.we w) with hw | hw <;>
    simp [cycleRows_eq, hr, hw, hnop, hbeat, decodeReadAddr_part, decodeWriteAddr_part]

/-- Settles O3: a row of a cycle word is `NOP`, the beat, or the read or write row of its address, and each of
them is well formed and no handler. -/
theorem noCycleWordIsIllegal : Obligations.NoCycleWordIsIllegal := by
  intro w
  refine ⟨fun i hi => ?_, length_filter_cycleRows w⟩
  rcases mem_cycleRows hi with rfl | rfl | rfl | rfl
  · exact ⟨rfl, by decide⟩
  · obtain ⟨hwf, hpart⟩ := decodeBeat_wf w
    exact ⟨hwf, by rw [hpart]; decide⟩
  · exact ⟨decodeReadAddr_wf _, by rw [decodeReadAddr_part]; decide⟩
  · exact ⟨decodeWriteAddr_wf _ _, by rw [decodeWriteAddr_part]; decide⟩

/-! ### The words of the rows, laid together -/

/-- A row with a cycle word lays that word over the others. -/
theorem overlayRows_cons {i : Instr} {w : CycleWord} (h : encode i = .cycle w) (is : List Instr) :
    overlayRows (i :: is) = w ||| overlayRows is := by
  rw [overlayRows, h]

/-- The words of a word's rows fill disjoint fields, but for the address, which a read and a write share. -/
theorem overlayRows_cycleRows (w : CycleWord) : overlayRows (cycleRows w) = CycleWord.canonical w := by
  have hread := overlayRows_cons (encode_decodeReadAddr (CycleWord.addr w))
  have hwrite := overlayRows_cons (encode_decodeWriteAddr (CycleWord.addr w) (CycleWord.wdata w))
  have hbeat := overlayRows_cons (encode_decodeBeat w)
  have hnop := overlayRows_cons (i := .nop) rfl
  have hnil : overlayRows [] = CycleWord.make 0#1 0#1 0#1 0#1 0#8 0#32 := rfl
  rcases level_cases (CycleWord.re w) with hr | hr <;> rcases level_cases (CycleWord.we w) with hw | hw <;>
    simp [cycleRows_eq, hr, hw, hread, hwrite, hbeat, hnop, hnil, make_or, CycleWord.canonical]

/-- No row depends on a bit that its part ignores. -/
theorem cycleRows_canonical (w : CycleWord) : cycleRows (CycleWord.canonical w) = cycleRows w := by
  have hbeat : decodeBeat (CycleWord.canonical w) = decodeBeat w := by
    rcases level_cases (CycleWord.sValid w) with hv | hv <;> simp [decodeBeat, CycleWord.canonical, hv]
  rw [cycleRows_eq, cycleRows_eq, hbeat]
  rcases level_cases (CycleWord.re w) with hr | hr <;> rcases level_cases (CycleWord.we w) with hw | hw <;>
    simp [CycleWord.canonical, hr, hw]

/-- Settles O2: the rows give the word back but for its ignored bits, and do not depend on those. -/
theorem noMeaningfulBitDropped : Obligations.NoMeaningfulBitDropped := fun w =>
  ⟨overlayRows_cycleRows w, cycleRows_canonical w⟩

end Sys2Proof

namespace Sys2Proof.Machine

open Sys2Proof

/-! ### The length tables -/

/-- Settles O46, entry by entry. -/
theorem lengthTables : Obligations.LengthTables := by
  have hcrc (n : BitVec 7) : crcLenOf 1#1 n = if n.toNat < 16 then 17#5 else 21#5 := rfl
  exact ⟨by decide, rfl, rfl, rfl, rfl, rfl, rfl, rfl, fun _ => rfl, fun n hn => by rw [hcrc, if_pos hn],
    fun n hn => by rw [hcrc, if_neg (Nat.not_lt.2 hn)]⟩

/-! ### Where a sample refuses -/

/-- A raw bit is refused exactly as a logical bit on a reserved code. -/
theorem exists_takeBit_refused_iff (L : Level) (s : State) :
    (∃ r, takeBit L s = .refused r) ↔ isStuffPos s.rawIdx = false ∧ 11 ≤ s.fdState.toNat := by
  constructor
  · rintro ⟨r, h⟩
    obtain ⟨hpos, hcode, -⟩ := takeBit_refused h
    exact ⟨hpos, hcode⟩
  · rintro ⟨hpos, hcode⟩
    exact ⟨_, takeBit_reserved hpos hcode⟩

/-- A sample is refused exactly where the BitSampler takes a logical bit on a reserved code: in SYNC, or in
IDLE, where the bit is raw bit 0. -/
theorem exists_sampleBody_refused_iff (L : Level) (s : State) :
    (∃ r, sampleBody L s = .refused r) ↔
      11 ≤ s.fdState.toNat ∧
      ((s.bsState = .sync ∧ isStuffPos s.rawIdx = false ∧
          (sp s s.rawIdx = s.sampIdx ∨ (isEdge s.prevLevel L = true ∧ s.spOffset.toNat < 65536))) ∨
        (s.bsState = .idle ∧ L = dominant ∧ s.spOffset.toNat < 65536)) := by
  have a := sampleBody_action L s
  generalize sampleBody L s = o at a
  cases a
  case quietIdle hb hl => simp [hb, hl]
  case quietSync hb hn he => simp [hb, hn, he]
  case forced hb hl ho => simp [hb, Nat.not_lt.2 ho]
  case soft hb hn he ho => simp [hb, hn, Nat.not_lt.2 ho]
  case take hb hn =>
    rw [exists_takeBit_refused_iff]
    simp [hb, hn, and_comm]
  case forcedTake hb hl ho =>
    have hpos : isStuffPos (forcedResync s).rawIdx = false := rfl
    have hcode : (forcedResync s).fdState = s.fdState := rfl
    rw [exists_takeBit_refused_iff, hpos, hcode]
    simp [hb, hl, ho]
  case softTake hb hn he ho =>
    have hpos : (softResync s).rawIdx = s.rawIdx := rfl
    have hcode : (softResync s).fdState = s.fdState := rfl
    rw [exists_takeBit_refused_iff, hpos, hcode]
    simp [hb, hn, he, ho, and_comm]

/-- A sample step refuses exactly where RUN holds and the BitSampler's action does. -/
theorem exists_sampleStep_refused_iff (L : Level) (s : State) :
    (∃ r, sampleStep L s = .refused r) ↔ s.run = true ∧ ∃ r, sampleBody L s = .refused r := by
  cases hr : s.run
  · simp [sampleStep_not_run hr]
  · simp [sampleStep_run hr, andThen_eq_refused]

theorem isEdge_iff (p L : Level) : isEdge p L = true ↔ p = 1#1 ∧ L = 0#1 := by
  rw [isEdge, Bool.and_eq_true, beq_iff_eq, beq_iff_eq]

/-- Settles O52: the reserved rows refuse, and a sample does where the BitSampler takes a logical bit. -/
theorem reservedCodesAreRefused : Obligations.ReservedCodesAreRefused := by
  refine ⟨fun _ => rfl, fun _ _ _ => rfl, fun s L => ?_⟩
  rw [exec_smpRow, exists_sampleStep_refused_iff, exists_sampleBody_refused_iff, run_eq_true, and_assoc,
    isStuffPos_eq_false, isEdge_iff, and_assoc]
  exact ⟨Iff.rfl, fun r h => (sampleStep_refused h).2⟩

/-! ### Where a step refuses -/

/-- A step refuses only in the sample of its cycle, which finds the `fd_state` of the state before the step. -/
theorem exists_sampleStep_of_step_refused {s : State} {r : Refusal} (h : step s = .refused r) :
    ∃ L u, u.fdState = s.fdState ∧ sampleStep L u = .refused r := by
  unfold step at h
  generalize nextInput s = c at h
  obtain ⟨rst, w⟩ := c
  cases rst
  · rw [runCycle_eq, andThen_eq_refused] at h
    rcases h with h | ⟨u, -, hu⟩
    · unfold samplePart at h
      split at h
      · refine ⟨_, _, ?_, h⟩
        rfl
      · cases h
    · cases hu
  · cases h

/-- Settles O57: the refusing sample names the reserved code it finds. -/
theorem onlyReservedCodesRefuse : Obligations.OnlyReservedCodesRefuse := by
  intro s r h
  obtain ⟨L, u, hfd, hs⟩ := exists_sampleStep_of_step_refused h
  rw [← hfd]
  exact sampleStep_refused hs

/-- In a state of the invariant `fd_state` is a code of Table F. -/
theorem fdState_le_of_inv {s : State} (h : s.Inv) : s.fdState.toNat ≤ 10 := by
  obtain ⟨-, -, -, hidle, hsync⟩ := h
  cases hb : s.bsState with
  | idle =>
    have hfd : s.fdState = 0#4 := (congrArg State.fdState (hidle hb)).symm
    rw [hfd]
    decide
  | sync =>
    obtain ⟨-, -, -, -, ⟨hcode, -⟩, -⟩ := hsync hb
    exact hcode

/-- Settles O56: there are no faults, and a refusal needs a reserved code, which the invariant excludes. -/
theorem noInputStopsTheMachine : Obligations.NoInputStopsTheMachine := by
  intro s hi
  cases h : step s with
  | next t => exact ⟨t, rfl⟩
  | fault f => cases f
  | refused r =>
    have hres := (onlyReservedCodesRefuse s r h).1
    have hle := fdState_le_of_inv hi
    omega

end Sys2Proof.Machine
end

section
/-! PROOFS. The family of 40_sample_clock.md: sample points (R120 to R122), and what an accepted sample does in each branch of the BitSampler (R124 to R132). -/

namespace Sys2Proof.Machine

open Sys2Proof

/-! ### Sample points -/

/-- At or after the anchor the exact sample point is the natural-number sum of R120. -/
theorem exactSp_of_anchorB_le {s : State} {b : BitIdx} (h : s.anchorB.toNat ≤ b.toNat) :
    exactSp s b =
      (s.anchorS.toNat +
        (s.bitWidth.toNat * (b.toNat - s.anchorB.toNat) + s.spOffset.toNat) / 65536 : Nat) := by
  rw [exactSp, spExact, ← Int.ofNat_sub h]
  norm_cast

/-- Settles O25: the exact sum is a natural number there, and `sp` is that number mod 2^32. -/
theorem samplePointFormula : Obligations.SamplePointFormula := by
  intro s b h
  rw [sp_eq, exactSp_of_anchorB_le h, BitVec.ofInt_natCast, BitVec.toNat_ofNat]
  rfl

/-- Settles O26, from the sample point at the anchor and the distance of two neighbouring ones. -/
theorem anchorPropertyAndMonotonicity : Obligations.AnchorPropertyAndMonotonicity :=
  ⟨sp_recordEdge, exactSp_succ⟩

/-! ### The rows of a sample, and its count -/

@[simp] theorem exec_smpD (s : State) : exec .smpD s = sampleStep dominant s := rfl

@[simp] theorem exec_smpR (s : State) : exec .smpR s = sampleStep recessive s := rfl

/-- Settles O24: the idle rows have no effect, and a sample needs RUN. -/
theorem idleRowsAndDiscardedSamples : Obligations.IdleRowsAndDiscardedSamples := by
  intro s
  refine ⟨exec_nos s, exec_nop s, fun h => ?_⟩
  have hr := (run_eq_false s).2 h
  rw [exec_smpD, exec_smpR]
  exact ⟨sampleStep_not_run hr, sampleStep_not_run hr⟩

/-- Settles O27: an accepted sample ends with its count. -/
theorem acceptedSampleIsCounted : Obligations.AcceptedSampleIsCounted := by
  intro s t L hen herr h
  have hrun := (run_eq_true s).2 ⟨hen, herr⟩
  rw [exec_smpRow] at h
  rcases sampleStep_next h with ⟨hr, -⟩ | ⟨-, u, -, -, rfl⟩
  · exact absurd (hrun.symm.trans hr) (by decide)
  · exact ⟨rfl, rfl⟩

/-- A sample completes in every state whose `fd_state` is a code of Table F, and leaves such a code. -/
theorem sampleStep_completes (L : Level) {s : State} (h : s.fdState.toNat ≤ 10) :
    ∃ t, sampleStep L s = .next t ∧ t.fdState.toNat ≤ 10 := by
  cases hr : s.run
  · exact ⟨s, sampleStep_not_run hr, h⟩
  · obtain ⟨t, ht, hcode⟩ := sampleBody_completes (L := L) h
    exact ⟨sampleEnd L s.sampIdx t, by rw [sampleStep_run hr, ht, andThen_next], hcode⟩

/-- Settles O29: a sample completes, and what it leaves is as O24 and O27 say. -/
theorem sampleAlwaysCompletes : Obligations.SampleAlwaysCompletes := by
  intro s L h
  obtain ⟨t, ht, hcode⟩ := sampleStep_completes L h
  have hexec := (exec_smpRow L s).trans ht
  refine ⟨t, hexec, hcode, fun hstop => ?_, fun hen herr => acceptedSampleIsCounted s t L hen herr hexec⟩
  rw [sampleStep_not_run ((run_eq_false s).2 hstop)] at ht
  cases ht
  rfl

/-! ### The branches of the BitSampler without a resynchronisation -/

/-- A recessive sample in IDLE has no action (R126). -/
theorem sampleBody_idle_recessive {s : State} (hb : s.bsState = .idle) :
    sampleBody recessive s = .next s := by
  rw [sampleBody_idle _ hb]
  rfl

/-- At the sample point the sample is taken as the bit (R127). -/
theorem sampleBody_take (L : Level) {s : State} (hb : s.bsState = .sync) (hn : sp s s.rawIdx = s.sampIdx) :
    sampleBody L s = takeBit L s := by
  rw [sampleBody_sync _ hb, sampleSync, if_pos hn]

/-- Neither the sample point nor an edge: no action (R130). -/
theorem sampleBody_wait {L : Level} {s : State} (hb : s.bsState = .sync) (hn : sp s s.rawIdx ≠ s.sampIdx)
    (he : isEdge s.prevLevel L = false) : sampleBody L s = .next s := by
  rw [sampleBody_sync _ hb, sampleSync, if_neg hn, he]
  rfl

/-- An accepted sample without an action is only counted. -/
theorem sampleStep_quiet {L : Level} {s : State} (hr : s.run = true) (h : sampleBody L s = .next s) :
    sampleStep L s = .next (sampleEnd L s.sampIdx s) := by
  rw [sampleStep_run hr, h, andThen_next]

/-- Settles O32: such a sample has no action, and is counted. -/
theorem waitForSamplePoint : Obligations.WaitForSamplePoint := by
  intro s L hen herr hb hn he
  rw [← isEdge_iff, Bool.not_eq_true] at he
  rw [exec_smpRow]
  exact sampleStep_quiet ((run_eq_true s).2 ⟨hen, herr⟩) (sampleBody_wait hb hn he)

/-! ### Resynchronisation -/

/-- A dominant sample in `s` resynchronises, and `u` is the re-anchored state: forced in IDLE (R126), soft in SYNC
at a dominant-going edge that is not the sample point (R128). -/
inductive Resync (s : State) : State → Prop where
  | forced (hb : s.bsState = .idle) : Resync s (forcedResync s)
  | soft (hb : s.bsState = .sync) (hn : sp s s.rawIdx ≠ s.sampIdx) (hp : s.prevLevel = recessive) :
      Resync s (softResync s)

namespace Resync

variable {s u : State}

theorem bsState_eq (h : Resync s u) : u.bsState = .sync := by
  cases h with
  | forced => rfl
  | soft hb => exact hb

theorem sampIdx_eq (h : Resync s u) : u.sampIdx = s.sampIdx := by cases h <;> rfl

theorem run_eq (h : Resync s u) : u.run = s.run := by cases h <;> rfl

/-- The re-anchored state decides at once whether the bit it awaits is the sample being processed (R129). -/
theorem sampleBody_eq (h : Resync s u) : sampleBody dominant s = takeIfDue dominant u := by
  cases h with
  | forced hb =>
    rw [sampleBody_idle _ hb]
    rfl
  | soft hb hn hp =>
    rw [sampleBody_sync _ hb, sampleSync, if_neg hn, if_pos ((isEdge_iff _ _).2 ⟨hp, rfl⟩)]
    rfl

/-- The new sample point is the sample itself exactly when the offset is below one sample (R129). -/
theorem sp_eq_iff (h : Resync s u) : sp u u.rawIdx = u.sampIdx ↔ s.spOffset.toNat < 65536 := by
  cases h with
  | forced => exact sp_recordEdge_eq_iff s s.sampIdx 0#16
  | soft => exact sp_recordEdge_eq_iff s s.sampIdx s.rawIdx

/-- With an offset of at least one sample the sample re-anchors, is counted, and does nothing more (R126, R128). -/
theorem sampleStep_of_le (h : Resync s u) (hr : s.run = true) (ho : 65536 ≤ s.spOffset.toNat) :
    sampleStep dominant s = .next (sampleEnd dominant s.sampIdx u) := by
  have hn : ¬ sp u u.rawIdx = u.sampIdx := fun e => Nat.not_lt.2 ho (h.sp_eq_iff.1 e)
  rw [sampleStep_run hr, h.sampleBody_eq, takeIfDue, if_neg hn, andThen_next]

/-- With less, the sample is taken as the bit, as it is from the re-anchored state (R129). -/
theorem sampleStep_of_lt (h : Resync s u) (hr : s.run = true) (ho : s.spOffset.toNat < 65536) :
    sampleStep dominant s = sampleStep dominant u := by
  have hn : sp u u.rawIdx = u.sampIdx := h.sp_eq_iff.2 ho
  have hbody : sampleBody dominant s = sampleBody dominant u := by
    rw [h.sampleBody_eq, takeIfDue, if_pos hn, sampleBody_take _ h.bsState_eq hn]
  rw [sampleStep_run hr, sampleStep_run (h.run_eq.trans hr), hbody, h.sampIdx_eq]

end Resync

/-- Settles O30: a recessive sample has no action; a dominant one forces the resynchronisation. -/
theorem sampleInIdle : Obligations.SampleInIdle := by
  intro s hen herr hb
  have hr := (run_eq_true s).2 ⟨hen, herr⟩
  have hre : Resync s (forcedResync s) := .forced hb
  simp only [exec_smpD, exec_smpR]
  exact ⟨sampleStep_quiet hr (sampleBody_idle_recessive hb), hre.sampleStep_of_le hr, hre.sampleStep_of_lt hr⟩

/-- Settles O31: the anchor property gives the new sample point, and the edge is a soft resynchronisation. -/
theorem softResynchronisation : Obligations.SoftResynchronisation := by
  intro s hen herr hb hn hp
  have hr := (run_eq_true s).2 ⟨hen, herr⟩
  have hre : Resync s (softResync s) := .soft hb hn hp
  simp only [exec_smpD]
  exact ⟨sp_recordEdge s s.sampIdx s.rawIdx, hre.sampleStep_of_le hr, hre.sampleStep_of_lt hr⟩

/-- Settles O33: both kinds of resynchronisation follow the one rule. -/
theorem sameSampleRule : Obligations.SameSampleRule := by
  intro s u hen herr hu
  have hr := (run_eq_true s).2 ⟨hen, herr⟩
  have hre : Resync s u := by
    rcases hu with ⟨hb, rfl⟩ | ⟨hb, hn, hp, rfl⟩
    · exact .forced hb
    · exact .soft hb hn hp
  simp only [exec_smpD]
  exact ⟨hre.sampIdx_eq ▸ hre.sp_eq_iff, hre.sampleStep_of_lt hr⟩

end Sys2Proof.Machine
end

section
/-! PROOFS. The family of 41_destuffing.md: the three classes of a raw bit (R150 to R154), one mark per raw bit (R155), and stuff insertion undone by de-stuffing (R157). -/

namespace Sys2Proof.Machine

open Sys2Proof

/-! ### The three classes of a raw bit, in the sample step -/

/-- An accepted sample at the sample point is the raw bit taken, then the count (R127, R132). -/
theorem sampleStep_take (L : Level) {s : State} (hen : s.en = true) (herr : s.cfgErr = false)
    (hb : s.bsState = .sync) (hn : sp s s.rawIdx = s.sampIdx) :
    sampleStep L s = andThen (takeBit L s) fun t => .next (sampleEnd L s.sampIdx t) := by
  rw [sampleStep_run ((run_eq_true s).2 ⟨hen, herr⟩), sampleBody_take L hb hn]

/-- Settles O34: without the EOD window a stuff position leaves its mark alone. -/
theorem ordinaryStuffBit : Obligations.OrdinaryStuffBit := by
  intro s L hen herr hb hn hgt hmod hw
  have hpos := (isStuffPos_iff s.rawIdx).2 ⟨hgt, hmod⟩
  rw [← isEodWindow_shift, Bool.not_eq_true] at hw
  rw [exec_smpRow, sampleStep_take L hen herr hb hn, takeBit_stuff hpos hw, andThen_next, ← shiftWindow_eq]
  rfl

/-- Settles O35: with the EOD window a stuff position ends the data field in DATA, and elsewhere leaves its mark
alone. -/
theorem eodMarker : Obligations.EodMarker := by
  intro s hen herr hb hn hgt hmod hprev
  have hpos := (isStuffPos_iff s.rawIdx).2 ⟨hgt, hmod⟩
  have hw := (isEodWindow_shift s.win 0#1).2 ⟨hprev, rfl⟩
  rw [exec_smpD, sampleStep_take _ hen herr hb hn, ← shiftWindow_eq]
  by_cases hd : s.fdState = 5#4
  · rw [takeBit_eod_data hpos hw hd, andThen_next, if_pos hd, if_pos hd, if_pos hd]
    rfl
  · rw [takeBit_eod hpos hw hd, andThen_next, if_neg hd, if_neg hd, if_neg hd]
    rfl

/-- Settles O36: the state in which the bit is accumulated is the one a logical bit leaves to its handler. -/
theorem logicalBitRunsItsHandler : Obligations.LogicalBitRunsItsHandler := by
  intro s u L hen herr hb hn hpos hu
  rw [← isStuffPos_eq_false] at hpos
  rw [← shiftWindow_eq] at hu
  have hbefore : beforeHandler L s = u := hu.symm
  rw [exec_smpRow, sampleStep_take L hen herr hb hn, takeBit_logical hpos, hbefore]
  rfl

/-! ### Where a raw bit leaves the BitSampler -/

/-- A raw bit ends the frame, or is the newest of the window and leaves the next raw index awaited (R131, R150). -/
theorem takeBit_place {L : Level} {s t : State} (h : takeBit L s = .next t) :
    frameEnd t = t ∨
    (t.bsState = s.bsState ∧ t.rawIdx = s.rawIdx + 1#16 ∧ t.win = shiftWindow s.win L) := by
  cases hr : isStuffPos s.rawIdx
  · rw [takeBit_logical hr] at h
    obtain ⟨a, f, hacc⟩ := accumulate_eq (beforeHandler L s)
    rw [hacc] at h
    rcases handler_place h with ⟨hbs, hraw, -, hwin⟩ | ⟨-, hend⟩
    · exact .inr ⟨hbs, hraw, hwin⟩
    · exact .inl hend
  · cases hw : isEodWindow (shiftWindow s.win L)
    · rw [takeBit_stuff hr hw] at h
      cases h
      exact .inr ⟨rfl, rfl, rfl⟩
    · by_cases hd : s.fdState = fdDataCode
      · rw [takeBit_eod_data hr hw hd] at h
        cases h
        exact .inr ⟨rfl, rfl, rfl⟩
      · rw [takeBit_eod hr hw hd] at h
        cases h
        exact .inr ⟨rfl, rfl, rfl⟩

/-- Where the machine stays in SYNC the raw bit has not ended the frame. -/
theorem takeBit_place_sync {L : Level} {s t : State} (h : takeBit L s = .next t) (hb : t.bsState = .sync) :
    t.rawIdx = s.rawIdx + 1#16 ∧ t.win = shiftWindow s.win L := by
  rcases takeBit_place h with hend | ⟨-, hplace⟩
  · exact absurd ((bsState_of_frameEnd_eq hend).symm.trans hb) (by decide)
  · exact hplace

/-! ### One mark per raw bit taken -/

/-- What an accepted sample does, told by the state `u` in which its bit is awaited, which is `s` or `s`
re-anchored: nothing more, or the bit taken (R126 to R130). -/
theorem sampleBody_waits_or_takes {L : Level} {s t : State} (h : sampleBody L s = .next t) :
    ∃ u, (u = s ∨ Resync s u) ∧ (t = u ∨ (u.bsState = .sync ∧ takeBit L u = .next t)) := by
  have hprev (he : isEdge s.prevLevel L = true) : s.prevLevel = recessive := ((isEdge_iff _ _).1 he).1
  have a := sampleBody_action L s
  rw [h] at a
  generalize ho : (Host.Outcome.next t : Result) = o at a
  cases a
  case quietIdle => cases ho; exact ⟨s, .inl rfl, .inl rfl⟩
  case quietSync => cases ho; exact ⟨s, .inl rfl, .inl rfl⟩
  case forced hb _ _ => cases ho; exact ⟨_, .inr (.forced hb), .inl rfl⟩
  case soft hb hn he _ => cases ho; exact ⟨_, .inr (.soft hb hn (hprev he)), .inl rfl⟩
  case take hb _ => exact ⟨s, .inl rfl, .inr ⟨hb, rfl⟩⟩
  case forcedTake hb _ _ => exact ⟨_, .inr (.forced hb), .inr ⟨rfl, rfl⟩⟩
  case softTake hb hn he _ => exact ⟨_, .inr (.soft hb hn (hprev he)), .inr ⟨hb, rfl⟩⟩

/-- The state in which a sample's bit is taken differs from the state before the sample in its anchor, and, if
that was IDLE, in that raw bit 0 is awaited in SYNC. -/
theorem awaiting_eq {s u : State} (h : u = s ∨ Resync s u) (hb : u.bsState = .sync) :
    u = { s with
      anchorS := u.anchorS
      anchorB := u.anchorB
      rawIdx := if s.bsState = .sync then s.rawIdx else 0#16
      bsState := .sync } := by
  rcases h with rfl | hre
  · rw [if_pos hb, ← hb]
  · cases hre with
    | forced hi =>
      rw [hi]
      rfl
    | soft hs =>
      rw [if_pos hs, ← hs]
      rfl

/-- A sample that takes no bit leaves the filter, the FrameDecoder and the records alone. -/
theorem waiting_unchanged {s u : State} (h : u = s ∨ Resync s u) :
    u.outBm = s.outBm ∧ u.win = s.win ∧ u.logIdx = s.logIdx ∧ u.fdState = s.fdState ∧ u.acc = s.acc ∧
      (s.bsState = .sync → u.rawIdx = s.rawIdx) ∧ u.outFs = s.outFs ∧ u.outWn = s.outWn := by
  rcases h with rfl | hre
  · exact ⟨rfl, rfl, rfl, rfl, rfl, fun _ => rfl, rfl, rfl⟩
  · cases hre with
    | forced hi => exact ⟨rfl, rfl, rfl, rfl, rfl, fun hs => absurd (hi.symm.trans hs) (by decide), rfl, rfl⟩
    | soft => exact ⟨rfl, rfl, rfl, rfl, rfl, fun _ => rfl, rfl, rfl⟩

/-- Settles O37: a sample that takes no bit leaves no mark and changes nothing more than the anchor; a bit taken
leaves its mark. -/
theorem oneMarkPerRawBit : Obligations.OneMarkPerRawBit := by
  intro s t L hnone h
  rw [exec_smpRow] at h
  rcases sampleStep_next h with ⟨-, rfl⟩ | ⟨-, v, hv, -, rfl⟩
  · exact ⟨fun _ => ⟨rfl, rfl, rfl, rfl, fun _ => rfl, rfl, rfl⟩, fun m hm => by rw [hnone] at hm; cases hm⟩
  · obtain ⟨u, hu, rfl | ⟨hb, htake⟩⟩ := sampleBody_waits_or_takes hv
    · obtain ⟨hout, hsame⟩ := waiting_unchanged hu
      refine ⟨fun _ => hsame, fun m hm => ?_⟩
      rw [sampleEnd_outBm, hout, hnone] at hm
      cases hm
    · obtain ⟨-, k, hmark, hk⟩ := takeBit_outside htake
      rw [isStuffPos_eq_false] at hk
      have hnext (hs : v.bsState = .sync) := (takeBit_place_sync htake hs).1
      rw [sampleEnd_outBm, hmark]
      rw [awaiting_eq hu hb] at hk hnext ⊢
      refine ⟨fun hm => (by cases hm), fun m hm => ?_⟩
      cases hm
      exact ⟨rfl, rfl, rfl, rfl, rfl, rfl, hnext, hk⟩

/-! ### Stuff insertion -/

section Insertion

variable {ins : Nat → Level → Level} {r : Nat} {p b : Level} {bs : List Level}

/-- At a stuff position the inserted bit comes first; the position after it is never one (R157). -/
theorem insertStuff_stuff (hr : StuffAt r) :
    insertStuff ins r p (b :: bs) = ins r p :: insertStuff ins (r + 1) (ins r p) (b :: bs) := by
  have hr' : ¬ StuffAt (r + 1) := by omega
  rw [insertStuff, insertStuff, if_pos hr, if_neg hr']

/-- At any other position the logical bit itself comes first. -/
theorem insertStuff_logical (hr : ¬ StuffAt r) :
    insertStuff ins r p (b :: bs) = b :: insertStuff ins (r + 1) b bs := by
  rw [insertStuff, if_neg hr]

/-- Only the empty list has an empty raw stream. -/
theorem insertStuff_eq_nil_iff {bits : List Level} : insertStuff ins r p bits = [] ↔ bits = [] := by
  cases bits with
  | nil => exact ⟨fun _ => rfl, fun _ => rfl⟩
  | cons b bs =>
    rw [insertStuff]
    split <;> simp

end Insertion

/-! ### The raw bits of a frame in progress -/

/-- A frame in progress in order awaits raw bit `r`, after the raw bit `p` where the window is going to be read. -/
structure AwaitsRaw (r : Nat) (p : Level) (s : State) : Prop where
  sync : s.bsState = .sync
  inOrder : FrameInOrder s
  raw : s.rawIdx.toNat = r
  newest : StuffAt r → s.win.extractLsb' 0 1 = p

/-- No EOD where the previous raw bit and this one are not both 0 (R154). -/
theorem isEodWindow_eq_false {win : BitVec 5} {p L : Level} (hp : win.extractLsb' 0 1 = p)
    (h : ¬(p = 0#1 ∧ L = 0#1)) : isEodWindow (shiftWindow win L) = false := by
  subst hp
  revert win L
  decide

namespace AwaitsRaw

variable {r : Nat} {p : Level} {s t : State}

theorem isStuffPos_eq (h : AwaitsRaw r p s) : isStuffPos s.rawIdx = decide (StuffAt r) := by
  rw [Bool.eq_iff_iff, isStuffPos_iff, h.raw, decide_eq_true_iff]

/-- After a raw bit that does not end the frame, the next one is awaited. -/
theorem next {L : Level} (h : AwaitsRaw r p s) (ht : takeBit L s = .next t) (hb : t.bsState = s.bsState)
    (hF : FrameInOrder t) : AwaitsRaw (r + 1) L t := by
  obtain ⟨hraw, hwin⟩ := takeBit_place_sync ht (hb.trans h.sync)
  obtain ⟨hbound, -⟩ := h.inOrder
  refine ⟨hb.trans h.sync, hF, ?_, fun _ => ?_⟩
  · rw [hraw, idx_succ_toNat _ (by omega), h.raw]
  · rw [hwin, newest_shiftWindow]

/-- A stuff bit that does not make the EOD pattern leaves its mark, and the same logical index awaited (R153). -/
theorem take_stuff {c : Level} (h : AwaitsRaw r p s) (hr : StuffAt r) (hc : ¬(p = 0#1 ∧ c = 0#1)) :
    ∃ t, takeBit c s = .next t ∧ t.outBm = some (markOf .stuff c s) ∧ AwaitsRaw (r + 1) c t ∧
      t.logIdx = s.logIdx := by
  have hpos : isStuffPos s.rawIdx = true := by rw [h.isStuffPos_eq, decide_eq_true_iff]; exact hr
  have ht := takeBit_stuff hpos (isEodWindow_eq_false (h.newest hr) hc)
  refine ⟨_, ht, rfl, ?_, rfl⟩
  rcases takeBit_keepsFrame h.inOrder ht with ⟨hend, -⟩ | ⟨hb, -, hF⟩
  · exact absurd ((bsState_of_frameEnd_eq hend).symm.trans h.sync) (by decide)
  · exact h.next ht hb hF

/-- A logical bit leaves its mark, and ends the frame, at logical index 56 or later, or leaves the next logical
index awaited (R152, R190). -/
theorem take_logical (h : AwaitsRaw r p s) (hr : ¬ StuffAt r) (b : Level) :
    ∃ t, takeBit b s = .next t ∧ t.outBm = some (markOf .ordinary b s) ∧
      ((t.bsState = .idle ∧ 56 ≤ s.logIdx.toNat) ∨
        (AwaitsRaw (r + 1) b t ∧ t.logIdx.toNat = s.logIdx.toNat + 1)) := by
  have hpos : isStuffPos s.rawIdx = false := by rw [h.isStuffPos_eq, decide_eq_false_iff_not]; exact hr
  obtain ⟨-, hlog, ⟨hcode, -⟩, -⟩ := h.inOrder
  obtain ⟨t, ht, -⟩ := takeBit_completes (L := b) hcode
  obtain ⟨-, k, hmark, hk⟩ := takeBit_outside ht
  rw [hk.2 hpos] at hmark
  refine ⟨t, ht, hmark, ?_⟩
  rcases takeBit_keepsFrame h.inOrder ht with ⟨hend, hi⟩ | ⟨hb, -, hF⟩
  · exact .inl ⟨bsState_of_frameEnd_eq hend, hi⟩
  · have ha := h.next ht hb hF
    obtain ⟨-, hlog', -⟩ := hF
    exact .inr ⟨ha, by rw [hlog', ha.raw, ← h.raw, logOfRaw_succ hpos, hlog]⟩

end AwaitsRaw

/-- How the raw stream `raws` of the logical bits `bits` is taken from `s`: stuff bits and logical bits one after
another, up to its end or the end of the frame. -/
inductive TakesStuffed : List Level → List Level → State → Prop where
  | nil (s : State) : TakesStuffed [] [] s
  | stuff {c : Level} {bits raws : List Level} {s t : State} (hb : s.bsState = .sync) (ht : takeBit c s = .next t)
      (hm : t.outBm = some (markOf .stuff c s)) (hlog : t.logIdx = s.logIdx) (rest : TakesStuffed bits raws t) :
      TakesStuffed bits (c :: raws) s
  | logical {b : Level} {bits raws : List Level} {s t : State} (hb : s.bsState = .sync)
      (ht : takeBit b s = .next t) (hm : t.outBm = some (markOf .ordinary b s))
      (hlog : t.logIdx.toNat = s.logIdx.toNat + 1) (rest : TakesStuffed bits raws t) :
      TakesStuffed (b :: bits) (b :: raws) s
  | lastBit {b : Level} {bits raws : List Level} {s t : State} (hb : s.bsState = .sync)
      (ht : takeBit b s = .next t) (hm : t.outBm = some (markOf .ordinary b s)) (hidle : t.bsState = .idle)
      (hi : 56 ≤ s.logIdx.toNat) (hrest : raws = [] ↔ bits = []) : TakesStuffed (b :: bits) (b :: raws) s

/-- The raw stream of stuff insertion is so taken from every raw bit of a frame on. -/
theorem takesStuffed_insertStuff {ins : Nat → Level → Level} (hins : ∀ r p, ¬(p = 0#1 ∧ ins r p = 0#1))
    (bits : List Level) {r : Nat} {p : Level} {s : State} (h : AwaitsRaw r p s) :
    TakesStuffed bits (insertStuff ins r p bits) s := by
  induction bits generalizing r p s with
  | nil => exact .nil s
  | cons b bs ih =>
    have logical {r : Nat} {p : Level} {s : State} (h : AwaitsRaw r p s) (hr : ¬ StuffAt r) :
        TakesStuffed (b :: bs) (insertStuff ins r p (b :: bs)) s := by
      rw [insertStuff_logical hr]
      obtain ⟨t, ht, hm, ⟨hidle, hi⟩ | ⟨ha, hlog⟩⟩ := h.take_logical hr b
      · exact .lastBit h.sync ht hm hidle hi insertStuff_eq_nil_iff
      · exact .logical h.sync ht hm hlog (ih ha)
    by_cases hr : StuffAt r
    · rw [insertStuff_stuff hr]
      obtain ⟨t, ht, hm, ha, hlog⟩ := h.take_stuff hr (hins r p)
      exact .stuff h.sync ht hm hlog (logical ha (by omega))
    · exact logical h hr

/-! ### How long a frame lasts -/

theorem frameLasts_cons {b : Level} {raws : List Level} {s t : State} (h : takeBit b s = .next t) :
    frameLasts (b :: raws) s = true ↔ s.bsState = .sync ∧ frameLasts raws t = true := by
  rw [frameLasts, h, Bool.and_eq_true, decide_eq_true_iff]

/-- After its end a frame lasts for no raw bit more. -/
theorem eq_nil_of_frameLasts_idle {raws : List Level} {s : State} (hb : s.bsState = .idle)
    (h : frameLasts raws s = true) : raws = [] := by
  cases raws with
  | nil => rfl
  | cons b raws => simp [frameLasts, hb] at h

/-- A frame lasts for the raw stream of any logical bits up to index 56, the last of the shortest frame (R190). -/
theorem TakesStuffed.frameLasts_of_le {bits raws : List Level} {s : State} (h : TakesStuffed bits raws s)
    (hlen : s.logIdx.toNat + bits.length ≤ 57) : frameLasts raws s = true := by
  induction h with
  | nil => rfl
  | stuff hb ht _ hlog _ ih => exact (frameLasts_cons ht).2 ⟨hb, ih (by rw [hlog]; exact hlen)⟩
  | logical hb ht _ hlog _ ih =>
    rw [List.length_cons] at hlen
    exact (frameLasts_cons ht).2 ⟨hb, ih (by omega)⟩
  | lastBit hb ht _ _ hi hrest =>
    rw [List.length_cons] at hlen
    have hraws := hrest.2 (List.length_eq_zero_iff.1 (by omega))
    exact (frameLasts_cons ht).2 ⟨hb, by rw [hraws]; rfl⟩

/-! ### What the FrameDecoder reads back -/

/-- The raw stream taken from `s` gives the FrameDecoder the logical bits, the first at index `i`, and no EOD. -/
def ReadsBack (i : Nat) (bits raws : List Level) (s : State) : Prop :=
  ∃ t : State, (feedRaw raws s).2 = .next t ∧
    ordinaryBits (feedRaw raws s).1 = (List.range' i bits.length).zip bits ∧
    ∀ m ∈ (feedRaw raws s).1, m.kind ≠ .eod

theorem feedRaw_cons {b : Level} {raws : List Level} {s t : State} {m : BitMark} (h : takeBit b s = .next t)
    (hm : t.outBm = some m) : feedRaw (b :: raws) s = (m :: (feedRaw raws t).1, (feedRaw raws t).2) := by
  rw [feedRaw, h]
  simp only [hm, Option.toList_some, List.singleton_append]

namespace ReadsBack

variable {b c : Level} {i : Nat} {bits raws : List Level} {s t : State}

theorem nil (i : Nat) (s : State) : ReadsBack i [] [] s := ⟨s, rfl, rfl, fun _ hm => by cases hm⟩

/-- A stuff bit gives the FrameDecoder nothing (R153). -/
theorem stuff (h : ReadsBack i bits raws t) (ht : takeBit c s = .next t)
    (hm : t.outBm = some (markOf .stuff c s)) : ReadsBack i bits (c :: raws) s := by
  obtain ⟨v, hv, hbits, hkind⟩ := h
  have hstuff : (markOf .stuff c s).kind ≠ .eod := BitMarkKind.noConfusion
  rw [ReadsBack, feedRaw_cons ht hm]
  exact ⟨v, hv, hbits, List.forall_mem_cons.2 ⟨hstuff, hkind⟩⟩

/-- A logical bit gives the FrameDecoder the bit, at the index awaited (R152). -/
theorem logical (h : ReadsBack (s.logIdx.toNat + 1) bits raws t) (ht : takeBit b s = .next t)
    (hm : t.outBm = some (markOf .ordinary b s)) : ReadsBack s.logIdx.toNat (b :: bits) (b :: raws) s := by
  obtain ⟨v, hv, hbits, hkind⟩ := h
  have hordinary : (markOf .ordinary b s).kind ≠ .eod := BitMarkKind.noConfusion
  rw [ReadsBack, feedRaw_cons ht hm]
  refine ⟨v, hv, ?_, List.forall_mem_cons.2 ⟨hordinary, hkind⟩⟩
  rw [List.length_cons, List.range'_succ, List.zip_cons_cons, ← hbits]
  rfl

end ReadsBack

/-- For as long as the frame lasts the logical bits are read back, from the index awaited on. -/
theorem TakesStuffed.readsBack {bits raws : List Level} {s : State} (h : TakesStuffed bits raws s)
    (hlasts : frameLasts raws s = true) : ReadsBack s.logIdx.toNat bits raws s := by
  induction h with
  | nil s => exact .nil _ s
  | stuff _ ht hm hlog _ ih =>
    obtain ⟨-, hlasts'⟩ := (frameLasts_cons ht).1 hlasts
    exact (hlog ▸ ih hlasts').stuff ht hm
  | logical _ ht hm hlog _ ih =>
    obtain ⟨-, hlasts'⟩ := (frameLasts_cons ht).1 hlasts
    exact (hlog ▸ ih hlasts').logical ht hm
  | lastBit _ ht hm hidle _ hrest =>
    obtain ⟨-, hlasts'⟩ := (frameLasts_cons ht).1 hlasts
    obtain rfl := eq_nil_of_frameLasts_idle hidle hlasts'
    obtain rfl := hrest.1 rfl
    exact (ReadsBack.nil _ _).logical ht hm

/-- Settles O59: a frame about to take raw bit 0 awaits logical bit 0; its stream is taken bit by bit, and from
that follow how long the frame lasts and what is read back. -/
theorem stuffInsertionRoundTrip : Obligations.StuffInsertionRoundTrip := by
  intro ins hins s bits hinv hb hraw
  obtain ⟨-, -, -, -, hsync⟩ := hinv
  have hF := frameInOrder_of_inFrame (hsync hb)
  have hlog : s.logIdx.toNat = 0 := by
    obtain ⟨-, hlog, -⟩ := hF
    rw [hlog, hraw]
    rfl
  have htakes := takesStuffed_insertStuff hins bits (r := 0) (p := 0#1)
    ⟨hb, hF, by rw [hraw]; rfl, fun hr => absurd hr (by decide)⟩
  refine ⟨fun hlen => htakes.frameLasts_of_le (by omega), fun hlasts => ?_⟩
  have hread := htakes.readsBack hlasts
  rw [hlog, ReadsBack, ← List.range_eq_range'] at hread
  exact hread

end Sys2Proof.Machine
end

section
/-! PROOFS. The family of 42_frame_decoder.md: accumulation (R171), each handler row (R170 to R188), what no check can change (R191), and the fields in the sample step. -/

namespace Sys2Proof.Machine

open Sys2Proof

/-! ### Accumulation -/

/-- The field starts of R171, each in the state whose field it starts. -/
theorem isFieldStart_iff (fd : FdCode) (i lastData : BitIdx) (crcLen : BitVec 5) :
    isFieldStart fd i lastData crcLen = true ↔
      (fd = 1#4 ∧ i.toNat = 0) ∨ (fd = 2#4 ∧ i.toNat = 10) ∨ (fd = 3#4 ∧ i.toNat = 24) ∨
        (fd = 4#4 ∧ i.toNat = 28) ∨ (fd = 5#4 ∧ i.toNat % 8 = 0) ∨
        (fd = 6#4 ∧ i.toNat = lastData.toNat + 1) ∨ (fd = 7#4 ∧ i.toNat = lastData.toNat + crcLen.toNat + 1) ∨
        (fd = 8#4 ∧ i.toNat = lastData.toNat + crcLen.toNat + 2) ∨
        (fd = 9#4 ∧ i.toNat = lastData.toNat + crcLen.toNat + 3) ∨
        (fd = 10#4 ∧ i.toNat = lastData.toNat + crcLen.toNat + 4) := by
  have hbyte : byteBit i = 0 ↔ i.toNat % 8 = 0 := byteBit_eq i 0 (by omega)
  simp only [← BitVec.toNat_inj, BitVec.toNat_ofNat]
  unfold isFieldStart
  split <;> rename_i hfd
  case h_11 => simp_all
  all_goals simp [hfd, hbyte, crcEnd]

theorem isFieldStart_data (i lastData : BitIdx) (crcLen : BitVec 5) :
    isFieldStart 5#4 i lastData crcLen = true ↔ i.toNat % 8 = 0 := by
  simp [isFieldStart_iff]

theorem isFieldStart_crc (i lastData : BitIdx) (crcLen : BitVec 5) :
    isFieldStart 6#4 i lastData crcLen = true ↔ i.toNat = lastData.toNat + 1 := by
  simp [isFieldStart_iff]

theorem isFieldStart_eof (i lastData : BitIdx) (crcLen : BitVec 5) :
    isFieldStart 10#4 i lastData crcLen = true ↔ i.toNat = lastData.toNat + crcLen.toNat + 4 := by
  simp [isFieldStart_iff]

/-- The first bit of a field is loaded, and its sample kept (R171). -/
theorem accumulate_load {s : State}
    (h : isFieldStart s.fdState (bitIndex s) s.lastData s.crcLen = true) :
    accumulate s = { s with fldStart := s.sampIdx, acc := (bitLevel s).setWidth 32 } := if_pos h

/-- Every other bit is shifted in (R171). -/
theorem accumulate_shift {s : State}
    (h : ¬ isFieldStart s.fdState (bitIndex s) s.lastData s.crcLen = true) :
    accumulate s = { s with acc := shiftAcc s.acc (bitLevel s) } := if_neg h

/-- Settles O41: accumulation loads exactly at a field start of R171. -/
theorem accumulationLoadsAndShifts : Obligations.AccumulationLoadsAndShifts := by
  rintro s i e rfl rfl
  rw [← isFieldStart_iff]
  exact ⟨fun h => ⟨_, accumulate_load h, load_toNat _⟩, fun h => ⟨_, accumulate_shift h, shiftAcc_toNat _ _⟩⟩

/-! ### The conditions and operands of the handlers, as the rules write them -/

/-- The low bits of a word, taken as a field (R176). -/
theorem low4_eq_setWidth (a : Word) : a.extractLsb' 0 4 = a.setWidth 4 :=
  (BitVec.setWidth_eq_extractLsb' (by omega)).symm

theorem toNat_setWidth_4 (a : Word) : (a.setWidth 4).toNat = a.toNat % 16 := BitVec.toNat_setWidth 4 a

theorem isDominant_iff (L : Level) : isDominant L = true ↔ L = 0#1 := beq_iff_eq

theorem isRecessive_iff (L : Level) : isRecessive L = true ↔ L = 1#1 := beq_iff_eq

/-- Warning 3 (R177). -/
theorem dlcTooLong_iff (f : BitVec 1) (d : BitVec 4) : dlcTooLong f d = true ↔ f = 0#1 ∧ 8 < d.toNat := by
  rw [dlcTooLong, Bool.and_eq_true, beq_iff_eq, decide_eq_true_iff]

theorem crcLenOf_toNat (f : BitVec 1) (n : BitVec 7) :
    (crcLenOf f n).toNat = if f = 0#1 then 15 else if n.toNat < 16 then 17 else 21 := by
  unfold crcLenOf
  split_ifs <;> rfl

/-- `D = 31 + 8·N` does not wrap (R178, R190). -/
theorem lastDataOf_toNat (n : BitVec 7) : (lastDataOf n).toNat = 31 + 8 * n.toNat := by
  have hn := n.isLt
  rw [lastDataOf, BitVec.toNat_ofNat, Nat.mod_eq_of_lt (by omega)]

/-- A DLC above 8 gives data bytes (R91). -/
theorem dlcTable_ne_zero {d : BitVec 4} (h : 8 < d.toNat) : dlcTable d ≠ 0#7 := by
  revert d
  decide

/-- There is a data field unless the byte count is 0 (R178). -/
theorem byteCount_pos_iff (n : BitVec 7) : 0 < n.toNat ↔ ¬ n = 0#7 := by
  rw [← BitVec.toNat_inj, BitVec.toNat_ofNat]
  omega

/-- The bit just taken is an EOD marker: a stuff position, after a raw 0 and itself 0 (R154). -/
theorem eodTaken_iff (s : State) :
    eodTaken s = true ↔
      10 < (s.rawIdx - 1#16).toNat ∧ (s.rawIdx - 1#16).toNat % 5 = 4 ∧
        s.win.getLsbD 0 = false ∧ s.win.getLsbD 1 = false := by
  rw [eodTaken, Bool.and_eq_true, isStuffPos_iff, isEodWindow_iff, and_assoc]

/-! ### The rows of the header -/

/-- Settles O40: the row only moves `fd_state`. -/
theorem awaitSofHandler : Obligations.AwaitSofHandler := fun _ => rfl

theorem exec_fdSof (s : State) :
    exec .fdSof s = .next (if (bitIndex s).toNat = 9 then sofDone s else s) := rfl

theorem exec_fdId (s : State) :
    exec .fdId s = .next (if (bitIndex s).toNat = 23 then idDone s else s) := rfl

theorem exec_fdCtrl (s : State) :
    exec .fdCtrl s = .next
      (if (bitIndex s).toNat = 24 then formatFlag s
       else if (bitIndex s).toNat = 27 then ctrlDone (controlBit s)
       else if 24 < (bitIndex s).toNat ∧ (bitIndex s).toNat < 27 then controlBit s
       else s) := rfl

theorem exec_fdLen (s : State) :
    exec .fdLen s = .next (if (bitIndex s).toNat = 31 then lenDone s else s) := rfl

/-- Settles O42: the ten bits are `acc` masked, and the warning compares them with the pattern. -/
theorem sofHandler : Obligations.SofHandler := by
  intro s
  rw [exec_fdSof, sofDone_eq, sof_value, sofMismatch_eq]
  simp only [Bool.not_eq_true', decide_eq_false_iff_not, ite_not]

/-- Settles O43: the top seven of the fourteen bits are all 1 from 0x3F80 on. -/
theorem idHandler : Obligations.IdHandler := by
  intro s
  rw [exec_fdId, idDone_eq, id_value, idReserved_eq]
  simp only [decide_eq_true_eq]

/-- A control bit has the span of its index, under the name its format gives it (R175). -/
theorem controlBit_eq (s : State) :
    controlBit s =
      { s with
        outFs := some ⟨ctrlKind s.fmt (bitIndex s), s.sampIdx, s.sampIdx, (bitLevel s).setWidth 32⟩ } := rfl

theorem ctrlKind_25 {f : BitVec 1} {i : BitIdx} (h : i.toNat = 25) :
    ctrlKind f i = if f = 0#1 then .rak else .rsv := by simp [ctrlKind, h]

theorem ctrlKind_26 {f : BitVec 1} {i : BitIdx} (h : i.toNat = 26) :
    ctrlKind f i = if f = 0#1 then .rw else .brs := by simp [ctrlKind, h]

theorem ctrlKind_27 {f : BitVec 1} {i : BitIdx} (h : i.toNat = 27) :
    ctrlKind f i = if f = 0#1 then .rtr else .esi := by simp [ctrlKind, h]

/-- Settles O44, index by index. -/
theorem ctrlHandler : Obligations.CtrlHandler := by
  intro s
  rw [exec_fdCtrl]
  refine ⟨fun h => ?_, fun h => ?_, fun h => ?_, fun h => ?_, fun h => ?_⟩
  · rw [if_pos h]
    rfl
  · rw [if_neg (by omega), if_neg (by omega), if_pos (by omega), controlBit_eq, ctrlKind_25 h]
  · rw [if_neg (by omega), if_neg (by omega), if_pos (by omega), controlBit_eq, ctrlKind_26 h]
  · rw [if_neg (by omega), if_pos h, controlBit_eq, ctrlKind_27 h, ← low4_eq_setWidth]
    rfl
  · rw [if_neg (by omega), if_neg (by omega), if_neg (by omega)]

/-- Settles O45: the layout is that of the DLC and the format, and there is data unless the byte count is 0. -/
theorem lenHandler : Obligations.LenHandler := by
  rintro s n rfl
  rw [exec_fdLen]
  refine ⟨fun h => by rw [if_neg h], fun h =>
    ⟨lenValue (dlcTable (s.acc.setWidth 4)) (s.acc.setWidth 4), _, _, ?_, ?_, crcLenOf_toNat s.fmt _,
      lastDataOf_toNat _⟩⟩
  · have hwarn := dlcTooLong_iff s.fmt (s.acc.setWidth 4)
    rw [toNat_setWidth_4] at hwarn
    rw [if_pos h, lenDone_eq, low4_eq_setWidth]
    simp only [hwarn, byteCount_pos_iff, ite_not]
  · rw [lenValue_toNat, toNat_setWidth_4]

/-! ### The rows of the data field and the CRC -/

theorem exec_fdData (s : State) :
    exec .fdData s = .next (if eodTaken s then dataEod s else dataBit s) := rfl

theorem exec_fdCrc (s : State) :
    exec .fdCrc s = .next (if (bitIndex s).toNat = s.lastData.toNat + s.crcLen.toNat then crcDone s else s) := rfl

/-- A logical bit in DATA leads to CRC exactly at the last data bit (R180). -/
theorem dataBit_fdState (s : State) :
    (dataBit s).fdState = if bitIndex s = s.lastData then 6#4 else s.fdState := by
  rw [dataBit_eq]
  simp only [BitVec.toNat_inj]

/-- Settles O47: the row is at its logical-bit entry, and the eighth bit of a byte completes it. -/
theorem dataHandlerOnALogicalBit : Obligations.DataHandlerOnALogicalBit := by
  intro s hlogical
  have h7 : byteBit (bitIndex s) = 7 ↔ (bitIndex s).toNat % 8 = 7 := byteBit_eq (bitIndex s) 7 (by omega)
  rw [← eodTaken_iff] at hlogical
  rw [exec_fdData, if_neg hlogical, dataBit_eq]
  simp only [BitVec.toNat_inj]
  refine ⟨fun h => ?_, fun h => ⟨_, ?_, (dataValue_toNat s.byteCnt (s.acc.extractLsb' 0 8)).trans ?_⟩⟩
  · rw [if_neg (mt h7.1 h)]
  · rw [if_pos (h7.2 h), byteDone_eq]
  · rw [toNat_low]
    rfl

/-- Settles O48: the row is at its EOD entry. -/
theorem dataHandlerOnAnEodMarker : Obligations.DataHandlerOnAnEodMarker := by
  intro s hgt hmod h0 h1
  rw [exec_fdData, if_pos ((eodTaken_iff s).2 ⟨hgt, hmod, h0, h1⟩)]
  rfl

/-- Settles O49: the CRC ends at `E`, and its value is `acc` without the bits above the CRC's own. -/
theorem crcHandler : Obligations.CrcHandler := by
  intro s
  rw [exec_fdCrc]
  refine ⟨fun h => by rw [if_neg h], fun h => ⟨_, ?_, crcValue_toNat s.acc s.crcLen⟩⟩
  rw [if_pos h]
  rfl

/-! ### The rows of the trailer -/

theorem exec_fdCrcDel (s : State) :
    exec .fdCrcDel s =
      .next (singleBit .crcDel (isDominant (bitLevel s)) .crcDelDominant fdAckCode s) := rfl

theorem exec_fdAck (s : State) :
    exec .fdAck s =
      .next (singleBit .ack (isRecessive (bitLevel s)) .notAcknowledged fdAckDelCode s) := rfl

theorem exec_fdAckDel (s : State) :
    exec .fdAckDel s =
      .next (singleBit .ackDel (isDominant (bitLevel s)) .ackDelDominant fdEofCode s) := rfl

theorem exec_fdEof (s : State) :
    exec .fdEof s = .next
      (if (bitIndex s).toNat = s.lastData.toNat + s.crcLen.toNat + 10 then eofDone (eofBit s)
       else eofBit s) := rfl

/-- Settles O50: each is a single-bit field, whose check only decides the warning. -/
theorem trailerHandlers : Obligations.TrailerHandlers := by
  intro s
  rw [exec_fdCrcDel, exec_fdAck, exec_fdAckDel, singleBit_eq, singleBit_eq, singleBit_eq]
  simp only [isDominant_iff, isRecessive_iff]
  exact ⟨rfl, rfl, rfl⟩

/-- Settles O51: the warning first, then at `E + 10` the span and the frame end. -/
theorem eofHandler : Obligations.EofHandler := by
  intro s
  have hwarn : eofBit s = { s with
      outWn := if bitLevel s = 0#1 then some ⟨.eofDominant, s.sampIdx, s.sampIdx⟩ else s.outWn } := by
    rw [eofBit_eq]
    simp only [isDominant_iff]
  rw [exec_fdEof, hwarn]
  refine ⟨fun h => by rw [if_neg h], fun h => ?_⟩
  rw [if_pos h, ← eof_value]
  rfl

/-! ### What no check can change -/

/-- A checked handler completes, and what it leaves of the layout and the place in the frame does not depend on
the accumulator and the window, which hold the bits that are checked (R191). -/
theorem checkedHandler_layout {i : Instr} (hi : i ∈ [Instr.fdSof, .fdId, .fdCrcDel, .fdAck, .fdAckDel, .fdEof])
    (s : State) (a : Word) (w : BitVec 5) :
    ∃ t u : State, exec i s = .next t ∧ exec i { s with acc := a, win := w } = .next u ∧
      layoutOf t = layoutOf u := by
  obtain ⟨del, ack, ackDel⟩ := trailerHandlers s
  obtain ⟨del', ack', ackDel'⟩ := trailerHandlers { s with acc := a, win := w }
  simp only [List.mem_cons, List.not_mem_nil, or_false] at hi
  rcases hi with rfl | rfl | rfl | rfl | rfl | rfl
  · refine ⟨_, _, sofHandler s, sofHandler _, ?_⟩
    change layoutOf (if (bitIndex s).toNat = 9 then _ else _) = layoutOf (if (bitIndex s).toNat = 9 then _ else _)
    split <;> rfl
  · refine ⟨_, _, idHandler s, idHandler _, ?_⟩
    change layoutOf (if (bitIndex s).toNat = 23 then _ else _) = layoutOf (if (bitIndex s).toNat = 23 then _ else _)
    split <;> rfl
  · exact ⟨_, _, del, del', rfl⟩
  · exact ⟨_, _, ack, ack', rfl⟩
  · exact ⟨_, _, ackDel, ackDel', rfl⟩
  · obtain ⟨inside, last⟩ := eofHandler s
    obtain ⟨inside', last'⟩ := eofHandler { s with acc := a, win := w }
    by_cases h : (bitIndex s).toNat = s.lastData.toNat + s.crcLen.toNat + 10
    · exact ⟨_, _, last h, last' h, rfl⟩
    · exact ⟨_, _, inside h, inside' h, rfl⟩

/-- Settles O53: the checked handlers leave the layout alone, and an oversized DLC gives that of its table entry,
which has data. -/
theorem violationsChangeNoLayout : Obligations.ViolationsChangeNoLayout := by
  refine ⟨fun i hi s a w => checkedHandler_layout hi s a w, fun s hlast hfmt hdlc => ?_⟩
  obtain ⟨v, c, d, hexec, -, hc, hd⟩ := (lenHandler s _ rfl).2 hlast
  have hdata : dlcTable (s.acc.setWidth 4) ≠ 0#7 := dlcTable_ne_zero (by rw [toNat_setWidth_4]; exact hdlc)
  rw [if_pos hfmt] at hc
  rw [if_neg hdata, if_pos (And.intro hfmt hdlc)] at hexec
  exact ⟨_, hexec, rfl, rfl, BitVec.eq_of_toNat_eq hc, hd, rfl⟩

/-! ### A logical bit in the sample step -/

/-- The sample takes a raw bit of level `L` that is a logical bit of a frame in order, and `u` is the state before
the sample is counted. -/
structure TakesLogicalBit (L : Level) (s u : State) : Prop where
  position : FieldPosition s
  ordinary : isStuffPos s.rawIdx = false
  taken : takeBit L s = .next u

/-- At the sample point of a machine in order an accepted sample off the stuff positions takes a logical bit, and
is counted (R127, R132). -/
theorem exists_takesLogicalBit {L : Level} {s t : State} (hinv : s.Inv) (hen : s.en = true)
    (herr : s.cfgErr = false) (hb : s.bsState = .sync) (hn : sp s s.rawIdx = s.sampIdx)
    (hpos : ¬(10 < s.rawIdx.toNat ∧ s.rawIdx.toNat % 5 = 4)) (h : exec (smpRow L) s = .next t) :
    ∃ u, TakesLogicalBit L s u ∧ t = sampleEnd L s.sampIdx u := by
  obtain ⟨-, -, -, -, hsync⟩ := hinv
  obtain ⟨-, -, -, -, hposition, -⟩ := hsync hb
  rw [exec_smpRow, sampleStep_take L hen herr hb hn, andThen_eq_next] at h
  obtain ⟨u, hu, ht⟩ := h
  cases ht
  exact ⟨u, ⟨hposition, (isStuffPos_eq_false _).2 hpos, hu⟩, rfl⟩

namespace TakesLogicalBit

variable {L : Level} {s u : State} {k : FdCode} {i : Instr}

/-- The row of the state code runs on some accumulator. -/
theorem accumulated (h : TakesLogicalBit L s u) (hk : s.fdState = k) (hrow : decodeHandler k = i)
    (h0 : k ≠ fdAwaitSofCode) : ∃ x f, exec i (handlerState L s k x f) = .next u := by
  obtain ⟨x, f, htake⟩ := takeBit_handlerState_any L s k h.ordinary (by rw [hk, if_neg h0])
  exact ⟨x, f, by rw [← hrow, ← htake, h.taken]⟩

/-- Past the first bit of a field the row of the state code runs on the accumulator with the bit shifted in
(R171). -/
theorem shifted (h : TakesLogicalBit L s u) (hk : s.fdState = k) (hrow : decodeHandler k = i)
    (h0 : k ≠ fdAwaitSofCode) (hs : ¬ isFieldStart k s.logIdx s.lastData s.crcLen = true) :
    exec i (handlerState L s k ((s.acc <<< 1) ||| L.setWidth 32) s.fldStart) = .next u := by
  rw [← hrow, ← takeBit_handlerState_shift L s k h.ordinary (by rw [hk, if_neg h0])
    (Bool.eq_false_iff.2 hs), h.taken]

/-- A control bit before the last has its span, and nothing is kept of it (R175). -/
theorem controlBit_records (h : TakesLogicalBit L s u) (hk : s.fdState = 3#4) (h24 : 24 < s.logIdx.toNat)
    (h27 : s.logIdx.toNat < 27) :
    u.outFs = some ⟨ctrlKind s.fmt s.logIdx, s.sampIdx, s.sampIdx, L.setWidth 32⟩ ∧ u.outWn = s.outWn ∧
      u.fmt = s.fmt ∧ u.ctrl4 = s.ctrl4 ∧ u.fdState = 3#4 := by
  obtain ⟨x, f, hu⟩ := h.accumulated hk (i := .fdCtrl) rfl (by decide)
  rw [exec_fdCtrl, controlBit_eq, bitIndex_handlerState, bitLevel_handlerState, if_neg (by omega),
    if_neg (by omega), if_pos ⟨h24, h27⟩] at hu
  cases hu
  exact ⟨rfl, rfl, rfl, rfl, rfl⟩

/-- A single-bit field of the trailer, whose check warns of the level `bad` (R184 to R186). -/
theorem singleBit_records (h : TakesLogicalBit L s u) (hk : s.fdState = k) (hrow : decodeHandler k = i)
    (h0 : k ≠ fdAwaitSofCode) {kind : FieldKind} {c : Level → Bool} {code : WarningCode} {n : FdCode}
    {bad : Level} (hc : ∀ l, c l = true ↔ l = bad)
    (hexec : ∀ w, exec i w = .next (singleBit kind (c (bitLevel w)) code n w)) :
    u.outFs = some ⟨kind, s.sampIdx, s.sampIdx, L.setWidth 32⟩ ∧
      u.outWn = (if L = bad then some ⟨code, s.sampIdx, s.sampIdx⟩ else s.outWn) ∧ u.fdState = n := by
  obtain ⟨x, f, hu⟩ := h.accumulated hk hrow h0
  simp only [hexec, singleBit_eq, bitLevel_handlerState, hc] at hu
  cases hu
  exact ⟨rfl, rfl, rfl⟩

end TakesLogicalBit

/-! ### The header in the sample step -/

/-- Settles O38: in each state the bit runs that state's handler, on the shifted accumulator at the end of a field. -/
theorem headerFieldsInTheSampleStep : Obligations.HeaderFieldsInTheSampleStep := by
  rintro s t L v hinv hen herr hb hn hpos hexec rfl
  obtain ⟨u, h, rfl⟩ := exists_takesLogicalBit hinv hen herr hb hn hpos hexec
  have hctrl (x f : Word) := ctrlHandler (handlerState L s 3#4 x f)
  have hlen (x f : Word) := lenHandler (handlerState L s 4#4 x f) _ rfl
  simp only [bitIndex_handlerState, bitLevel_handlerState] at hctrl hlen
  refine ⟨fun hk hi => ?_, fun hk hi => ?_, fun hk hi => ?_, fun hk hi => ?_, fun hk hi => ?_, fun hk hi => ?_,
    fun hk hi => ?_, fun hk hi => ?_, fun hk hi => ?_, fun hk hi => ?_⟩
  -- SOF before and at its last bit (R172)
  · obtain ⟨x, f, hu⟩ := h.accumulated hk (i := .fdSof) rfl (by decide)
    rw [sofHandler, bitIndex_handlerState, if_neg hi] at hu
    cases hu
    exact ⟨rfl, rfl, rfl⟩
  · have hu := h.shifted hk (i := .fdSof) rfl (by decide) (by simp [isFieldStart, hi])
    rw [sofHandler, bitIndex_handlerState, if_pos hi] at hu
    cases hu
    exact ⟨rfl, rfl, rfl⟩
  -- ID before and at its last bit (R173)
  · obtain ⟨x, f, hu⟩ := h.accumulated hk (i := .fdId) rfl (by decide)
    rw [idHandler, bitIndex_handlerState, if_neg hi] at hu
    cases hu
    exact ⟨rfl, rfl, rfl⟩
  · have hu := h.shifted hk (i := .fdId) rfl (by decide) (by simp [isFieldStart, hi])
    rw [idHandler, bitIndex_handlerState, if_pos hi] at hu
    cases hu
    exact ⟨rfl, rfl, rfl⟩
  -- CTRL: the format flag, two control bits, and the last one, which ends the field (R174, R175)
  · obtain ⟨x, f, hu⟩ := h.accumulated hk (i := .fdCtrl) rfl (by decide)
    obtain ⟨first, -⟩ := hctrl x f
    rw [first hi] at hu
    cases hu
    exact ⟨rfl, rfl, rfl, rfl, rfl⟩
  · rw [← ctrlKind_25 hi]
    exact h.controlBit_records hk (by omega) (by omega)
  · rw [← ctrlKind_26 hi]
    exact h.controlBit_records hk (by omega) (by omega)
  · have hu := h.shifted hk (i := .fdCtrl) rfl (by decide) (by simp [isFieldStart, hi])
    obtain ⟨-, -, -, last, -⟩ := hctrl ((s.acc <<< 1) ||| L.setWidth 32) s.fldStart
    rw [last hi] at hu
    cases hu
    exact ⟨rfl, rfl, rfl, rfl, rfl⟩
  -- LEN before and at its last bit (R176 to R178)
  · obtain ⟨x, f, hu⟩ := h.accumulated hk (i := .fdLen) rfl (by decide)
    rw [(hlen x f).1 hi] at hu
    cases hu
    exact ⟨rfl, rfl, rfl, rfl, rfl, rfl, rfl⟩
  · have hu := h.shifted hk (i := .fdLen) rfl (by decide) (by simp [isFieldStart, hi])
    obtain ⟨x, c, d, hlast, hx, hc, hd⟩ := (hlen _ _).2 hi
    rw [hlast] at hu
    cases hu
    refine ⟨rfl, rfl, ⟨x, rfl, hx⟩, rfl, hc, hd, ?_⟩
    simp only [byteCount_pos_iff, ite_not]
    rfl

/-! ### The data field and the trailer in the sample step -/

/-- A raw bit that is no stuff bit is no EOD marker (R154). -/
theorem not_eodTaken_handlerState {s : State} (hr : isStuffPos s.rawIdx = false) (L : Level) (k : FdCode)
    (x f : Word) : ¬ eodTaken (handlerState L s k x f) = true := by
  have hraw : (handlerState L s k x f).rawIdx - 1#16 = s.rawIdx := BitVec.add_sub_cancel _ _
  rw [eodTaken, hraw, hr]
  exact Bool.false_ne_true

/-- A byte completed in DATA is one of at most 64, so its count does not wrap (R37, R180). -/
theorem byteCnt_succ_toNat {s : State} (h : FieldPosition s) (hk : s.fdState = 5#4) :
    (s.byteCnt + 1#7).toNat = s.byteCnt.toNat + 1 := by
  obtain ⟨hlayout, -, hle, hlast, hcnt⟩ := (fieldPosition_5 hk).1 h
  obtain ⟨hbytes, -, -⟩ := layout_bounds hlayout
  rw [BitVec.toNat_add, BitVec.toNat_ofNat]
  omega

/-- Settles O39: in each state the bit runs that state's handler, on the shifted accumulator at the end of a field. -/
theorem dataAndTrailerFieldsInTheSampleStep : Obligations.DataAndTrailerFieldsInTheSampleStep := by
  rintro s t L v hinv hen herr hb hn hpos hexec rfl
  obtain ⟨u, h, rfl⟩ := exists_takesLogicalBit hinv hen herr hb hn hpos hexec
  have heod := not_eodTaken_handlerState h.ordinary L 5#4
  have hdata (x f : Word) := dataHandlerOnALogicalBit (handlerState L s 5#4 x f) (mt (eodTaken_iff _).2 (heod x f))
  have hcrc (x f : Word) := crcHandler (handlerState L s 6#4 x f)
  have heof (x f : Word) := eofHandler (handlerState L s 10#4 x f)
  simp only [bitIndex_handlerState, bitLevel_handlerState] at hdata hcrc heof
  have hge (hk : s.fdState = 5#4) : 32 ≤ s.logIdx.toNat := by
    obtain ⟨-, hge, -⟩ := (fieldPosition_5 hk).1 h.position
    exact hge
  refine ⟨fun hk hi => ?_, fun hk hi => ?_, fun hk => ?_, fun hk hi => ?_, fun hk hi => ?_, fun hk => ?_,
    fun hk => ?_, fun hk => ?_, fun hk => ?_, fun hk hi => ?_, fun hk hi => ?_⟩
  -- DATA: inside a byte, at the end of one, and where the field ends (R180)
  · have hge := hge hk
    obtain ⟨x, f, hu⟩ := h.accumulated hk (i := .fdData) rfl (by decide)
    rw [(hdata x f).1 (by omega)] at hu
    cases hu
    exact ⟨rfl, rfl, rfl⟩
  · have hge := hge hk
    have hu := h.shifted hk (i := .fdData) rfl (by decide)
      (mt (isFieldStart_data s.logIdx s.lastData s.crcLen).1 (by omega))
    have hcnt := byteCnt_succ_toNat h.position hk
    obtain ⟨x, hbyte, hx⟩ := (hdata _ _).2 (by omega)
    rw [hbyte] at hu
    cases hu
    exact ⟨⟨x, rfl, hx⟩, hcnt, rfl⟩
  · obtain ⟨x, f, hu⟩ := h.accumulated hk (i := .fdData) rfl (by decide)
    rw [exec_fdData, if_neg (heod x f)] at hu
    cases hu
    refine (dataBit_fdState _).trans ?_
    rw [bitIndex_handlerState]
    rfl
  -- CRC before and at its last bit (R183)
  · obtain ⟨x, f, hu⟩ := h.accumulated hk (i := .fdCrc) rfl (by decide)
    rw [(hcrc x f).1 hi] at hu
    cases hu
    exact ⟨rfl, rfl, rfl⟩
  · obtain ⟨hlayout, -⟩ := (fieldPosition_6 hk).1 h.position
    obtain ⟨-, hlen, -⟩ := layout_bounds hlayout
    have hu := h.shifted hk (i := .fdCrc) rfl (by decide)
      (mt (isFieldStart_crc s.logIdx s.lastData s.crcLen).1 (by omega))
    obtain ⟨x, hspan, hx⟩ := (hcrc _ _).2 hi
    rw [hspan] at hu
    cases hu
    exact ⟨⟨x, rfl, hx⟩, rfl, rfl⟩
  -- the three single-bit fields (R184 to R186)
  · exact h.singleBit_records hk rfl (by decide) isDominant_iff exec_fdCrcDel
  · exact h.singleBit_records hk rfl (by decide) isRecessive_iff exec_fdAck
  · exact h.singleBit_records hk rfl (by decide) isDominant_iff exec_fdAckDel
  -- EOF: the warning of any bit, no record before the last bit, and the frame end (R187, R188)
  · obtain ⟨x, f, hu⟩ := h.accumulated hk (i := .fdEof) rfl (by decide)
    by_cases hi : s.logIdx.toNat = s.lastData.toNat + s.crcLen.toNat + 10
    · rw [(heof x f).2 hi] at hu
      cases hu
      rfl
    · rw [(heof x f).1 hi] at hu
      cases hu
      rfl
  · obtain ⟨x, f, hu⟩ := h.accumulated hk (i := .fdEof) rfl (by decide)
    rw [(heof x f).1 hi] at hu
    cases hu
    exact ⟨rfl, rfl⟩
  · have hu := h.shifted hk (i := .fdEof) rfl (by decide)
      (mt (isFieldStart_eof s.logIdx s.lastData s.crcLen).1 (by omega))
    rw [(heof _ _).2 hi] at hu
    cases hu
    rfl

end Sys2Proof.Machine
end

section
/-! PROOFS. The family of 43_host_interface.md: the step of R221, the registers one by one (R223 to R237), and the event ports (R238). -/

namespace Sys2Proof.Machine

open Sys2Proof

/-! ### The step (R221) -/

/-- A step takes the first input listed and runs its cycle. -/
theorem step_of_inputs {s : State} {c : CycleInput} {rest : List CycleInput} (h : s.inputs = c :: rest) :
    step s = runCycle c { s with inputs := rest } := by
  rw [step, nextInput, takeInput, h]
  rfl

/-- The sample part neither reads nor writes the read-data port and the coming inputs. -/
theorem samplePart_withPorts (w : CycleWord) (r : Word) (ins : List CycleInput) (s : State) :
    samplePart w (withPorts r ins s) = mapNext (withPorts r ins) (samplePart w s) := by
  unfold samplePart
  split
  · exact sampleStep_withPorts _ r ins s
  · rfl

theorem samplePart_inputs {w : CycleWord} {s t : State} (h : samplePart w s = .next t) : t.inputs = s.inputs := by
  rcases samplePart_next h with ⟨-, rfl⟩ | ⟨-, hs⟩
  · rfl
  · obtain ⟨-, -, -, -, -, hins⟩ := sampleLeavesControlAlone s t _ ((exec_smpRow _ s).trans hs)
    exact hins

/-- A cycle is the `Step` of R221: the read data may be registered before the sample and the write, or after
them, since neither touches the read-data port. -/
theorem runCycle_eq_specStep (c : CycleInput) (s : State) : runCycle c s = specStep c s := by
  obtain ⟨_ | _, w⟩ := c
  case true => rfl
  case false =>
    show _ = andThen (samplePart w (clearRecords s)) fun t => .next { writePart w t with rdata := readPart w s }
    rw [runCycle_eq, samplePart_withPorts]
    cases h : samplePart w (clearRecords s) with
    | fault r => rfl
    | refused r => rfl
    | next t =>
      have hins : s.inputs = (writePart w t).inputs := by
        obtain ⟨-, -, -, -, hw⟩ := writePart_ports w t
        exact (hw.trans (samplePart_inputs h)).symm
      rw [mapNext_next, andThen_next, andThen_next, writePart_withPorts, withPorts, hins]

/-- Settles O8: the step takes its input, and the cycle is that of R221. -/
theorem stepIsTheSpecsStep : Obligations.StepIsTheSpecsStep := by
  intro s c rest h
  rw [step_of_inputs h, runCycle_eq_specStep]

/-- Settles O9: the idle cycle runs the idle rows alone, and a reset by O8 keeps the inputs after its own. -/
theorem inputsBeyondTheList : Obligations.InputsBeyondTheList := by
  refine ⟨fun s h => ?_, fun s w rest h => ⟨_, stepIsTheSpecsStep s _ rest h, rfl⟩⟩
  rw [step, nextInput, takeInput, h]
  rfl

/-! ### What a read row gives, and what a write row writes -/

theorem exec_rdCtrl (s : State) : exec .rdCtrl s = .next { s with rdata := ctrlWord s } := rfl

theorem exec_rdStatus (s : State) : exec .rdStatus s = .next { s with rdata := statusWord s } := rfl

theorem exec_rdBitIdx (s : State) : exec .rdBitIdx s = .next { s with rdata := bitIdxWord s } := rfl

theorem exec_rdAnchorBit (s : State) : exec .rdAnchorBit s = .next { s with rdata := anchorBitWord s } := rfl

theorem exec_rdNextSp (s : State) : exec .rdNextSp s = .next { s with rdata := nextSpWord s } := rfl

theorem exec_rdFrame (s : State) : exec .rdFrame s = .next { s with rdata := frameWord s } := rfl

theorem exec_rdOffsets (s : State) : exec .rdOffsets s = .next { s with rdata := offsetsWord s } := rfl

theorem exec_wrCtrl (v : Word) (s : State) : exec (.wrCtrl v) s = .next (ctrlWrite v s) := rfl

theorem exec_wrBitWidth (v : Word) (s : State) : exec (.wrBitWidth v) s = .next (bitWidthWrite v s) := rfl

theorem exec_wrSpOffset (v : Word) (s : State) : exec (.wrSpOffset v) s = .next (spOffsetWrite v s) := rfl

/-! ### The registers that are one word -/

/-- Settles O13: each read gives its own element of the state, and none of the five is writable. -/
theorem wholeWordRegisters : Obligations.WholeWordRegisters := by
  refine ⟨⟨rfl, fun _ => rfl⟩, ⟨rfl, fun _ => rfl⟩, ⟨rfl, fun _ => rfl⟩, ⟨rfl, fun _ => rfl⟩,
    ⟨rfl, fun _ => rfl⟩, fun s v => ?_, rfl, rfl, rfl, rfl⟩
  have hwrite := exec_readOnlyWrite v s
  exact ⟨rfl, hwrite _ (by simp), rfl, hwrite _ (by simp), rfl, hwrite _ (by simp), rfl, hwrite _ (by simp),
    rfl, hwrite _ (by simp)⟩

/-- Settles O18: NEXT_SP reads as the awaited sample point or as 0, by the BitSampler's state. -/
theorem nextSpRegister : Obligations.NextSpRegister := by
  refine ⟨⟨rfl, fun _ => rfl⟩, fun s v => ⟨exec_readOnlyWrite v s _ (by simp), fun h => ?_, fun h => ?_⟩, rfl⟩
  all_goals rw [exec_rdNextSp, nextSpWord, h]

/-! ### The writable registers -/

/-- A disable leaves the reset state, but for the configuration, the outputs and the coming inputs (R224, R281). -/
theorem disable_eq (s : State) :
    disable s =
      { State.reset with
        bitWidth := s.bitWidth
        spOffset := s.spOffset
        outBm := s.outBm
        outFs := s.outFs
        outWn := s.outWn
        rdata := s.rdata
        inputs := s.inputs } := rfl

theorem ctrlWrite_of_even {v : Word} (s : State) (hv : v.toNat % 2 = 0) : ctrlWrite v s = disable s := by
  rw [ctrlWrite, if_pos ((bit0_eq_zero v).2 hv)]

theorem ctrlWrite_of_odd {v : Word} (s : State) (hv : v.toNat % 2 = 1) :
    ctrlWrite v s = if s.en then s else enable s := by
  rw [ctrlWrite, if_neg ((bit0_ne_zero v).2 hv)]

theorem tooNarrow_iff (w : Word) : tooNarrow w = true ↔ w.toNat < 0x10000 := decide_eq_true_iff

/-- An enable sets `en`, and the error bit where the bit width is below one sample (R224, R252). -/
theorem enable_eq (s : State) :
    enable s = { s with en := true, cfgErr := if s.bitWidth.toNat < 0x10000 then true else s.cfgErr } := by
  simp only [enable, raiseConfigError, tooNarrow_iff]
  split <;> rfl

/-- A write of EN = 1 enables a disabled block. -/
theorem exec_wrCtrl_enable {v : Word} {s : State} (hv : v.toNat % 2 = 1) (hen : s.en = false) :
    exec (.wrCtrl v) s =
      .next { s with en := true, cfgErr := if s.bitWidth.toNat < 0x10000 then true else s.cfgErr } := by
  rw [exec_wrCtrl, ctrlWrite_of_odd s hv, hen, if_neg Bool.false_ne_true, enable_eq]

/-- Settles O14: CTRL reads as the bit `en`, and bit 0 of the written word chooses disable or enable. -/
theorem ctrlRegister : Obligations.CtrlRegister := by
  refine ⟨⟨rfl, fun _ => rfl⟩, rfl, fun s v => ⟨⟨_, exec_rdCtrl s, ?_⟩, fun hv => ?_, fun hv hen => ?_,
    fun hv hen hw => ?_, fun hv hen hw => ?_⟩⟩
  · rw [ctrlWord_eq]
    split <;> rfl
  · rw [exec_wrCtrl, ctrlWrite_of_even s hv, disable_eq]
  · rw [exec_wrCtrl, ctrlWrite_of_odd s hv, if_pos hen]
  · rw [exec_wrCtrl_enable hv hen, if_neg (Nat.not_lt.2 hw)]
  · rw [exec_wrCtrl_enable hv hen, if_pos hw]

/-- A configuration write stores its word while disabled (R226). -/
theorem bitWidthWrite_eq (v : Word) (s : State) :
    bitWidthWrite v s = { s with bitWidth := if s.en then s.bitWidth else v } := by
  unfold bitWidthWrite
  split <;> rfl

/-- A configuration write stores its word while disabled (R227). -/
theorem spOffsetWrite_eq (v : Word) (s : State) :
    spOffsetWrite v s = { s with spOffset := if s.en then s.spOffset else v } := by
  unfold spOffsetWrite
  split <;> rfl

/-- Settles O16: the two words are kept as written, and an enable checks the width it finds. -/
theorem timingRegisters : Obligations.TimingRegisters := by
  refine ⟨⟨rfl, fun _ => rfl⟩, ⟨rfl, fun _ => rfl⟩, fun s v hen hv => ?_, fun s v => ⟨rfl, rfl, ?_, ?_⟩, rfl, rfl⟩
  · rw [exec_wrCtrl_enable (v := 1#32) (by decide) (by exact hen), if_pos hv]
  · rw [exec_wrBitWidth, bitWidthWrite_eq]
  · rw [exec_wrSpOffset, spOffsetWrite_eq]

/-! ### The registers made of fields

A word is its fields joined, so a field is reached by passing the joined parts to its left and to its right. -/

/-- STATUS holds its fields where R225 puts them. -/
theorem statusWord_fields (s : State) :
    (statusWord s).extractLsb' 0 1 = bitOf s.cfgErr ∧ (statusWord s).extractLsb' 1 1 = bitOf s.run ∧
    (statusWord s).extractLsb' 2 1 = bsCode s.bsState ∧ (statusWord s).extractLsb' 3 1 = 0#1 ∧
    (statusWord s).extractLsb' 4 4 = s.fdState ∧ (statusWord s).extractLsb' 8 24 = 0#24 := by
  unfold statusWord
  simp (disch := decide) only [BitVec.cast_eq, BitVec.extractLsb'_append_eq_of_add_le,
    BitVec.extractLsb'_append_eq_of_le, BitVec.extractLsb'_eq_self, Nat.reduceSub, and_self]

/-- BIT_IDX holds its fields where R229 puts them. -/
theorem bitIdxWord_fields (s : State) :
    (bitIdxWord s).extractLsb' 0 16 = s.rawIdx ∧ (bitIdxWord s).extractLsb' 16 16 = s.logIdx := by
  unfold bitIdxWord
  simp (disch := decide) only [BitVec.cast_eq, BitVec.extractLsb'_append_eq_of_add_le,
    BitVec.extractLsb'_append_eq_of_le, BitVec.extractLsb'_eq_self, Nat.reduceSub, and_self]

/-- ANCHOR_BIT holds its field where R231 puts it. -/
theorem anchorBitWord_fields (s : State) :
    (anchorBitWord s).extractLsb' 0 16 = s.anchorB ∧ (anchorBitWord s).extractLsb' 16 16 = 0#16 := by
  unfold anchorBitWord
  simp (disch := decide) only [BitVec.cast_eq, BitVec.extractLsb'_append_eq_of_add_le,
    BitVec.extractLsb'_append_eq_of_le, BitVec.extractLsb'_eq_self, Nat.reduceSub, and_self]

/-- OFFSETS holds its fields where R234 puts them. -/
theorem offsetsWord_fields (s : State) :
    (offsetsWord s).extractLsb' 0 16 = s.lastData ∧ (offsetsWord s).extractLsb' 16 5 = s.crcLen ∧
    (offsetsWord s).extractLsb' 21 11 = 0#11 := by
  unfold offsetsWord
  simp (disch := decide) only [BitVec.cast_eq, BitVec.extractLsb'_append_eq_of_add_le,
    BitVec.extractLsb'_append_eq_of_le, BitVec.extractLsb'_eq_self, Nat.reduceSub, and_self]

/-- FRAME holds its fields where R233 puts them. -/
theorem frameWord_fields (s : State) :
    (frameWord s).extractLsb' 0 4 = s.ctrl4 ∧ (frameWord s).extractLsb' 4 1 = s.fmt ∧
    (frameWord s).extractLsb' 5 3 = 0#3 ∧ (frameWord s).extractLsb' 8 4 = s.dlc ∧
    (frameWord s).extractLsb' 12 7 = s.nbytes ∧ (frameWord s).extractLsb' 19 1 = 0#1 ∧
    (frameWord s).extractLsb' 20 7 = s.byteCnt ∧ (frameWord s).extractLsb' 27 5 = 0#5 := by
  unfold frameWord
  simp (disch := decide) only [BitVec.cast_eq, BitVec.extractLsb'_append_eq_of_add_le,
    BitVec.extractLsb'_append_eq_of_le, BitVec.extractLsb'_eq_self, Nat.reduceSub, and_self]

theorem bsCode_eq_one_iff (b : BsState) : bsCode b = 1#1 ↔ b = .sync := by
  cases b <;> decide

/-- Settles O15, by the fields of the word that STATUS reads as. -/
theorem statusRegister : Obligations.StatusRegister := by
  refine ⟨⟨rfl, fun _ => rfl⟩, fun s v => ⟨exec_readOnlyWrite v s _ (by simp), _, exec_rdStatus s, ?_⟩, rfl⟩
  obtain ⟨herr, hrun, hsync, hrest⟩ := statusWord_fields s
  exact ⟨herr, hrun, by rw [hsync, bsCode_eq_one_iff], hrest⟩

/-- Settles O17, by the fields of the words that the three registers read as. -/
theorem indexRegisters : Obligations.IndexRegisters := by
  refine ⟨⟨rfl, fun _ => rfl⟩, ⟨rfl, fun _ => rfl⟩, ⟨rfl, fun _ => rfl⟩, fun s v => ?_, rfl, rfl, rfl⟩
  have hwrite := exec_readOnlyWrite v s
  exact ⟨hwrite _ (by simp), hwrite _ (by simp), hwrite _ (by simp),
    ⟨_, exec_rdBitIdx s, bitIdxWord_fields s⟩, ⟨_, exec_rdAnchorBit s, anchorBitWord_fields s⟩,
    _, exec_rdOffsets s, offsetsWord_fields s⟩

/-- Settles O19, by the fields of the word that FRAME reads as. -/
theorem frameRegister : Obligations.FrameRegister :=
  ⟨⟨rfl, fun _ => rfl⟩,
    fun s v => ⟨exec_readOnlyWrite v s _ (by simp), _, exec_rdFrame s, frameWord_fields s⟩, rfl⟩

/-! ### The event ports (R238) -/

/-- Each channel is driven by its own record alone. -/
theorem ports_eq (s : State) :
    ports s =
      { markPorts s.outBm Ports.zero with
        rdata := s.rdata
        fsValid := (spanPorts s.outFs Ports.zero).fsValid
        fsKind := (spanPorts s.outFs Ports.zero).fsKind
        fsStart := (spanPorts s.outFs Ports.zero).fsStart
        fsEnd := (spanPorts s.outFs Ports.zero).fsEnd
        fsValue := (spanPorts s.outFs Ports.zero).fsValue
        wnValid := (warningPorts s.outWn Ports.zero).wnValid
        wnCode := (warningPorts s.outWn Ports.zero).wnCode
        wnStart := (warningPorts s.outWn Ports.zero).wnStart
        wnEnd := (warningPorts s.outWn Ports.zero).wnEnd
        cfgErr := bitOf s.cfgErr } := by
  unfold ports
  rcases s.outBm with _ | m <;> rcases s.outFs with _ | f <;> rcases s.outWn with _ | w <;> rfl

/-- A cycle without a sample, or with a reset, leaves no record: the cycle begins with none, and a register write
makes none. -/
theorem step_noRecords {s t : State} (h : step s = .next t)
    (hs : (nextInput s).rst = true ∨ CycleWord.sValid (nextInput s).word = 0#1) :
    t.outBm = none ∧ t.outFs = none ∧ t.outWn = none := by
  rcases step_next h with ⟨-, rfl⟩ | ⟨hrst, u, hu, rfl⟩
  · exact ⟨rfl, rfl, rfl⟩
  · have hv : CycleWord.sValid (nextInput s).word = 0#1 :=
      hs.resolve_left fun hr => absurd (hrst.symm.trans hr) (by decide)
    obtain ⟨hbm, hfs, hwn, -, -⟩ := writePart_ports (nextInput s).word u
    rcases samplePart_next hu with ⟨-, rfl⟩ | ⟨hv', -⟩
    · exact ⟨hbm, hfs, hwn⟩
    · exact absurd (hv.symm.trans hv') (by decide)

/-- Settles O23: each channel shows its record or zeros, whatever stands on the others, and a cycle without a
sample leaves no record. -/
theorem eventPortsShowOneCyclesRecords : Obligations.EventPortsShowOneCyclesRecords := by
  refine ⟨by decide, by decide, by decide, fun s h => ?_, fun s h => ?_, fun s h => ?_, fun s m h => ?_,
    fun s f h => ?_, fun s w h => ?_, fun s t => step_noRecords⟩
  all_goals simp [ports_eq, h, markPorts, spanPorts, warningPorts, Ports.zero]

end Sys2Proof.Machine
end

section
/-! PROOFS. The family of 60_exceptions.md: what raises the configuration error, what clears it, and what it stops (R252). -/

namespace Sys2Proof.Machine

open Sys2Proof

/-! ### The write of a cycle, and the error bit -/

/-- The word writes CTRL, with `b` in the EN bit (R224). -/
def WritesEn (w : CycleWord) (b : Nat) : Prop :=
  CycleWord.we w = 1#1 ∧ CycleWord.addr w = addrCtrl ∧ (CycleWord.wdata w).toNat % 2 = b

/-- Among the writes, CTRL's is the one that acts on the error bit. -/
theorem writePart_of_ctrl {w : CycleWord} (hwe : CycleWord.we w = 1#1) (ha : CycleWord.addr w = addrCtrl)
    (s : State) : writePart w s = ctrlWrite (CycleWord.wdata w) s := by
  rw [writePart, if_pos hwe, ha]
  rfl

/-- Everything a cycle's write can do to the error bit: leave it, clear it by EN = 0, or raise it by the enable of
a disabled block below one sample per bit. -/
theorem writePart_cfgErr_cases (w : CycleWord) (s : State) :
    (writePart w s).cfgErr = s.cfgErr ∨
    (WritesEn w 0 ∧ (writePart w s).cfgErr = false) ∨
    (WritesEn w 1 ∧ s.en = false ∧ s.bitWidth.toNat < 0x10000 ∧ (writePart w s).en = true ∧
      (writePart w s).cfgErr = true) := by
  by_cases hwe : CycleWord.we w = 1#1
  case neg => exact .inl (by rw [writePart, if_neg hwe])
  have hwrite : writePart w s = regWrite (CycleWord.addr w) (CycleWord.wdata w) s := by rw [writePart, if_pos hwe]
  rw [hwrite]
  rcases regWrite_cases (CycleWord.addr w) (CycleWord.wdata w) s with e | ⟨ha, e⟩ | ⟨-, -, e⟩ | ⟨-, -, e⟩ <;> rw [e]
  case inr.inl =>
    rcases ctrlWrite_cases (CycleWord.wdata w) s with ⟨hv, k⟩ | ⟨-, -, k⟩ | ⟨hv, hen, hw, k⟩ | ⟨-, -, -, k⟩ <;> rw [k]
    · exact .inr (.inl ⟨⟨hwe, ha, (bit0_eq_zero _).1 hv⟩, rfl⟩)
    · exact .inl rfl
    · exact .inr (.inr ⟨⟨hwe, ha, (bit0_ne_zero _).1 hv⟩, hen, (tooNarrow_iff _).1 hw, rfl, rfl⟩)
    · exact .inl rfl
  all_goals exact .inl rfl

/-! ### A step, and the error bit -/

/-- The sample of a cycle leaves alone what an enable reads and writes. -/
theorem samplePart_control {w : CycleWord} {s t : State} (h : samplePart w s = .next t) :
    t.en = s.en ∧ t.cfgErr = s.cfgErr ∧ t.bitWidth = s.bitWidth := by
  rcases samplePart_next h with ⟨-, rfl⟩ | ⟨-, hs⟩
  · exact ⟨rfl, rfl, rfl⟩
  · obtain ⟨hen, herr, hwidth, -⟩ := sampleLeavesControlAlone s t _ ((exec_smpRow _ s).trans hs)
    exact ⟨hen, herr, hwidth⟩

/-- A step is a reset, or the write of its word on a state with the control and bit width of the state before it. -/
theorem step_write {s t : State} (h : step s = .next t) :
    ((nextInput s).rst = true ∧ t.cfgErr = false) ∨
    ((nextInput s).rst = false ∧ ∃ u : State,
      (u.en = s.en ∧ u.cfgErr = s.cfgErr ∧ u.bitWidth = s.bitWidth) ∧ t = writePart (nextInput s).word u) := by
  rcases step_next h with ⟨hrst, rfl⟩ | ⟨hrst, u, hu, rfl⟩
  · exact .inl ⟨hrst, rfl⟩
  · obtain ⟨hen, herr, hwidth⟩ := samplePart_control hu
    exact .inr ⟨hrst, u, ⟨hen, herr, hwidth⟩, rfl⟩

/-- Everything a step can do to the error bit: clear it by the reset pin or EN = 0, leave it, or raise it by an
enable below one sample per bit. -/
theorem step_cfgErr_cases {s t : State} (h : step s = .next t) :
    ((nextInput s).rst = true ∧ t.cfgErr = false) ∨
    t.cfgErr = s.cfgErr ∨
    (WritesEn (nextInput s).word 0 ∧ t.cfgErr = false) ∨
    ((nextInput s).rst = false ∧ WritesEn (nextInput s).word 1 ∧ s.en = false ∧ s.bitWidth.toNat < 0x10000 ∧
      t.en = true ∧ t.cfgErr = true) := by
  rcases step_write h with hr | ⟨hrst, u, ⟨hen, herr, hwidth⟩, rfl⟩
  · exact .inl hr
  · rw [← hen, ← herr, ← hwidth]
    rcases writePart_cfgErr_cases (nextInput s).word u with hkeep | hclear | hraise
    · exact .inr (.inl hkeep)
    · exact .inr (.inr (.inl hclear))
    · exact .inr (.inr (.inr ⟨hrst, hraise⟩))

/-- An enable below one sample per bit raises the error, whatever sample comes with it. -/
theorem step_raises {s t : State} (h : step s = .next t) (hrst : (nextInput s).rst = false) (hen : s.en = false)
    (hw : s.bitWidth.toNat < 0x10000) (hv : WritesEn (nextInput s).word 1) : t.en = true ∧ t.cfgErr = true := by
  obtain ⟨hwe, ha, hodd⟩ := hv
  rcases step_write h with ⟨hr, -⟩ | ⟨-, u, ⟨huen, -, huwidth⟩, rfl⟩
  · exact absurd (hrst.symm.trans hr) (by decide)
  · rw [writePart_of_ctrl hwe ha, ctrlWrite_of_odd u hodd, huen, hen, if_neg Bool.false_ne_true, enable_eq, huwidth,
      if_pos hw]
    exact ⟨rfl, rfl⟩

/-- The error appears in no step but an enable below one sample per bit. -/
theorem step_raised {s t : State} (h : step s = .next t) (hs : s.cfgErr = false) (ht : t.cfgErr = true) :
    (nextInput s).rst = false ∧ WritesEn (nextInput s).word 1 ∧ s.en = false ∧ s.bitWidth.toNat < 0x10000 ∧
      t.en = true := by
  rcases step_cfgErr_cases h with ⟨-, k⟩ | k | ⟨-, k⟩ | ⟨hrst, hv, hen, hw, hten, -⟩
  · exact absurd (ht.symm.trans k) (by decide)
  · exact absurd (ht.symm.trans (k.trans hs)) (by decide)
  · exact absurd (ht.symm.trans k) (by decide)
  · exact ⟨hrst, hv, hen, hw, hten⟩

/-- The error goes in no step but a reset or a write of EN = 0. -/
theorem step_cleared {s t : State} (h : step s = .next t) (hs : s.cfgErr = true) (ht : t.cfgErr = false) :
    (nextInput s).rst = true ∨ WritesEn (nextInput s).word 0 := by
  rcases step_cfgErr_cases h with ⟨hrst, -⟩ | k | ⟨hv, -⟩ | ⟨-, -, -, -, -, k⟩
  · exact .inl hrst
  · exact absurd (hs.symm.trans (k.symm.trans ht)) (by decide)
  · exact .inr hv
  · exact absurd (k.symm.trans ht) (by decide)

/-! ### What a standing error stops and shows -/

theorem ports_cfgErr (s : State) : (ports s).cfgErr = bitOf s.cfgErr := by rw [ports_eq]

/-- Settles O20: a step changes the error bit by its write or its reset alone, and while the bit stands RUN is
false, which discards samples, and STATUS and the port copy both. -/
theorem configErrorLifeCycle : Obligations.ConfigErrorLifeCycle := by
  refine ⟨fun s t h hrst hen hw hwe ha hodd => step_raises h hrst hen hw ⟨hwe, ha, hodd⟩, fun s t h hs ht => ?_,
    fun s t h hs ht => step_cleared h hs ht, fun s hs => ?_⟩
  · obtain ⟨hrst, hv, hen, hw, hten⟩ := step_raised h hs ht
    exact ⟨hrst, hen, hw, hten, hv⟩
  · obtain ⟨-, -, hdiscard⟩ := idleRowsAndDiscardedSamples s
    obtain ⟨hsmpD, hsmpR⟩ := hdiscard (.inr hs)
    obtain ⟨herr, hrun, -⟩ := statusWord_fields s
    rw [hs] at herr
    rw [(run_eq_false s).2 (.inr hs)] at hrun
    exact ⟨hsmpD, hsmpR, by rw [ports_cfgErr, hs]; rfl, _, exec_rdStatus s, herr, hrun⟩

end Sys2Proof.Machine
end

section
/-! PROOFS. The family of 70_reset_and_hazards.md: sample time without an origin (R287), the configuration lock (R284), a sample and a write in one cycle (R285), and the reset pin (R280). -/

namespace Sys2Proof.Machine

open Sys2Proof

/-! ### Sample time has no origin (R287) -/

/-- A state that runs `k` ahead is the state with its sample times moved, whatever its field start while no frame is
in progress. -/
theorem shiftedBy_iff {k : Word} {s s' : State} :
    ShiftedBy k s s' ↔ ∃ f, s' = aheadBy k f s ∧ (s.fdState ≠ 0#4 → f = s.fldStart + k) := by
  constructor
  · rintro ⟨hs', hf⟩
    exact ⟨s'.fldStart, hs', hf⟩
  · rintro ⟨f, rfl, hf⟩
    exact ⟨rfl, hf⟩

namespace ShiftedBy

variable {k : Word} {s s' t : State}

/-- Both states are at their sample point or neither is. -/
theorem sp_eq_iff (h : ShiftedBy k s s') : sp s' s'.rawIdx = s'.sampIdx ↔ sp s s.rawIdx = s.sampIdx := by
  obtain ⟨f, rfl, -⟩ := shiftedBy_iff.1 h
  exact sp_aheadBy_iff s k f

theorem run_eq (h : ShiftedBy k s s') : s'.run = s.run := by
  obtain ⟨f, rfl, -⟩ := shiftedBy_iff.1 h
  rfl

theorem bsState_eq (h : ShiftedBy k s s') : s'.bsState = s.bsState := by
  obtain ⟨f, rfl, -⟩ := shiftedBy_iff.1 h
  rfl

theorem prevLevel_eq (h : ShiftedBy k s s') : s'.prevLevel = s.prevLevel := by
  obtain ⟨f, rfl, -⟩ := shiftedBy_iff.1 h
  rfl

theorem sampIdx_eq (h : ShiftedBy k s s') : s'.sampIdx = s.sampIdx + k := by
  obtain ⟨f, rfl, -⟩ := shiftedBy_iff.1 h
  rfl

/-- A resynchronisation anchors each state at its own sample, so the anchors stay `k` apart. -/
theorem forced (h : ShiftedBy k s s') : ShiftedBy k (forcedResync s) (forcedResync s') := by
  obtain ⟨f, rfl, hf⟩ := shiftedBy_iff.1 h
  exact ⟨rfl, hf⟩

theorem soft (h : ShiftedBy k s s') : ShiftedBy k (softResync s) (softResync s') := by
  obtain ⟨f, rfl, hf⟩ := shiftedBy_iff.1 h
  exact ⟨rfl, hf⟩

/-- Counting the sample in both states keeps them `k` apart, across the wrap too. -/
theorem counted (h : ShiftedBy k s s') (L : Level) (n : Word) :
    ShiftedBy k (sampleEnd L n s) (sampleEnd L (n + k) s') := by
  obtain ⟨f, rfl, hf⟩ := shiftedBy_iff.1 h
  refine shiftedBy_iff.2 ⟨f, ?_, hf⟩
  unfold sampleEnd
  rw [BitVec.add_assoc, BitVec.add_comm k, ← BitVec.add_assoc]
  rfl

/-- The raw bit that the one state takes, the other takes `k` samples later. -/
theorem takeBit_next {L : Level} (h : ShiftedBy k s s') (ha : AwaitIffNoBit s) (ht : takeBit L s = .next t) :
    ∃ t', takeBit L s' = .next t' ∧ ShiftedBy k t t' := by
  obtain ⟨f, rfl, hf⟩ := shiftedBy_iff.1 h
  obtain ⟨g, ht', hg⟩ := takeBit_aheadBy k f L s t ha hf ht
  exact ⟨_, ht', shiftedBy_iff.2 ⟨g, rfl, hg⟩⟩

theorem takeIfDue_next {L : Level} (h : ShiftedBy k s s') (ha : AwaitIffNoBit s) (ht : takeIfDue L s = .next t) :
    ∃ t', takeIfDue L s' = .next t' ∧ ShiftedBy k t t' := by
  unfold takeIfDue at ht ⊢
  by_cases hn : sp s s.rawIdx = s.sampIdx
  · rw [if_pos hn] at ht
    rw [if_pos (h.sp_eq_iff.2 hn)]
    exact h.takeBit_next ha ht
  · rw [if_neg hn] at ht
    rw [if_neg (mt h.sp_eq_iff.1 hn)]
    cases ht
    exact ⟨s', rfl, h⟩

/-- Without a frame, the level alone decides. -/
theorem sampleIdle_next {L : Level} (h : ShiftedBy k s s') (ha : AwaitIffNoBit s) (ht : sampleIdle L s = .next t) :
    ∃ t', sampleIdle L s' = .next t' ∧ ShiftedBy k t t' := by
  unfold sampleIdle at ht ⊢
  by_cases hl : L = dominant
  · rw [if_pos hl] at ht ⊢
    exact h.forced.takeIfDue_next (s := forcedResync s) ha ht
  · rw [if_neg hl] at ht ⊢
    cases ht
    exact ⟨s', rfl, h⟩

/-- In a frame, the sample point and the edge decide, and both are the same in the two states. -/
theorem sampleSync_next {L : Level} (h : ShiftedBy k s s') (ha : AwaitIffNoBit s) (ht : sampleSync L s = .next t) :
    ∃ t', sampleSync L s' = .next t' ∧ ShiftedBy k t t' := by
  unfold sampleSync at ht ⊢
  rw [h.prevLevel_eq]
  by_cases hn : sp s s.rawIdx = s.sampIdx
  · rw [if_pos hn] at ht
    rw [if_pos (h.sp_eq_iff.2 hn)]
    exact h.takeBit_next ha ht
  · rw [if_neg hn] at ht
    rw [if_neg (mt h.sp_eq_iff.1 hn)]
    by_cases he : isEdge s.prevLevel L = true
    · rw [if_pos he] at ht ⊢
      exact h.soft.takeIfDue_next (s := softResync s) ha ht
    · rw [if_neg he] at ht ⊢
      cases ht
      exact ⟨s', rfl, h⟩

theorem sampleBody_next {L : Level} (h : ShiftedBy k s s') (ha : AwaitIffNoBit s) (ht : sampleBody L s = .next t) :
    ∃ t', sampleBody L s' = .next t' ∧ ShiftedBy k t t' := by
  cases hb : s.bsState with
  | idle =>
    rw [sampleBody_idle L hb] at ht
    rw [sampleBody_idle L (h.bsState_eq.trans hb)]
    exact h.sampleIdle_next ha ht
  | sync =>
    rw [sampleBody_sync L hb] at ht
    rw [sampleBody_sync L (h.bsState_eq.trans hb)]
    exact h.sampleSync_next ha ht

end ShiftedBy

/-- Settles O60: a discarded sample leaves the two states as they are; an accepted one has the same action in both,
and is counted in both. -/
theorem sampleTimeShift : Obligations.SampleTimeShift := by
  intro k L s s' t ha h ht
  rw [exec_smpRow] at ht ⊢
  rcases sampleStep_next ht with ⟨hr, rfl⟩ | ⟨hr, u, hu, -, rfl⟩
  · exact ⟨s', sampleStep_not_run (h.run_eq.trans hr), h⟩
  · obtain ⟨u', hu', hshift⟩ := h.sampleBody_next ha hu
    refine ⟨sampleEnd L s'.sampIdx u', by rw [sampleStep_run (h.run_eq.trans hr), hu', andThen_next], ?_⟩
    rw [h.sampIdx_eq]
    exact hshift.counted L s.sampIdx

/-! ### The configuration lock (R284) -/

/-- A register write on an enabled block leaves the timing configuration alone: the two configuration writes are
ignored, and a CTRL write keeps both words. -/
theorem regWrite_configuration {s : State} (hen : s.en = true) (a : RegAddr) (v : Word) :
    (regWrite a v s).bitWidth = s.bitWidth ∧ (regWrite a v s).spOffset = s.spOffset := by
  have hno : ¬ s.en = false := by rw [hen]; decide
  rcases regWrite_cases a v s with e | ⟨-, e⟩ | ⟨-, hdis, -⟩ | ⟨-, hdis, -⟩
  · rw [e]; exact ⟨rfl, rfl⟩
  · rw [e]
    rcases ctrlWrite_cases v s with ⟨-, k⟩ | ⟨-, -, k⟩ | ⟨-, -, -, k⟩ | ⟨-, -, -, k⟩ <;> rw [k] <;> exact ⟨rfl, rfl⟩
  · exact absurd hdis hno
  · exact absurd hdis hno

theorem writePart_configuration {s : State} (hen : s.en = true) (w : CycleWord) :
    (writePart w s).bitWidth = s.bitWidth ∧ (writePart w s).spOffset = s.spOffset := by
  unfold writePart
  split
  · exact regWrite_configuration hen _ _
  · exact ⟨rfl, rfl⟩

theorem samplePart_spOffset {w : CycleWord} {s t : State} (h : samplePart w s = .next t) :
    t.spOffset = s.spOffset := by
  rcases samplePart_next h with ⟨-, rfl⟩ | ⟨-, hs⟩
  · rfl
  · obtain ⟨-, -, -, hoffset, -⟩ := sampleLeavesControlAlone s t _ ((exec_smpRow _ s).trans hs)
    exact hoffset

/-- Settles O21: the cycle's sample leaves the configuration and the enable alone, and the write of an enabled block
the configuration. -/
theorem configurationLock : Obligations.ConfigurationLock := by
  intro s t h hen hrst
  rcases step_next h with ⟨hr, -⟩ | ⟨-, u, hu, rfl⟩
  · exact absurd (hrst.symm.trans hr) (by decide)
  · obtain ⟨huen, -, huwidth⟩ := samplePart_control hu
    have huoffset := samplePart_spOffset hu
    obtain ⟨hwidth, hoffset⟩ := writePart_configuration (huen.trans hen) (nextInput s).word
    exact ⟨hwidth.trans huwidth, hoffset.trans huoffset⟩

/-! ### A sample and a write in one cycle (R285) -/

/-- No register shows the coming inputs. -/
theorem regRead_inputs (a : RegAddr) (ins : List CycleInput) (s : State) :
    regRead a { s with inputs := ins } = regRead a s := rfl

/-- A cycle given by the fields of its word: the sample on the cleared records, the write, the read data of the state
before both. -/
theorem step_of_make {s : State} {S we re : BitVec 1} {L : Level} {a : RegAddr} {v : Word} {rest : List CycleInput}
    (h : s.inputs = ⟨false, CycleWord.make S L we re a v⟩ :: rest) :
    step s =
      andThen
        (if S = 1#1 then sampleStep L (clearRecords { s with inputs := rest })
         else .next (clearRecords { s with inputs := rest }))
        fun u => .next
          { (if we = 1#1 then regWrite a v u else u) with rdata := if re = 1#1 then regRead a s else 0#32 } := by
  rw [stepIsTheSpecsStep s _ rest h, specStep, if_neg Bool.false_ne_true]
  simp only [samplePart, writePart, readPart, make_sValid, make_sLevel, make_we, make_re, make_addr, make_wdata]
  rfl

/-- A cycle with a sample and a CTRL write goes on through the state its sample leaves. -/
theorem step_sample_ctrlWrite {s t : State} {re : BitVec 1} {L : Level} {v : Word} {rest : List CycleInput}
    (h : s.inputs = ⟨false, CycleWord.make 1#1 L 1#1 re addrCtrl v⟩ :: rest) (ht : step s = .next t) :
    ∃ u, sampleStep L (clearRecords { s with inputs := rest }) = .next u ∧
      t = { ctrlWrite v u with rdata := if re = 1#1 then regRead addrCtrl s else 0#32 } := by
  rw [step_of_make h, if_pos rfl, andThen_eq_next] at ht
  obtain ⟨u, hu, ht⟩ := ht
  cases ht
  exact ⟨u, hu, rfl⟩

/-- A write of EN = 1 enables a disabled block (R224). -/
theorem ctrlWrite_enable {v : Word} {s : State} (hv : v.toNat % 2 = 1) (hen : s.en = false) :
    ctrlWrite v s = { s with en := true, cfgErr := if s.bitWidth.toNat < 0x10000 then true else s.cfgErr } :=
  Host.Outcome.next.inj (exec_wrCtrl_enable hv hen)

/-- A write to an address that takes none is as if it were not made. -/
theorem step_write_ignored {a : RegAddr} (ha : a ∉ [addrCtrl, addrBitWidth, addrSpOffset]) (s : State)
    (S re : BitVec 1) (L : Level) (v : Word) (rest : List CycleInput) :
    step { s with inputs := ⟨false, CycleWord.make S L 1#1 re a v⟩ :: rest } =
      step { s with inputs := ⟨false, CycleWord.make S L 0#1 re a v⟩ :: rest } := by
  rw [step_of_make (we := 1#1) rfl, step_of_make (we := 0#1) rfl]
  simp only [regWrite_of_notWritable ha, ite_self, regRead_inputs]

/-- Settles O22: the enable finds its sample discarded, the disable resets what its sample left but for the records,
and the other writes are ignored, by O21 and by R237. -/
theorem sampleAndWriteInOneCycle : Obligations.SampleAndWriteInOneCycle := by
  intro s t L re v rest
  refine ⟨fun hen hv h ht => ?_, fun hv h ht => ?_, fun hen a _ S h ht => ?_, fun a hctrl hwidth hoffset S => ?_⟩
  · obtain ⟨u, hu, rfl⟩ := step_sample_ctrlWrite h ht
    have hdiscard := sampleStep_not_run (L := L) (s := clearRecords { s with inputs := rest })
      ((run_eq_false s).2 (.inl hen))
    have hkeep : clearRecords { s with inputs := rest } = u := Host.Outcome.next.inj (hdiscard.symm.trans hu)
    rw [← hkeep, ctrlWrite_enable (s := clearRecords { s with inputs := rest }) hv hen]
    exact ⟨rfl, rfl, rfl, rfl, rfl, rfl, rfl, rfl⟩
  · obtain ⟨u, hu, rfl⟩ := step_sample_ctrlWrite h ht
    have hexec := (exec_smpRow L _).trans hu
    obtain ⟨-, -, huwidth, huoffset, -, huins⟩ := sampleLeavesControlAlone _ u L hexec
    refine ⟨u, hexec, ?_⟩
    rw [ctrlWrite_of_even u hv, disable_eq, huwidth, huoffset, huins]
    rfl
  · exact configurationLock s t ht hen (by rw [nextInput, h]; rfl)
  · exact step_write_ignored (by simp [hctrl, hwidth, hoffset]) s S re L v rest

/-! ### The reset pin (R280) -/

/-- Table M's reset column: every register but ID reads as 0. -/
theorem regRead_reset (a : RegAddr) : regRead a State.reset = if a = 0x00#8 then 0x56414E01#32 else 0#32 := by
  revert a
  decide

/-- Settles O10: the reset cycle leaves the reset state, whose ports and registers do not show the coming inputs. -/
theorem resetPinGivesResetState : Obligations.ResetPinGivesResetState := by
  intro s w rest h
  exact ⟨{ State.reset with inputs := rest }, stepIsTheSpecsStep s _ rest h, rfl, rfl, regRead_reset⟩

end Sys2Proof.Machine
end

section
/-! PROOFS. The numbers of the opcode table as words of rows (30_encoding.md section 1), and the words that 95_test_vectors.md section 9 writes out. -/

namespace Sys2Proof

/-! ### The word of a table number (log entry 12) -/

/-- A cycle word's number, read as one of 48 bits, is named after that word's principal row. -/
theorem decodeTableWord_cycle (w : CycleWord) : decodeTableWord 48 w.toNat = some (principalRow w) := by
  rw [decodeTableWord, wordOfTable, if_neg (by decide), if_pos w.isLt, BitVec.ofNat_toNat, BitVec.setWidth_eq]
  rfl

/-- A code's number, read as one of 8 bits, is named after the code's handler. -/
theorem decodeTableWord_handler (c : FdCode) : decodeTableWord 8 c.toNat = some (decodeHandler c) := by
  rw [decodeTableWord, wordOfTable, if_pos (by decide), if_pos c.isLt, BitVec.ofNat_toNat, BitVec.setWidth_eq]
  rfl

/-! ### The row a row's own word is named after (log entry 9) -/

/-- A lone read is named after its read row. -/
theorem rowOfWord_readWord (a : RegAddr) : rowOfWord (readWord a) = decodeReadAddr a := by
  simp [rowOfWord, readWord, principalRow, decodeRead]

/-- A lone write is named after its write row: it has no read and no sample to go before it. -/
theorem rowOfWord_writeWord (a : RegAddr) (v : Word) : rowOfWord (writeWord a v) = decodeWriteAddr a v := by
  simp [rowOfWord, writeWord, principalRow, decodeRead, decodeBeat, decodeWrite]

/-- The word of a well-formed row is named after that row, but for `NOS`, whose word is named after `NOP`. -/
theorem rowOfWord_encode {i : Instr} (hw : i.wf = true) (hnos : i ≠ .nos) : rowOfWord (encode i) = i := by
  cases hp : partOf i
  case beat =>
    cases i <;> cases hp
    case nos => exact absurd rfl hnos
    all_goals rfl
  case idleBus => cases i <;> cases hp; rfl
  case read =>
    obtain ⟨a, rfl⟩ := exists_decodeReadAddr_eq hp hw
    rw [encode_decodeReadAddr, rowOfWord_readWord]
  case write =>
    obtain ⟨a, v, rfl⟩ := exists_decodeWriteAddr_eq hp hw
    rw [encode_decodeWriteAddr, rowOfWord_writeWord]
  case handler =>
    cases i <;> cases hp
    case fdReserved12 c => exact decodeHandler_of_le (of_decide_eq_true hw)
    all_goals rfl

/-- Settles O5: a number of either width stands for the word it is the number of, and the row's word is named after
the row. -/
theorem tableNumberNamesItsRow : Obligations.TableNumberNamesItsRow := by
  intro i hw hnos
  have hname := rowOfWord_encode hw hnos
  refine ⟨fun w he => ?_, fun c he => ?_⟩ <;> rw [he] at hname
  · exact (decodeTableWord_cycle w).trans (congrArg some hname)
  · exact (decodeTableWord_handler c).trans (congrArg some hname)

/-! ### Words written out (95_test_vectors.md section 9, Table F) -/

/-- Settles O4: each number is a closed word, on which the decoder computes. -/
theorem writtenOutWordsDecode : Obligations.WrittenOutWordsDecode := by
  unfold Obligations.WrittenOutWordsDecode
  decide

end Sys2Proof
end
